-- ==== Sys2Proof/Word.lean ====
section
/-! DEFINITION. Sys2Proof/Word.lean: the machine's word types (00_scope.md R6, R7, R8).
Registers, addresses and lengths are 32 bits; data memory holds bytes; a bit string is a list of bits, first bit
first. -/

namespace Sys2Proof

/-- A 32-bit register value, data-memory address or length (R6 `ADDR_WIDTH`, register width). -/
abbrev Word := BitVec 32

/-- A byte value 0..255: a data-memory byte, or a symbol of the 256-value alphabet (R6, R8). -/
abbrev Byte := BitVec 8

/-- A bit string, its first (leftmost) bit at the head of the list (R8). -/
abbrev Bits := List Bool

end Sys2Proof
end

