-- ==== Sys2Proof/Config.lean ====
section
/-! DEFINITION. Sys2Proof/Config.lean: what the spec fixes once for the core, the OPEN parameter and the free
values (00_scope.md R6; 93_implementation_defined.md U1-U3, U11). An `opaque` constant has no body, so no proof can
learn a value of it. -/

namespace Sys2Proof.Config

/-- R102: the constant the ID register reads. -/
def idValue : Word := 0x484C5A01#32

/-- R6, R107: the least legal LZW code width. -/
def codeWidthMin : Nat := 8

/-- R6 `CODE_WIDTH_MAX`: the greatest legal LZW code width. -/
def codeWidthMax : Nat := 16

/-- R107, R701: the reset value of CONFIG.CODE_WIDTH. -/
def codeWidthReset : BitVec 5 := 12#5

/-- R6: the greatest length, in bits, of a bit stream the core writes (2^32 - 1). -/
def maxStreamBits : Nat := 4294967295

/-- R6, U11: the OPEN parameter `MEM_SIZE` (1 ≤ MEM_SIZE ≤ 2^32), held as the highest data-memory address
`MEM_SIZE - 1`: the 32-bit values of this constant are exactly the legal sizes. Assumption 1. -/
opaque memTop : Word

/-- FREE VALUE (U1, U2, U4): the n-th unspecified data-memory byte. Assumption 3. -/
opaque freeByte : Nat → Byte

/-- FREE VALUE (U3): the n-th unspecified value a host reads from a result register while BUSY = 1. Assumption 3. -/
opaque freeWord : Nat → Word

end Sys2Proof.Config
end

