-- ==== Sys2Proof/Syntax.lean ====
section
/-! DEFINITION. Sys2Proof/Syntax.lean: the commands of the core (30_encoding.md R302), one constructor per row of
spec/opcode_table.json. A command has no operand fields (R305): its operands are registers (R310). -/

namespace Sys2Proof

/-- The eleven commands of R302. -/
inductive Instr where
  /-- HUF_FREQ, word 0x00000001 (R402). -/
  | hufFreq
  /-- HUF_BUILD, word 0x00000002 (R412). -/
  | hufBuild
  /-- HUF_CODEGEN, word 0x00000003 (R422). -/
  | hufCodegen
  /-- HUF_ENCODE, word 0x00000004 (R452). -/
  | hufEncode
  /-- HUF_DECODE, word 0x00000005 (R460). -/
  | hufDecode
  /-- HUF_META_EMIT, word 0x00000006 (R470). -/
  | hufMetaEmit
  /-- HUF_META_PARSE, word 0x00000007 (R475). -/
  | hufMetaParse
  /-- HUF_COMPRESS, word 0x00000008 (R480). -/
  | hufCompress
  /-- HUF_DECOMPRESS, word 0x00000009 (R482). -/
  | hufDecompress
  /-- LZW_ENCODE, word 0x00000010 (R520). -/
  | lzwEncode
  /-- LZW_DECODE, word 0x00000011 (R530). -/
  | lzwDecode
  deriving DecidableEq, Repr

end Sys2Proof
end

