-- ==== Sys2Proof/Machine/State.lean ====
section
/-! DEFINITION. Sys2Proof/Machine/State.lean: the machine's state as plain data (10_state.md, 70_reset_and_hazards.md
R700), the reasons a step can stop, and the state after reset.

Three parts: the core's registers and tables (the complete list of R700); the platform's data memory and its size
(20_memory.md R200); and the two agents' inputs and records (R100, R230): what the host does next and what it has
read. `draws` is the model's own counter of free values. -/

namespace Sys2Proof.Machine

/-- R130: the engine's sequencing state, visible as STATUS.BUSY. -/
inductive Engine where
  | idle
  | busy
  deriving DecidableEq, Repr

/-- 60_exceptions.md R601: the values ERRCODE takes; no other is ever produced (U9). -/
inductive ErrCode where
  | none
  | illegalCmd
  | badConfig
  | notReady
  | busError
  | regionOverlap
  | outputOverflow
  | corruptResidual
  | corruptLzwCode
  | corruptLzwLength
  | metadataMalformed
  | symbolNotInTable
  | streamTruncated
  deriving DecidableEq, Repr

/-- A table with one entry per byte value (R140, R150). -/
abbrev Table (α : Type) := Vector α 256

/-- R150: a codeword, a bit string. -/
abbrev Codeword := Bits

/-- R145: a node of the prefix tree's arena. -/
inductive Node where
  /-- A leaf for one symbol: its symbol, frequency and key (R405). -/
  | leaf (sym : Byte) (freq : BitVec 40) (key : BitVec 9)
  /-- An internal node: frequency, the arena indices of its left (bit 0) and right (bit 1) child, key. -/
  | internal (freq : BitVec 40) (left right : Nat) (key : BitVec 9)
  deriving DecidableEq, Repr

/-- R145: TREE = (nodes, root). -/
structure Tree where
  nodes : List Node
  root : Option Nat
  deriving DecidableEq, Repr

/-- R145, R146: the empty tree. -/
abbrev Tree.empty : Tree := { nodes := [], root := none }

/-- R200: data memory. The cells whose byte is not 0x00, by strictly rising address; an unlisted address reads 0x00
(assumption 2). -/
abbrev Memory := List Host.Cell

/-- 20_memory.md R230, R340: one action of the host or the platform. -/
inductive Action where
  /-- A register-window write of `bits` bits at byte offset `off` (R232: only 32-bit aligned ones are accepted). -/
  | write (off : BitVec 12) (bits : Nat) (v : Word)
  /-- A register-window read of `bits` bits at byte offset `off`. -/
  | read (off : BitVec 12) (bits : Nat)
  /-- The host writes one data-memory byte. The address is a number: one at or above MEM_SIZE, 2^32 and more included,
  names no byte (R200; assumption 5). -/
  | poke (a : Nat) (v : Byte)
  /-- The host reads one data-memory byte. -/
  | peek (a : Nat)
  /-- R341 `wait`: poll STATUS until BUSY = 0; `polls` of the polls find BUSY = 1 (R730: any number). -/
  | wait (polls : Nat)
  /-- R341: wait for IRQ = 1, then read STATUS. -/
  | waitIrq
  /-- R700: the platform asserts the core's reset. -/
  | hardReset
  deriving DecidableEq, Repr

/-- An action still to come. `early` says when it lands if a command is running: `true`, before that command
completes; `false`, after (R730, R731: the spec leaves the moment open). -/
structure Input where
  early : Bool
  action : Action
  deriving DecidableEq, Repr

/-- What an access of the host gave back (R230, R232, R340). -/
inductive Observation where
  /-- A register-window read returned this word. -/
  | word (v : Word)
  /-- A data-memory read returned this byte. -/
  | byte (v : Byte)
  /-- R232: the access was refused with an error response; a read returned no data. -/
  | errorResponse
  deriving DecidableEq, Repr

/-- Every piece of state. -/
structure State where
  /-- R130: ENGINE. -/
  engine : Engine
  /-- R103: CTRL.IRQ_EN. (SOFT_RESET reads 0 and holds nothing.) -/
  irqEn : Bool
  /-- R104: STATUS.DONE. -/
  done : Bool
  /-- R104: STATUS.ERROR. -/
  error : Bool
  /-- R104, R522: STATUS.DICT_OVF. -/
  dictOvf : Bool
  /-- R104, R601: STATUS.ERRCODE. -/
  errCode : ErrCode
  /-- R146: STATUS.TREE_VALID. -/
  treeValid : Bool
  /-- R151: STATUS.CODE_VALID. -/
  codeValid : Bool
  /-- R106: CMD. -/
  cmd : Word
  /-- R107: CONFIG.CODE_WIDTH. -/
  codeWidth : BitVec 5
  /-- R108: SRC_ADDR. -/
  srcAddr : Word
  /-- R109: SRC_LEN. -/
  srcLen : Word
  /-- R110: DST_ADDR. -/
  dstAddr : Word
  /-- R111: DST_CAP. -/
  dstCap : Word
  /-- R112: DST_LEN. -/
  dstLen : Word
  /-- R113: DST_BITS. -/
  dstBits : Word
  /-- R114: META_ADDR. -/
  metaAddr : Word
  /-- R115: META_LEN. -/
  metaLen : Word
  /-- R116: META_OUT_LEN. -/
  metaOutLen : Word
  /-- R117: HBITS. -/
  hbits : Word
  /-- R118: NSYM, bits 8:0. -/
  nsym : BitVec 9
  /-- R119: DICT_SIZE, bits 16:0. -/
  dictSize : BitVec 17
  /-- R120: CODE_SEL.SYM. -/
  codeSel : Byte
  /-- R140: FREQ. -/
  freq : Table Word
  /-- R145: TREE. -/
  tree : Tree
  /-- R150: CODE; `none` is `absent`. -/
  code : Table (Option Codeword)
  /-- R6, R200: MEM_SIZE - 1, the highest data-memory address; no step changes it (assumption 1). -/
  memTop : Word
  /-- R200: data memory, the platform's. -/
  mem : Memory
  /-- R230: the actions of the host and the platform still to come, next first. -/
  inputs : List Input
  /-- R340: what the host's reads have returned, oldest first. -/
  recorded : List Observation
  /-- The model's own: how many free values have been drawn (assumption 3). -/
  draws : Nat
  deriving DecidableEq, Repr

/-- Why the machine stops. No command stops the machine: a command's errors are completions with ERROR (R610). -/
inductive Fault where
  /-- Raised by a host `poke` or `peek` at an address that does not exist (R200: addresses 0..MEM_SIZE-1). Safe: the
  spec gives such an access no meaning. -/
  | hostAddressOutsideMemory (a : Nat)
  deriving DecidableEq, Repr

/-- Why the model says nothing of a step. -/
inductive Refusal where
  /-- A command whose meaning is not modelled. No arm uses it. Safe. -/
  | notModelled (mnemonic : String)
  /-- A host `poke` into a region of the running command: "A model gives the host no such move" (R231 (a)). Safe:
  the model says nothing of such a run. -/
  | hostWritesRunningRegion (a : Nat)
  deriving DecidableEq, Repr

/-- R700: the state after reset on a platform whose highest data-memory address is `memTop`. -/
def State.resetWith (memTop : Word) : State where
  engine := .idle
  irqEn := false
  done := false
  error := false
  dictOvf := false
  errCode := .none
  treeValid := false
  codeValid := false
  cmd := 0
  codeWidth := Config.codeWidthReset
  srcAddr := 0
  srcLen := 0
  dstAddr := 0
  dstCap := 0
  dstLen := 0
  dstBits := 0
  metaAddr := 0
  metaLen := 0
  metaOutLen := 0
  hbits := 0
  nsym := 0
  dictSize := 0
  codeSel := 0
  freq := Vector.replicate 256 0
  tree := Tree.empty
  code := Vector.replicate 256 none
  memTop := memTop
  mem := []
  inputs := []
  recorded := []
  draws := 0

/-- R700: the machine right after reset. -/
def State.reset : State := State.resetWith Config.memTop

end Sys2Proof.Machine
end

