-- ==== Sys2Proof/Machine/Ops.lean ====
section
/-! DEFINITION. Sys2Proof/Machine/Ops.lean: the named operations the meanings share: tables, data memory, bit strings
and their packing (20_memory.md), taking an error and completing (60_exceptions.md R600, R610, R611), the host's
acknowledge that stands for a return (R625), and the invalidation of TREE and CODE (10_state.md R155). -/

namespace Sys2Proof.Machine

/-! ## Tables of 256 entries (R140, R150) -/

/-- The 256 byte values in ascending order. -/
def allSymbols : List Byte := (List.range 256).map (BitVec.ofNat 8)

/-- Entry `s` of a table. -/
def Table.lookup {α : Type} (t : Table α) (s : Byte) : α := t[s.toNat]'s.isLt

/-- The table with entry `s` replaced. -/
def Table.update {α : Type} (t : Table α) (s : Byte) (v : α) : Table α := t.set s.toNat v s.isLt

/-- The table whose entry `s` is `f s`. -/
def Table.tabulate {α : Type} (f : Byte → α) : Table α := ⟨(allSymbols.map f).toArray, by simp [allSymbols]⟩

/-- The entries of a table, each with its byte value, in ascending order. -/
def Table.entries {α : Type} (t : Table α) : List (Byte × α) := allSymbols.zip t.toList

/-- R118, R140: the frequency-table entries, the byte values whose count is not 0, in ascending order. -/
def presentEntries (f : Table Word) : List (Byte × Word) := (Table.entries f).filter fun e => e.2 != 0

/-- R118: the number of byte values whose count is not 0. -/
def presentCount (f : Table Word) : Nat := (presentEntries f).length

/-! ## Data memory (R200, R205, R206) -/

/-- What an address that is not listed reads as (assumption 2). -/
def Memory.unlisted : Byte := 0

/-- R205: `MemRead(a, 1)`. -/
def Memory.read : Memory → Nat → Byte
  | [], _ => Memory.unlisted
  | (b, v) :: rest, a => if a = b then v else Memory.read rest a

/-- Put one cell in front of cells at higher addresses, keeping the canonical form. -/
def Memory.place (a : Nat) (v : Byte) (rest : Memory) : Memory :=
  if v = Memory.unlisted then rest else (a, v) :: rest

/-- R206: `MemWrite(a, 1, v)`. -/
def Memory.write : Memory → Nat → Byte → Memory
  | [], a, v => Memory.place a v []
  | (b, w) :: rest, a, v =>
    if a < b then Memory.place a v ((b, w) :: rest)
    else if a = b then Memory.place a v rest
    else (b, w) :: Memory.write rest a v

/-- The canonical form: addresses strictly rising, no cell equal to what an unlisted address reads as. -/
def Memory.wf : Memory → Bool
  | [] => true
  | (a, v) :: rest => rest.all (fun c => a < c.1) && v != Memory.unlisted && Memory.wf rest

/-- R209: the byte string of length `n` at addresses `a`, `a + 1`, ... -/
def Memory.readBytes (m : Memory) (a n : Nat) : List Byte := (List.range n).map fun i => m.read (a + i)

/-- R209: write a byte string at addresses `a`, `a + 1`, ..., in order. -/
def Memory.writeBytes : Memory → Nat → List Byte → Memory
  | m, _, [] => m
  | m, a, v :: vs => Memory.writeBytes (m.write a v) (a + 1) vs

/-- R200: MEM_SIZE. -/
def State.memSize (s : State) : Nat := s.memTop.toNat + 1

/-! ## Bit strings (R8, R210, R211, R510) -/

/-- R7: `ceil8(n)`. -/
def ceil8 (n : Nat) : Nat := (n + 7) / 8

/-- The number a bit string stands for, most significant bit first. -/
def bitsToNat (b : Bits) : Nat := b.foldl (fun n x => 2 * n + x.toNat) 0

/-- R510 `bitsW(k)`: the `w`-bit binary form of `k`, most significant bit first. -/
def natToBits (w k : Nat) : Bits := (List.range w).map fun j => k.testBit (w - 1 - j)

/-- A bit string cut or zero-padded on the right to `n` bits. -/
def padTo (n : Nat) (b : Bits) : Bits := b.take n ++ List.replicate (n - b.length) false

/-- R210: one byte of a packed stream; the first bit goes to byte bit 7, bits after the last are 0. -/
def packByte (b : Bits) : Byte := BitVec.ofNat 8 (bitsToNat (padTo 8 b))

/-- R210: the first `n` bytes of a packed stream. -/
def packBytes : Nat → Bits → List Byte
  | 0, _ => []
  | n + 1, b => packByte (b.take 8) :: packBytes n (b.drop 8)

/-- R210 `WriteBits`: the `ceil8` bytes a bit string packs into. -/
def packBits (b : Bits) : List Byte := packBytes (ceil8 b.length) b

/-- R211: the bits of a packed byte string, eight a byte, most significant first. -/
def unpackBytes (bs : List Byte) : Bits := bs.flatMap fun v => natToBits 8 v.toNat

/-- R211: `ReadBits(a, n)`. -/
def Memory.readBits (m : Memory) (a n : Nat) : Bits := (unpackBytes (m.readBytes a (ceil8 n))).take n

/-! ## Command start, completion and errors -/

/-- R600: what the issue of a command sets before the word is decoded. -/
def State.start (s : State) : State :=
  { s with engine := .busy, done := false, error := false, errCode := .none, dictOvf := false }

/-- R106: a CMD write of `w` while idle stores the word and issues the command. -/
def State.issue (s : State) (w : Word) : State := { s with cmd := w }.start

/-- R610 `raise Error(e)`: completion with an error. This is the core's only exception: nothing is saved (R625), and
the host learns the cause from ERRCODE. -/
def State.raiseError (s : State) (e : ErrCode) : State :=
  { s with errCode := e, error := true, done := false, engine := .idle }

/-- R611 `complete()`: completion without error. -/
def State.complete (s : State) : State :=
  { s with done := true, error := false, errCode := .none, engine := .idle }

/-- R105, R625: a STATUS write of `v` while idle, write-one-to-clear; the host's acknowledge. -/
def State.acknowledge (s : State) (v : Word) : State :=
  { s with
    done := if v.getLsbD 1 then false else s.done
    error := if v.getLsbD 2 then false else s.error
    errCode := if v.getLsbD 2 then .none else s.errCode
    dictOvf := if v.getLsbD 3 then false else s.dictOvf }

/-! ## The Huffman tables (R118, R146, R151, R155) -/

/-- R151: every CODE entry absent, CODE_VALID = 0. -/
def State.clearCode (s : State) : State := { s with code := Vector.replicate 256 none, codeValid := false }

/-- R155: the invalidation of TREE and CODE. -/
def State.invalidate (s : State) : State := { s with tree := Tree.empty, treeValid := false }.clearCode

/-- FREQ <- f with what every change of FREQ entails: NSYM recomputed (R118) and the invalidation (R155). -/
def State.setFreq (s : State) (f : Table Word) : State :=
  { s with freq := f, nsym := BitVec.ofNat 9 (presentCount f) }.invalidate

/-- R146: TREE <- t, TREE_VALID <- 1. -/
def State.setTree (s : State) (t : Tree) : State := { s with tree := t, treeValid := true }

/-- R151: CODE <- c, CODE_VALID <- 1. -/
def State.setCode (s : State) (c : Table (Option Codeword)) : State := { s with code := c, codeValid := true }

/-! ## Writing results -/

/-- R206, R209: the core writes a byte string at `a`. -/
def State.store (s : State) (a : Word) (bs : List Byte) : State := { s with mem := s.mem.writeBytes a.toNat bs }

/-- DST_LEN and DST_BITS (R112, R113). -/
def State.setDst (s : State) (len bits : Nat) : State :=
  { s with dstLen := BitVec.ofNat 32 len, dstBits := BitVec.ofNat 32 bits }

/-- HBITS (R117). -/
def State.setHbits (s : State) (n : Nat) : State := { s with hbits := BitVec.ofNat 32 n }

/-- META_OUT_LEN (R116). -/
def State.setMetaOut (s : State) (n : Nat) : State := { s with metaOutLen := BitVec.ofNat 32 n }

/-- DICT_SIZE (R119). -/
def State.setDictSize (s : State) (n : Nat) : State := { s with dictSize := BitVec.ofNat 17 n }

/-! ## Unspecified bytes (R613 (a), R700, U1, U2) -/

/-- `n` unspecified bytes, from the `d`-th draw on. -/
def freeBytes (d n : Nat) : List Byte := (List.range n).map fun i => Config.freeByte (d + i)

/-- Every byte of the `n` bytes at `a` takes an unspecified value. -/
def State.scramble (s : State) (a n : Nat) : State :=
  { s with mem := s.mem.writeBytes a (freeBytes s.draws n), draws := s.draws + n }

end Sys2Proof.Machine
end

