-- ==== Sys2Proof/Machine/Operands.lean ====
section
/-! DEFINITION. Sys2Proof/Machine/Operands.lean: a command's operands are registers (30_encoding.md R305, R310): its
source and blob bytes, its memory regions, the pre-checks over them (60_exceptions.md R605) and what an error after
the pre-checks does to its results (R613). -/

namespace Sys2Proof.Machine

/-- R202: a region of data memory, and whether the command writes it (R310). -/
structure Region where
  addr : Nat
  len : Nat
  isWrite : Bool
  deriving DecidableEq, Repr

/-- R202: in range when empty, or when `addr + len <= MEM_SIZE` without wrap-around. -/
def Region.inRange (r : Region) (memSize : Nat) : Bool := r.len == 0 || r.addr + r.len ≤ memSize

/-- R202: two regions overlap when neither is empty and they share an address. -/
def Region.overlaps (r q : Region) : Bool :=
  r.len != 0 && q.len != 0 && r.addr < q.addr + q.len && q.addr < r.addr + r.len

/-- The part of a region below `n`: its bytes that exist when MEM_SIZE is `n` (R200). -/
def Region.clip (r : Region) (n : Nat) : Region := { r with len := min r.len (n - r.addr) }

/-- Whether an address lies in a region. -/
def Region.holds (r : Region) (a : Nat) : Bool := r.addr ≤ a && a < r.addr + r.len

/-- R310: SRC, read, SRC_LEN bytes. -/
def srcRegion (s : State) : Region := { addr := s.srcAddr.toNat, len := s.srcLen.toNat, isWrite := false }

/-- R310: SRC, read, SRC_LEN bits, which span `ceil8(SRC_LEN)` bytes. -/
def srcBitsRegion (s : State) : Region := { addr := s.srcAddr.toNat, len := ceil8 s.srcLen.toNat, isWrite := false }

/-- R310: DST, written, DST_CAP bytes. -/
def dstRegion (s : State) : Region := { addr := s.dstAddr.toNat, len := s.dstCap.toNat, isWrite := true }

/-- R310: META, read or written, META_LEN bytes. -/
def metaRegion (s : State) (isWrite : Bool) : Region :=
  { addr := s.metaAddr.toNat, len := s.metaLen.toNat, isWrite := isWrite }

/-- R310: the regions of each command, in the table's order. -/
def regions (i : Instr) (s : State) : List Region :=
  match i with
  | .hufFreq => [srcRegion s]
  | .hufBuild => []
  | .hufCodegen => []
  | .hufEncode => [srcRegion s, dstRegion s]
  | .hufDecode => [srcBitsRegion s, dstRegion s]
  | .hufMetaEmit => [metaRegion s true]
  | .hufMetaParse => [metaRegion s false]
  | .hufCompress => [srcRegion s, dstRegion s, metaRegion s true]
  | .hufDecompress => [srcRegion s, metaRegion s false, dstRegion s]
  | .lzwEncode => [srcRegion s, dstRegion s]
  | .lzwDecode => [srcBitsRegion s, dstRegion s]

/-- The command's write regions. -/
def writeRegions (i : Instr) (s : State) : List Region := (regions i s).filter Region.isWrite

/-- The bytes of the SRC region (SRC_LEN bytes). -/
def srcBytes (s : State) : List Byte := s.mem.readBytes s.srcAddr.toNat s.srcLen.toNat

/-- The bytes of the META region. -/
def metaBytes (s : State) : List Byte := s.mem.readBytes s.metaAddr.toNat s.metaLen.toNat

/-! ## Pre-checks (R605); check 1 is the decoder's -/

/-- R605 check 2: CONFIG.CODE_WIDTH is legal, for an LZW command. -/
def configOk (i : Instr) (s : State) : Bool :=
  match i with
  | .lzwEncode | .lzwDecode => Config.codeWidthMin ≤ s.codeWidth.toNat && s.codeWidth.toNat ≤ Config.codeWidthMax
  | .hufFreq | .hufBuild | .hufCodegen | .hufEncode | .hufDecode | .hufMetaEmit | .hufMetaParse | .hufCompress
  | .hufDecompress => true

/-- R605 check 3: the table the command needs is valid. -/
def readyOk (i : Instr) (s : State) : Bool :=
  match i with
  | .hufCodegen => s.treeValid
  | .hufEncode | .hufDecode => s.codeValid
  | .hufFreq | .hufBuild | .hufMetaEmit | .hufMetaParse | .hufCompress | .hufDecompress | .lzwEncode
  | .lzwDecode => true

/-- R605 check 4: every region is in range. -/
def rangesOk (i : Instr) (s : State) : Bool := (regions i s).all fun r => r.inRange s.memSize

/-- R605 check 5 on a list of regions: no write region overlaps another region of the list. -/
def disjointOk : List Region → Bool
  | [] => true
  | r :: rest => rest.all (fun q => !((r.isWrite || q.isWrite) && r.overlaps q)) && disjointOk rest

/-- R605 checks 2 to 5, in order: the first that fails. -/
def precheck (i : Instr) (s : State) : Option ErrCode :=
  if !configOk i s then some .badConfig
  else if !readyOk i s then some .notReady
  else if !rangesOk i s then some .busError
  else if !disjointOk (regions i s) then some .regionOverlap
  else none

/-- R605: a command's own rule runs when the pre-checks pass; otherwise the first failing check's error is raised and
nothing else changes. -/
def runChecked (i : Instr) (body : State → State) (s : State) : State :=
  match precheck i s with
  | some e => s.raiseError e
  | none => body s

/-! ## An error after the pre-checks (R613) -/

/-- R613 (c), R112, R113, R116, R119: the result registers the command writes become 0. -/
def clearResults (i : Instr) (s : State) : State :=
  match i with
  | .hufEncode | .hufDecode | .hufDecompress => s.setDst 0 0
  | .hufCompress => (s.setDst 0 0).setMetaOut 0
  | .hufMetaEmit => s.setMetaOut 0
  | .lzwEncode | .lzwDecode => (s.setDst 0 0).setDictSize 0
  | .hufFreq | .hufBuild | .hufCodegen | .hufMetaParse => s

/-- R613 (a): every byte of these regions takes an unspecified value. -/
def scrambleRegions : List Region → State → State
  | [], s => s
  | r :: rest, s => scrambleRegions rest (s.scramble r.addr r.len)

/-- R610, R613: the command stops with an error after its pre-checks. -/
def failCommand (i : Instr) (e : ErrCode) (s : State) : State :=
  (scrambleRegions (writeRegions i s) (clearResults i s)).raiseError e

/-- R700, R702, U2: a reset that cuts a command off leaves every byte of its write regions unspecified, every byte that
exists where a region runs past the end of data memory (R200; assumption 9). -/
def scrambleCutOff (i : Instr) (s : State) : State :=
  scrambleRegions ((writeRegions i s).map fun r => r.clip s.memSize) s

end Sys2Proof.Machine
end

