-- ==== Sys2Proof/Machine/Flags.lean ====
section
/-! DEFINITION. Sys2Proof/Machine/Flags.lean: the STATUS word with its flags and error code (10_state.md R104, R175;
60_exceptions.md R601), the interrupt output (R170, R620) and the code-table readout words (R121, R122). -/

namespace Sys2Proof.Machine

/-- R601: the number ERRCODE shows for each error. -/
def ErrCode.number : ErrCode → Nat
  | .none => 0x00
  | .illegalCmd => 0x01
  | .badConfig => 0x02
  | .notReady => 0x03
  | .busError => 0x04
  | .regionOverlap => 0x05
  | .outputOverflow => 0x06
  | .corruptResidual => 0x07
  | .corruptLzwCode => 0x08
  | .corruptLzwLength => 0x09
  | .metadataMalformed => 0x0A
  | .symbolNotInTable => 0x0B
  | .streamTruncated => 0x0C

/-- R130: STATUS.BUSY. -/
def State.busy (s : State) : Bool := s.engine == .busy

/-- R104: the STATUS word; bits 7:4 and 31:18 read zero. -/
def State.statusWord (s : State) : Word :=
  BitVec.ofNat 32 (s.busy.toNat + 2 * s.done.toNat + 4 * s.error.toNat + 8 * s.dictOvf.toNat + 256 * s.errCode.number
    + 65536 * s.treeValid.toNat + 131072 * s.codeValid.toNat)

/-- R103: the CTRL word; SOFT_RESET reads 0. -/
def State.ctrlWord (s : State) : Word := BitVec.ofNat 32 s.irqEn.toNat

/-- R170, R620: the interrupt output, a level. -/
def State.irq (s : State) : Bool := s.irqEn && (s.done || s.error)

/-- R121, R122: the selected codeword, the empty string when absent. -/
def State.selectedCode (s : State) : Bits := (s.code.lookup s.codeSel).getD []

/-- R121: CODE_LEN. -/
def State.codeLenWord (s : State) : Word := BitVec.ofNat 32 s.selectedCode.length

/-- R122: CODE_BITSj; codeword bit `32j + i` is bit `31 - i`, and bits after the codeword's last are 0. -/
def State.codeBitsWord (s : State) (j : Nat) : Word :=
  BitVec.ofNat 32 (bitsToNat (padTo 32 (s.selectedCode.drop (32 * j))))

end Sys2Proof.Machine
end

