-- ==== Sys2Proof/Machine/HuffmanTable.lean ====
section
/-! DEFINITION. Sys2Proof/Machine/HuffmanTable.lean: the Huffman table family (41_huffman_tree.md): HUF_FREQ,
HUF_BUILD, HUF_CODEGEN. -/

namespace Sys2Proof.Machine

/-! ## Frequency aggregator -/

/-- R401: `freqOf(S)`. A count never exceeds SRC_LEN, so it fits 32 bits. -/
def freqOf (bytes : List Byte) : Table Word := Table.tabulate fun s => BitVec.ofNat 32 (bytes.count s)

/-! ## Prefix-tree builder -/

/-- R145: a node's frequency. -/
def Node.freq : Node → BitVec 40
  | .leaf _ f _ => f
  | .internal f _ _ _ => f

/-- R405: a node's key. -/
def Node.key : Node → BitVec 9
  | .leaf _ _ k => k
  | .internal _ _ _ k => k

/-- R405: the order of nodes, by (freq, key) lexicographically. -/
def nodeBefore (p q : Node) : Bool :=
  p.freq.toNat < q.freq.toNat || (p.freq.toNat == q.freq.toNat && p.key.toNat < q.key.toNat)

/-- R405 on arena indices. -/
def indexBefore (nodes : List Node) (i j : Nat) : Bool :=
  match nodes[i]?, nodes[j]? with
  | some p, some q => nodeBefore p q
  | _, _ => false

/-- R406: the node of `live` that is least in the order of R405. -/
def leastLive (nodes : List Node) : List Nat → Option Nat
  | [] => none
  | i :: rest =>
    match leastLive nodes rest with
    | none => some i
    | some j => if indexBefore nodes j i then some j else some i

/-- R406: remove the least node from `live`. -/
def takeLeast (nodes : List Node) (live : List Nat) : Option (Nat × List Nat) :=
  match leastLive nodes live with
  | none => none
  | some i => some (i, live.erase i)

/-- R145: the frequency of the node at an index. -/
def freqAt (nodes : List Node) (i : Nat) : BitVec 40 :=
  match nodes[i]? with
  | some p => p.freq
  | none => 0

/-- R406: the k-th internal node, over the two removed nodes; the first removed is the left child. -/
def mergedNode (nodes : List Node) (a b k : Nat) : Node :=
  .internal (freqAt nodes a + freqAt nodes b) a b (BitVec.ofNat 9 (256 + k))

/-- R406: the loop, `k` the number of internal nodes made so far. `fuel` bounds the rounds; each round takes one node
from `live`. -/
def mergeLoop : Nat → Nat → List Node → List Nat → List Node × List Nat
  | 0, _, nodes, live => (nodes, live)
  | fuel + 1, k, nodes, live =>
    match takeLeast nodes live with
    | none => (nodes, live)
    | some (a, live₁) =>
      match takeLeast nodes live₁ with
      | none => (nodes, live)
      | some (b, live₂) => mergeLoop fuel (k + 1) (nodes ++ [mergedNode nodes a b k]) (live₂ ++ [nodes.length])

/-- R406: the leaf of a frequency-table entry. -/
def leafOf (e : Byte × Word) : Node := .leaf e.1 (e.2.setWidth 40) (e.1.setWidth 9)

/-- R406: the leaves, in ascending symbol order. -/
def leavesOf (f : Table Word) : List Node := (presentEntries f).map leafOf

/-- R406, R407: `buildTree(F)`. -/
def buildTree (f : Table Word) : Tree :=
  let leaves := leavesOf f
  let (nodes, live) := mergeLoop leaves.length 0 leaves (List.range leaves.length)
  { nodes := nodes, root := live.head? }

/-! ## Codeword-table generator -/

/-- R420: the symbols of the leaves below a node with the edges to each, 0 for left and 1 for right, first step first.
`path` leads to the node; `fuel` bounds the depth. -/
def leafPaths (nodes : List Node) : Nat → Nat → Bits → List (Byte × Codeword)
  | 0, _, _ => []
  | fuel + 1, i, path =>
    match nodes[i]? with
    | none => []
    | some (.leaf s _ _) => [(s, path)]
    | some (.internal _ l r _) =>
      leafPaths nodes fuel l (path ++ [false]) ++ leafPaths nodes fuel r (path ++ [true])

/-- R420: the code table of a tree whose root is an internal node. -/
def codesFromPaths (paths : List (Byte × Codeword)) : Table (Option Codeword) :=
  Table.tabulate fun s => paths.lookup s

/-- R420, R421: `deriveCodes(TREE)`. -/
def deriveCodes (t : Tree) : Table (Option Codeword) :=
  match t.root with
  | none => Vector.replicate 256 none
  | some r =>
    match t.nodes[r]? with
    | some (.leaf s _ _) => Table.update (Vector.replicate 256 none) s (some [false])
    | _ => codesFromPaths (leafPaths t.nodes t.nodes.length r [])

/-! ## The commands -/

/-- R402, after the pre-checks. -/
def hufFreqBody (s : State) : State := (s.setFreq (freqOf (srcBytes s))).complete

/-- R402: HUF_FREQ. -/
def execHufFreq (s : State) : Host.Outcome State Fault Refusal := .next (runChecked .hufFreq hufFreqBody s)

/-- R412: the builder's effect, without its `complete()`. -/
def buildStage (s : State) : State := s.clearCode.setTree (buildTree s.freq)

/-- R412, after the pre-checks. -/
def hufBuildBody (s : State) : State := (buildStage s).complete

/-- R412: HUF_BUILD. -/
def execHufBuild (s : State) : Host.Outcome State Fault Refusal := .next (runChecked .hufBuild hufBuildBody s)

/-- R422: the generator's effect, without its `complete()`. -/
def codegenStage (s : State) : State := s.setCode (deriveCodes s.tree)

/-- R422, after the pre-checks. -/
def hufCodegenBody (s : State) : State := (codegenStage s).complete

/-- R422: HUF_CODEGEN. -/
def execHufCodegen (s : State) : Host.Outcome State Fault Refusal := .next (runChecked .hufCodegen hufCodegenBody s)

end Sys2Proof.Machine
end

