-- ==== Sys2Proof/Machine/HuffmanStream.lean ====
section
/-! DEFINITION. Sys2Proof/Machine/HuffmanStream.lean: the Huffman stream family (42_huffman_stream.md): HUF_ENCODE,
HUF_DECODE, HUF_META_EMIT, HUF_META_PARSE, HUF_COMPRESS, HUF_DECOMPRESS. -/

namespace Sys2Proof.Machine

/-! ## Serializer -/

/-- R451: `encodeBits(S, CODE)`, defined when every byte has a codeword. -/
def encodeBits (code : Table (Option Codeword)) : List Byte → Option Bits
  | [] => some []
  | b :: rest =>
    match code.lookup b, encodeBits code rest with
    | some c, some bits => some (c ++ bits)
    | _, _ => none

/-- R452, R480, R520: a stream of `n` bits is longer than 2^32 - 1 bits or needs more than `cap` bytes. -/
def streamTooLong (n cap : Nat) : Bool := n > Config.maxStreamBits || ceil8 n > cap

/-- R452: the encoder's loop; `bits` is what it has gathered. -/
def encodeLoop (code : Table (Option Codeword)) (cap : Nat) : List Byte → Bits → Except ErrCode Bits
  | [], bits => .ok bits
  | b :: rest, bits =>
    match code.lookup b with
    | none => .error .symbolNotInTable
    | some c =>
      if streamTooLong (bits ++ c).length cap then .error .outputOverflow
      else encodeLoop code cap rest (bits ++ c)

/-- R452, R480: the successful end of the serializer: the packed stream in DST, its length in HBITS. -/
def storeStream (bits : Bits) (s : State) : State := (s.store s.dstAddr (packBits bits)).setHbits bits.length

/-- R452, after the pre-checks. -/
def hufEncodeBody (s : State) : State :=
  match encodeLoop s.code s.dstCap.toNat (srcBytes s) [] with
  | .error e => failCommand .hufEncode e s
  | .ok bits => ((storeStream bits s).setDst (ceil8 bits.length) bits.length).complete

/-- R452: HUF_ENCODE. -/
def execHufEncode (s : State) : Host.Outcome State Fault Refusal := .next (runChecked .hufEncode hufEncodeBody s)

/-! ## Deserializer -/

/-- R455: the symbol whose codeword is `buf`. -/
def symbolOf (code : Table (Option Codeword)) (buf : Bits) : Option Byte :=
  ((Table.entries code).find? fun e => e.2 == some buf).map (·.1)

/-- R455, R460: the decoder's loop over the bits still to read, with its buffer and output so far. -/
def decodeLoop (code : Table (Option Codeword)) (cap : Nat) : Bits → Bits → List Byte → Except ErrCode (List Byte)
  | [], buf, out => if buf = [] then .ok out else .error .corruptResidual
  | b :: rest, buf, out =>
    match symbolOf code (buf ++ [b]) with
    | none => decodeLoop code cap rest (buf ++ [b]) out
    | some s =>
      if out.length + 1 > cap then .error .outputOverflow
      else decodeLoop code cap rest [] (out ++ [s])

/-- R460, R482: the deserializer's effect on `n` bits of SRC, for command `i`. -/
def decodeStage (i : Instr) (n : Nat) (s : State) : State :=
  match decodeLoop s.code s.dstCap.toNat (s.mem.readBits s.srcAddr.toNat n) [] [] with
  | .error e => failCommand i e s
  | .ok out => ((s.store s.dstAddr out).setDst out.length 0).complete

/-- R460, after the pre-checks. -/
def hufDecodeBody (s : State) : State := decodeStage .hufDecode s.srcLen.toNat s

/-- R460: HUF_DECODE. -/
def execHufDecode (s : State) : Host.Outcome State Fault Refusal := .next (runChecked .hufDecode hufDecodeBody s)

/-! ## The metadata blob -/

/-- G4: the byte '|'. -/
def barByte : Byte := 0x7C

/-- G4: the byte '~'. -/
def tildeByte : Byte := 0x7E

/-- G2: the ASCII digit of a number 0..9. -/
def digitByte (d : Nat) : Byte := BitVec.ofNat 8 (0x30 + d)

/-- The decimal digits of `n`, most significant first; `fuel` exceeds the number of digits. -/
def decimalDigits : Nat → Nat → List Byte
  | 0, _ => []
  | fuel + 1, n => if n < 10 then [digitByte n] else decimalDigits fuel (n / 10) ++ [digitByte (n % 10)]

/-- R11: `dec(n)`. -/
def dec (n : Nat) : List Byte := decimalDigits (n + 1) n

/-- R465: one record: a byte, a decimal number, '|'. -/
def record (c : Byte) (n : Nat) : List Byte := c :: (dec n ++ [barByte])

/-- R466: `emitBlob(F, L)`. -/
def emitBlob (f : Table Word) (len : Nat) : List Byte :=
  (presentEntries f).flatMap (fun e => record e.1 e.2.toNat) ++ record tildeByte len

/-- R467: a digit byte. -/
def isDigit (b : Byte) : Bool := 0x30 ≤ b.toNat && b.toNat ≤ 0x39

/-- R467: the decimal value of a digit string. -/
def decimalValue (ds : List Byte) : Nat := ds.foldl (fun n d => 10 * n + (d.toNat - 0x30)) 0

/-- R467, R468: the number of a record from its digit bytes, when they are a canonical decimal of at most 2^32 - 1. -/
def recordNumber (ds : List Byte) : Option Nat :=
  if ds = [] then none
  else if ds.length > 1 && ds.head? == some 0x30 then none
  else if decimalValue ds > 4294967295 then none
  else some (decimalValue ds)

/-- R467: the parser's loop over the bytes still to read; every round takes at least one byte, which `fuel` bounds. -/
def parseLoop : Nat → List Byte → Table Word → Option (Table Word × Nat)
  | 0, _, _ => none
  | _ + 1, [], _ => none
  | fuel + 1, c :: rest, f =>
    match recordNumber (rest.takeWhile isDigit), rest.dropWhile isDigit with
    | some v, e :: rest' =>
      if e ≠ barByte then none
      else if rest' = [] then (if c = tildeByte then some (f, v) else none)
      else if v = 0 ∨ f.lookup c ≠ 0 then none
      else parseLoop fuel rest' (f.update c (BitVec.ofNat 32 v))
    | _, _ => none

/-- R467: `parseBlob(T)`; `none` is malformed. -/
def parseBlob (t : List Byte) : Option (Table Word × Nat) := parseLoop t.length t (Vector.replicate 256 0)

/-- R470, after the pre-checks. -/
def hufMetaEmitBody (s : State) : State :=
  let blob := emitBlob s.freq s.hbits.toNat
  if blob.length > s.metaLen.toNat then failCommand .hufMetaEmit .outputOverflow s
  else ((s.store s.metaAddr blob).setMetaOut blob.length).complete

/-- R470: HUF_META_EMIT. -/
def execHufMetaEmit (s : State) : Host.Outcome State Fault Refusal := .next (runChecked .hufMetaEmit hufMetaEmitBody s)

/-- R475: FREQ, NSYM and HBITS take the parsed table and length. -/
def installBlob (f : Table Word) (len : Nat) (s : State) : State := (s.setFreq f).setHbits len

/-- R475: what a malformed blob leaves before its error is raised. -/
def installNothing (s : State) : State := installBlob (Vector.replicate 256 0) 0 s

/-- R475, after the pre-checks. -/
def hufMetaParseBody (s : State) : State :=
  match parseBlob (metaBytes s) with
  | none => failCommand .hufMetaParse .metadataMalformed (installNothing s)
  | some (f, len) => (installBlob f len s).complete

/-- R475: HUF_META_PARSE. -/
def execHufMetaParse (s : State) : Host.Outcome State Fault Refusal :=
  .next (runChecked .hufMetaParse hufMetaParseBody s)

/-! ## Composite commands -/

/-- R480 phase 5: the blob, after the stream of `n` bits is written. -/
def compressBlobStage (n : Nat) (s : State) : State :=
  let blob := emitBlob s.freq n
  if blob.length > s.metaLen.toNat then failCommand .hufCompress .outputOverflow s
  else (((s.store s.metaAddr blob).setDst (ceil8 n) n).setMetaOut blob.length).complete

/-- R480 phases 4 and 5, once the tables are those of `bytes`. A byte without a codeword cannot occur (R481); the
branch answers as R452 does. -/
def compressStreamStage (bytes : List Byte) (s : State) : State :=
  match encodeBits s.code bytes with
  | none => failCommand .hufCompress .symbolNotInTable s
  | some bits =>
    if streamTooLong bits.length s.dstCap.toNat then failCommand .hufCompress .outputOverflow s
    else compressBlobStage bits.length (storeStream bits s)

/-- R480, after the pre-checks. -/
def hufCompressBody (s : State) : State :=
  compressStreamStage (srcBytes s) (codegenStage (buildStage (s.setFreq (freqOf (srcBytes s)))))

/-- R480: HUF_COMPRESS. -/
def execHufCompress (s : State) : Host.Outcome State Fault Refusal := .next (runChecked .hufCompress hufCompressBody s)

/-- R482 phases 2 to 5, once the blob's table and length `len` are installed. -/
def decompressStage (len : Nat) (s : State) : State :=
  if len > 8 * s.srcLen.toNat then failCommand .hufDecompress .streamTruncated s
  else decodeStage .hufDecompress len (codegenStage (buildStage s))

/-- R482, after the pre-checks. -/
def hufDecompressBody (s : State) : State :=
  match parseBlob (metaBytes s) with
  | none => failCommand .hufDecompress .metadataMalformed (installNothing s)
  | some (f, len) => decompressStage len (installBlob f len s)

/-- R482: HUF_DECOMPRESS. -/
def execHufDecompress (s : State) : Host.Outcome State Fault Refusal :=
  .next (runChecked .hufDecompress hufDecompressBody s)

end Sys2Proof.Machine
end

