-- ==== Sys2Proof/Machine/Lzw.lean ====
section
/-! DEFINITION. Sys2Proof/Machine/Lzw.lean: the LZW family (43_lzw.md): the dictionary automaton, LZW_ENCODE and
LZW_DECODE. A dictionary lives only inside one command (R160), so it is a value the meanings compute with. -/

namespace Sys2Proof.Machine

/-- R160: the dictionary, a sequence of fragments. -/
abbrev Dict := List (List Byte)

/-- R500: the seed, the 256 one-byte fragments. -/
def seedDict : Dict := allSymbols.map fun s => [s]

/-- R501: an insertion appends while there is room, and is refused at capacity. -/
def insertFragment (cap : Nat) (d : Dict) (f : List Byte) : Dict := if d.length < cap then d ++ [f] else d

/-! ## Code-sequence generator -/

/-- R520: how the encoder's loop ends. `ovf` is DICT_OVF as the pseudocode leaves it, also at a raise. -/
structure LzwEncoded where
  ovf : Bool
  result : Except ErrCode (Bits × Dict)

/-- R520 `emit`: the code of fragment `w` appended to the stream, when the stream still fits. -/
def emitCode (width dstCap : Nat) (d : Dict) (w : List Byte) (bits : Bits) : Except ErrCode Bits :=
  let bits' := bits ++ natToBits width (d.idxOf w)
  if streamTooLong bits'.length dstCap then .error .outputOverflow else .ok bits'

/-- R520: the encoder's loop over the bytes still to read, with dictionary `d`, match buffer `w`, stream `bits` and the
overflow notice `ovf`. -/
def lzwEncodeLoop (width dstCap : Nat) : List Byte → Dict → List Byte → Bits → Bool → LzwEncoded
  | [], d, w, bits, ovf =>
    if w = [] then { ovf := ovf, result := .ok (bits, d) }
    else
      match emitCode width dstCap d w bits with
      | .error e => { ovf := ovf, result := .error e }
      | .ok bits' => { ovf := ovf, result := .ok (bits', d) }
  | c :: rest, d, w, bits, ovf =>
    if w ++ [c] ∈ d then lzwEncodeLoop width dstCap rest d (w ++ [c]) bits ovf
    else
      match emitCode width dstCap d w bits with
      | .error e => { ovf := ovf, result := .error e }
      | .ok bits' =>
        lzwEncodeLoop width dstCap rest (insertFragment (2 ^ width) d (w ++ [c])) [c] bits'
          (ovf || !(d.length < 2 ^ width))

/-- R522: DICT_OVF is set when the encoder refused an insertion, and otherwise keeps its value. -/
def State.noteOverflow (s : State) (ovf : Bool) : State := { s with dictOvf := s.dictOvf || ovf }

/-- R520, after the pre-checks. -/
def lzwEncodeBody (s : State) : State :=
  let run := lzwEncodeLoop s.codeWidth.toNat s.dstCap.toNat (srcBytes s) seedDict [] [] false
  match run.result with
  | .error e => failCommand .lzwEncode e (s.noteOverflow run.ovf)
  | .ok (bits, d) =>
    ((((s.noteOverflow run.ovf).store s.dstAddr (packBits bits)).setDst (ceil8 bits.length) bits.length).setDictSize
      d.length).complete

/-- R520: LZW_ENCODE. -/
def execLzwEncode (s : State) : Host.Outcome State Fault Refusal := .next (runChecked .lzwEncode lzwEncodeBody s)

/-! ## Pattern expander -/

/-- R530: the first `m` codes of a bit string, `width` bits each, most significant bit first. -/
def splitCodes (width : Nat) : Nat → Bits → List Nat
  | 0, _ => []
  | m + 1, b => bitsToNat (b.take width) :: splitCodes width m (b.drop width)

/-- R531: the bits after the last whole code are padding: at most 7, all 0. -/
def leftoverOk (width : Nat) (b : Bits) : Bool :=
  let left := b.drop (b.length / width * width)
  left.length ≤ 7 && left.all (· == false)

/-- R530 `put`: append a fragment's bytes while they fit. -/
def putBytes (cap : Nat) : List Byte → List Byte → Except ErrCode (List Byte)
  | [], out => .ok out
  | v :: rest, out => if out.length + 1 > cap then .error .outputOverflow else putBytes cap rest (out ++ [v])

/-- R530, R532: the fragment a later code `k` stands for, `prev` being the one before. -/
def fragmentOf (d : Dict) (prev : List Byte) (k : Nat) : Except ErrCode (List Byte) :=
  match d[k]? with
  | some f => .ok f
  | none => if k = d.length then .ok (prev ++ prev.take 1) else .error .corruptLzwCode

/-- R530: the decoder's loop over the later codes. -/
def lzwDecodeLoop (width cap : Nat) : List Nat → Dict → List Byte → List Byte → Except ErrCode (List Byte × Dict)
  | [], d, _, out => .ok (out, d)
  | k :: rest, d, prev, out =>
    match fragmentOf d prev k with
    | .error e => .error e
    | .ok cur =>
      match putBytes cap cur out with
      | .error e => .error e
      | .ok out' => lzwDecodeLoop width cap rest (insertFragment (2 ^ width) d (prev ++ cur.take 1)) cur out'

/-- R530, R532: decoding a code sequence from the seed. -/
def lzwDecodeCodes (width cap : Nat) (codes : List Nat) : Except ErrCode (List Byte × Dict) :=
  match codes with
  | [] => .ok ([], seedDict)
  | k :: rest =>
    if k ≥ 256 then .error .corruptLzwCode
    else
      match seedDict[k]? with
      | none => .error .corruptLzwCode
      | some f =>
        match putBytes cap f [] with
        | .error e => .error e
        | .ok out => lzwDecodeLoop width cap rest seedDict f out

/-- R530, R531: decoding a bit string. -/
def lzwDecodeBits (width cap : Nat) (b : Bits) : Except ErrCode (List Byte × Dict) :=
  if leftoverOk width b then lzwDecodeCodes width cap (splitCodes width (b.length / width) b)
  else .error .corruptLzwLength

/-- R530, after the pre-checks. -/
def lzwDecodeBody (s : State) : State :=
  match lzwDecodeBits s.codeWidth.toNat s.dstCap.toNat (s.mem.readBits s.srcAddr.toNat s.srcLen.toNat) with
  | .error e => failCommand .lzwDecode e s
  | .ok (out, d) => (((s.store s.dstAddr out).setDst out.length 0).setDictSize d.length).complete

/-- R530: LZW_DECODE. -/
def execLzwDecode (s : State) : Host.Outcome State Fault Refusal := .next (runChecked .lzwDecode lzwDecodeBody s)

end Sys2Proof.Machine
end

