-- ==== Sys2Proof/Machine/Dispatch.lean ====
section
/-! DEFINITION. Sys2Proof/Machine/Dispatch.lean: the meaning of each command of 30_encoding.md R302. -/

namespace Sys2Proof.Machine

def exec (i : Instr) (s : State) : Host.Outcome State Fault Refusal :=
  match i with
  | .hufFreq => Sys2Proof.Machine.execHufFreq s
  | .hufBuild => Sys2Proof.Machine.execHufBuild s
  | .hufCodegen => Sys2Proof.Machine.execHufCodegen s
  | .hufEncode => Sys2Proof.Machine.execHufEncode s
  | .hufDecode => Sys2Proof.Machine.execHufDecode s
  | .hufMetaEmit => Sys2Proof.Machine.execHufMetaEmit s
  | .hufMetaParse => Sys2Proof.Machine.execHufMetaParse s
  | .hufCompress => Sys2Proof.Machine.execHufCompress s
  | .hufDecompress => Sys2Proof.Machine.execHufDecompress s
  | .lzwEncode => Sys2Proof.Machine.execLzwEncode s
  | .lzwDecode => Sys2Proof.Machine.execLzwDecode s

end Sys2Proof.Machine
end

