-- ==== Sys2Proof/WellFormed.lean ====
section
/-! DEFINITION. Sys2Proof/WellFormed.lean: what makes a command, and a command word, well formed
(30_encoding.md R300-R305). -/

namespace Sys2Proof

/-- R305: a command has no operand field that could hold an illegal value, so every command is well formed. -/
def Instr.wellFormed : Instr → Bool
  | .hufFreq | .hufBuild | .hufCodegen | .hufEncode | .hufDecode | .hufMetaEmit | .hufMetaParse | .hufCompress
  | .hufDecompress | .lzwEncode | .lzwDecode => true

/-- R300, first check on a command word: bits 31:8 (RSVD) are zero. -/
def reservedBitsZero (w : Word) : Bool := w.toNat / 256 == 0

/-- R302: the OPCODE values of the opcode map. -/
def opcodes : List Nat := [0x01, 0x02, 0x03, 0x04, 0x05, 0x06, 0x07, 0x08, 0x09, 0x10, 0x11]

/-- R301, second check on a command word: bits 7:0 are an OPCODE of R302. -/
def opcodeListed (w : Word) : Bool := opcodes.contains (w.toNat % 256)

/-- R301, R303: a command word is legal when both checks pass. -/
def wordWellFormed (w : Word) : Bool := reservedBitsZero w && opcodeListed w

end Sys2Proof
end

