-- ==== Sys2Proof/Decode.lean ====
section
/-! DEFINITION. Sys2Proof/Decode.lean: the command word's decoder and encoder (30_encoding.md R300-R304).
Decoding is total on the 2^32 words and rejects by name. -/

namespace Sys2Proof

/-- Why a command word is illegal (R301, R303). Either reason is reported by the core as ILLEGAL_CMD. -/
inductive DecodeError where
  /-- RSVD (bits 31:8) is not zero. -/
  | reservedBitsSet
  /-- OPCODE (bits 7:0) is not in the opcode map. -/
  | unknownOpcode
  deriving DecidableEq, Repr

/-- R300: the OPCODE field, bits 7:0. -/
def opcodeField (w : Word) : Nat := w.toNat % 256

/-- R300: the RSVD field, bits 31:8. -/
def reservedField (w : Word) : Nat := w.toNat / 256

/-- R302: the opcode map. -/
def ofOpcode (op : Nat) : Except DecodeError Instr :=
  match op with
  | 0x01 => .ok .hufFreq
  | 0x02 => .ok .hufBuild
  | 0x03 => .ok .hufCodegen
  | 0x04 => .ok .hufEncode
  | 0x05 => .ok .hufDecode
  | 0x06 => .ok .hufMetaEmit
  | 0x07 => .ok .hufMetaParse
  | 0x08 => .ok .hufCompress
  | 0x09 => .ok .hufDecompress
  | 0x10 => .ok .lzwEncode
  | 0x11 => .ok .lzwDecode
  | _ => .error .unknownOpcode

/-- R301: decoding a command word. -/
def decode (w : Word) : Except DecodeError Instr :=
  if reservedField w = 0 then ofOpcode (opcodeField w) else .error .reservedBitsSet

/-- R302, the "word" column: the command word of a command. -/
def encode (i : Instr) : Word :=
  match i with
  | .hufFreq => 0x00000001#32
  | .hufBuild => 0x00000002#32
  | .hufCodegen => 0x00000003#32
  | .hufEncode => 0x00000004#32
  | .hufDecode => 0x00000005#32
  | .hufMetaEmit => 0x00000006#32
  | .hufMetaParse => 0x00000007#32
  | .hufCompress => 0x00000008#32
  | .hufDecompress => 0x00000009#32
  | .lzwEncode => 0x00000010#32
  | .lzwDecode => 0x00000011#32

/-- The command word the low `nbits` bits of `w` stand for, the bits above them zero (R304: a command word is
always 32 bits). -/
def tableWord (nbits w : Nat) : Word := BitVec.ofNat 32 (w % 2 ^ nbits)

/-- The host's question about one opcode-table row: the command the decoder reads from the word whose low `nbits`
bits are those of `w`. A number that does not fit 32 bits is no command word (R304). -/
def decodeTableWord (nbits w : Nat) : Option Instr :=
  if w % 2 ^ nbits < 2 ^ 32 then
    match decode (tableWord nbits w) with
    | .ok i => some i
    | .error _ => none
  else none

end Sys2Proof
end

