-- ==== Sys2Proof/Machine/HostPort.lean ====
section
/-! DEFINITION. Sys2Proof/Machine/HostPort.lean: the register window (10_state.md R101-R125), reset (70_reset_and_hazards.md
R700, R702), the host's actions (20_memory.md R230-R233) and the host-program lines (30_encoding.md R340-R342). -/

namespace Sys2Proof.Machine

/-! ## The register map (R101) -/

/-- R101: the registers of the window. -/
inductive Reg where
  | id
  | ctrl
  | status
  | cmd
  | config
  | srcAddr
  | srcLen
  | dstAddr
  | dstCap
  | dstLen
  | dstBits
  | metaAddr
  | metaLen
  | metaOutLen
  | hbits
  | nsym
  | dictSize
  | codeSel
  | codeLen
  | codeBits (j : Fin 8)
  | freq (s : Byte)
  deriving DecidableEq, Repr

/-- R101: the registers at offsets 0x000..0x068, in the map's order, one a word. -/
def lowRegs : List Reg :=
  [.id, .ctrl, .status, .cmd, .config, .srcAddr, .srcLen, .dstAddr, .dstCap, .dstLen, .dstBits, .metaAddr, .metaLen,
    .metaOutLen, .hbits, .nsym, .dictSize, .codeSel, .codeLen, .codeBits 0, .codeBits 1, .codeBits 2, .codeBits 3,
    .codeBits 4, .codeBits 5, .codeBits 6, .codeBits 7]

/-- R101: the register at a word index (offset / 4); `none` is a reserved offset (R124). -/
def regAtIndex (n : Nat) : Option Reg :=
  if 256 ≤ n ∧ n < 512 then some (.freq (BitVec.ofNat 8 (n - 256))) else lowRegs[n]?

/-- R101: the register at a byte offset of the window. -/
def regAt (off : BitVec 12) : Option Reg := regAtIndex (off.toNat / 4)

/-- R101: a register's byte offset. -/
def Reg.offset : Reg → BitVec 12
  | .id => 0x000
  | .ctrl => 0x004
  | .status => 0x008
  | .cmd => 0x00C
  | .config => 0x010
  | .srcAddr => 0x014
  | .srcLen => 0x018
  | .dstAddr => 0x01C
  | .dstCap => 0x020
  | .dstLen => 0x024
  | .dstBits => 0x028
  | .metaAddr => 0x02C
  | .metaLen => 0x030
  | .metaOutLen => 0x034
  | .hbits => 0x038
  | .nsym => 0x03C
  | .dictSize => 0x040
  | .codeSel => 0x044
  | .codeLen => 0x048
  | .codeBits j => BitVec.ofNat 12 (0x04C + 4 * j.val)
  | .freq s => BitVec.ofNat 12 (0x400 + 4 * s.toNat)

/-- R232: a register access is a 32-bit access at a multiple of 4; any other is refused. -/
def accessOk (off : BitVec 12) (bits : Nat) : Bool := bits == 32 && off.toNat % 4 == 0

/-- R102-R123: what a register reads. -/
def State.readReg (s : State) : Reg → Word
  | .id => Config.idValue
  | .ctrl => s.ctrlWord
  | .status => s.statusWord
  | .cmd => s.cmd
  | .config => s.codeWidth.setWidth 32
  | .srcAddr => s.srcAddr
  | .srcLen => s.srcLen
  | .dstAddr => s.dstAddr
  | .dstCap => s.dstCap
  | .dstLen => s.dstLen
  | .dstBits => s.dstBits
  | .metaAddr => s.metaAddr
  | .metaLen => s.metaLen
  | .metaOutLen => s.metaOutLen
  | .hbits => s.hbits
  | .nsym => s.nsym.setWidth 32
  | .dictSize => s.dictSize.setWidth 32
  | .codeSel => s.codeSel.setWidth 32
  | .codeLen => s.codeLenWord
  | .codeBits j => s.codeBitsWord j.val
  | .freq x => s.freq.lookup x

/-- R125: the registers whose read while BUSY = 1 returns the current value; a read of any other is unspecified. -/
def Reg.stableWhileBusy : Reg → Bool
  | .id | .ctrl | .status | .cmd | .config | .srcAddr | .srcLen | .dstAddr | .dstCap | .metaAddr | .metaLen
  | .codeSel => true
  | .dstLen | .dstBits | .metaOutLen | .hbits | .nsym | .dictSize | .codeLen | .codeBits _ | .freq _ => false

/-! ## Reset (R700, R702) -/

/-- R305: the command the engine is running: the one CMD names, while BUSY = 1. -/
def State.running (s : State) : Option Instr :=
  if s.busy then
    match decode s.cmd with
    | .ok i => some i
    | .error _ => none
  else none

/-- R700, U2: the write regions of a command a reset cuts off become unspecified. -/
def State.abandon (s : State) : State :=
  match s.running with
  | some i => scrambleCutOff i s
  | none => s

/-- R700: the core's own state at its reset values; data memory, its size, the host's actions and records and the
model's counter are not the core's and stay. -/
def State.coreReset (s : State) : State :=
  { State.resetWith s.memTop with mem := s.mem, inputs := s.inputs, recorded := s.recorded, draws := s.draws }

/-- R700, R702: hardware or soft reset. -/
def State.applyReset (s : State) : State := s.abandon.coreReset

/-! ## Register accesses -/

/-- R103, R702: a CTRL write, whether or not a command is running. -/
def State.writeCtrl (s : State) (v : Word) : State :=
  if v.getLsbD 1 then s.applyReset else { s with irqEn := v.getLsbD 0 }

/-- R102-R123: a register write that is not ignored. Reserved fields and read-only registers ignore it. -/
def State.writeReg (s : State) (r : Reg) (v : Word) : State :=
  match r with
  | .id => s
  | .ctrl => s.writeCtrl v
  | .status => s.acknowledge v
  | .cmd => s.issue v
  | .config => { s with codeWidth := v.setWidth 5 }
  | .srcAddr => { s with srcAddr := v }
  | .srcLen => { s with srcLen := v }
  | .dstAddr => { s with dstAddr := v }
  | .dstCap => { s with dstCap := v }
  | .dstLen => s
  | .dstBits => s
  | .metaAddr => { s with metaAddr := v }
  | .metaLen => { s with metaLen := v }
  | .metaOutLen => s
  | .hbits => { s with hbits := v }
  | .nsym => s
  | .dictSize => s
  | .codeSel => { s with codeSel := v.setWidth 8 }
  | .codeLen => s
  | .codeBits _ => s
  | .freq x => s.setFreq (s.freq.update x v)

/-- R340: the host records what a read returned. -/
def State.record (s : State) (o : Observation) : State := { s with recorded := s.recorded ++ [o] }

/-- R101, R124, R125, R232: a host write of the register window. -/
def State.hostWrite (s : State) (off : BitVec 12) (bits : Nat) (v : Word) : State :=
  if !accessOk off bits then s.record .errorResponse
  else
    match regAt off with
    | none => s
    | some r => if s.busy && r != .ctrl then s else s.writeReg r v

/-- U3: an unspecified word, and the counter past it. -/
def State.recordFreeWord (s : State) : State :=
  { s.record (.word (Config.freeWord s.draws)) with draws := s.draws + 1 }

/-- R101, R124, R125, R232: a host read of the register window. -/
def State.hostRead (s : State) (off : BitVec 12) (bits : Nat) : State :=
  if !accessOk off bits then s.record .errorResponse
  else
    match regAt off with
    | none => s.record (.word 0)
    | some r => if s.busy && !r.stableWhileBusy then s.recordFreeWord else s.record (.word (s.readReg r))

/-! ## Data-memory accesses of the host (R200, R231) -/

/-- The regions of the running command. -/
def runningRegions (s : State) : List Region :=
  match s.running with
  | some i => regions i s
  | none => []

/-- R200, R231 (a): the host writes a data-memory byte. -/
def hostPoke (a : Nat) (v : Byte) (s : State) : Host.Outcome State Fault Refusal :=
  if a ≥ s.memSize then .fault (.hostAddressOutsideMemory a)
  else if (runningRegions s).any (fun r => r.holds a) then .refused (.hostWritesRunningRegion a)
  else .next { s with mem := s.mem.write a v }

/-- R200, R231 (b), U4: the host reads a data-memory byte; one in a write region of the running command reads
unspecified. -/
def hostPeek (a : Nat) (s : State) : Host.Outcome State Fault Refusal :=
  if a ≥ s.memSize then .fault (.hostAddressOutsideMemory a)
  else if (runningRegions s).any (fun r => r.isWrite && r.holds a) then
    .next { s.record (.byte (Config.freeByte s.draws)) with draws := s.draws + 1 }
  else .next (s.record (.byte (s.mem.read a)))

/-! ## The host's turn -/

/-- R341: one poll of STATUS, its value recorded; the actions after it are `rest`. -/
def State.poll (s : State) (rest : List Input) : State :=
  { s.record (.word s.statusWord) with inputs := rest }

/-- R230, R341, R700: the host or the platform takes its next action. A host with none waits (R703). -/
def hostTurn (s : State) : Host.Outcome State Fault Refusal :=
  match s.inputs with
  | [] => .next s
  | inp :: rest =>
    match inp.action with
    | .write off bits v => .next (State.hostWrite { s with inputs := rest } off bits v)
    | .read off bits => .next (State.hostRead { s with inputs := rest } off bits)
    | .poke a v => hostPoke a v { s with inputs := rest }
    | .peek a => hostPeek a { s with inputs := rest }
    | .wait polls => .next (s.poll (if s.busy then { inp with action := .wait (polls - 1) } :: rest else rest))
    | .waitIrq => if s.irq then .next (s.poll rest) else .next s
    | .hardReset => .next (State.applyReset { s with inputs := rest })

/-- R730, R731: whether the host's next action lands before the running command completes. -/
def hostMovesFirst (s : State) : Bool :=
  match s.inputs with
  | [] => false
  | inp :: _ =>
    match inp.action with
    | .wait polls => polls != 0
    | .waitIrq => false
    | .write _ _ _ | .read _ _ | .poke _ _ | .peek _ | .hardReset => inp.early

/-- R731: the engine has the next step. -/
def engineMoves (s : State) : Bool := s.busy && !hostMovesFirst s

/-- The host's next action, put off until the running command has completed. -/
def Input.later (inp : Input) : Input :=
  match inp.action with
  | .wait _ => { early := false, action := .wait 0 }
  | .write _ _ _ | .read _ _ | .poke _ _ | .peek _ | .waitIrq | .hardReset => { inp with early := false }

/-- The host's actions, the next one put off until the running command has completed. -/
def deferHost (inputs : List Input) : List Input :=
  match inputs with
  | [] => []
  | inp :: rest => inp.later :: rest

/-! ## Host-program lines (R340-R342), each action after any running command -/

/-- One action, once no command runs. -/
def line (a : Action) : Input := { early := false, action := a }

/-- `wr NAME, v`. -/
def wrLine (r : Reg) (v : Word) : List Input := [line (.write r.offset 32 v)]

/-- `rd NAME`. -/
def rdLine (r : Reg) : List Input := [line (.read r.offset 32)]

/-- `poke a, ...`: the bytes at a, a + 1, ... DESIGN CHOICE, the spec is silent: `a + i` does not wrap, so one at or
above MEM_SIZE, 2^32 and more included, faults (assumption 5). -/
def pokeLine (a : Nat) (bs : List Byte) : List Input := bs.zipIdx.map fun p => line (.poke (a + p.2) p.1)

/-- `peek a, n`: the bytes at a, ..., a + n - 1. DESIGN CHOICE: no wrap, as in `pokeLine` (assumption 5). -/
def peekLine (a n : Nat) : List Input := (List.range n).map fun i => line (.peek (a + i))

/-- `wait`. -/
def waitLine : List Input := [line (.wait 0)]

/-- `run MNEMONIC`. -/
def runLine (i : Instr) : List Input := wrLine .cmd (encode i) ++ waitLine

/-- `freq s, v`. -/
def freqLine (s : Byte) (v : Word) : List Input := wrLine (.freq s) v

/-- `ack`. -/
def ackLine : List Input := wrLine .status 0x0000000E#32

end Sys2Proof.Machine
end

