-- ==== Sys2Proof/Machine/Engine.lean ====
section
/-! DEFINITION. Sys2Proof/Machine/Engine.lean: the command engine's step (30_encoding.md R301; 60_exceptions.md R600,
R605; 70_reset_and_hazards.md R731): the running command, decoded and run to completion as one atomic transition. -/

namespace Sys2Proof.Machine

/-- R301, R605 check 1: the engine decodes CMD; an illegal word stops with ILLEGAL_CMD before anything else, a command
runs by its meaning. -/
def runCommand (s : State) : Host.Outcome State Fault Refusal :=
  match decode s.cmd with
  | .error _ => .next (s.raiseError .illegalCmd)
  | .ok i => exec i s

/-- The command word `w`, issued, with the engine to move next: the state right after the host's CMD write of `w`,
the host's other actions put off until the command completes. -/
def issueNext (s : State) (w : Word) : State := { s.issue w with inputs := deferHost s.inputs }

end Sys2Proof.Machine
end

