-- ==== Sys2Proof/Machine/Step.lean ====
section
/-! DEFINITION. Sys2Proof/Machine/Step.lean: one step of the machine: the engine's, or the host's (R100, R731). -/

namespace Sys2Proof.Machine

/-- One step. While a command runs, the engine completes it unless the host's next action comes first; otherwise the
host acts. -/
def step (s : State) : Host.Outcome State Fault Refusal :=
  if engineMoves s then runCommand s else hostTurn s

/-- The core fetches no instruction (R130, R223): the next command is the word in CMD of a started engine. So the word
is issued as the host's CMD write issues it (R106, R600), and the engine moves next (assumption 4). -/
def State.withFetchWord (s : State) (nbits w : Nat) : State := issueNext s (tableWord nbits w)

end Sys2Proof.Machine
end

