-- ==== Sys2Proof/Safety.lean ====
section
/-! DEFINITION. Sys2Proof/Safety.lean: the notions claims about the machine are stated in: the invariant of every run,
what a code table, a tree and a frequency table are good for, and chaining of commands. -/

namespace Sys2Proof.Machine

/-- What holds of every state the machine reaches. -/
structure State.Inv (s : State) : Prop where
  /-- Data memory is in its canonical form. -/
  memWf : s.mem.wf = true
  /-- R200, R205: no byte outside 0..MEM_SIZE-1 is held. -/
  memInRange : s.mem.all (fun c => c.1 < s.memSize) = true
  /-- R104: at most one of DONE and ERROR is 1. -/
  oneOutcome : ¬ (s.done = true ∧ s.error = true)
  /-- R104: ERRCODE is 0x00 exactly when ERROR = 0. -/
  errCodeIff : s.errCode = .none ↔ s.error = false
  /-- R600: while a command runs, DONE, ERROR and DICT_OVF are 0. -/
  busyQuiet : s.engine = .busy → s.done = false ∧ s.error = false ∧ s.dictOvf = false
  /-- R118: NSYM is the number of byte values with a count other than 0. -/
  nsymCounts : s.nsym.toNat = (allSymbols.filter fun x => s.freq.lookup x != 0).length
  /-- R146: without TREE_VALID the tree is empty. -/
  treeEmpty : s.treeValid = false → s.tree = { nodes := [], root := none }
  /-- R155: with TREE_VALID the tree is the one built from the FREQ now held. -/
  treeBuilt : s.treeValid = true → s.tree = buildTree s.freq
  /-- R151: without CODE_VALID every entry is absent. -/
  codeAbsent : s.codeValid = false → ∀ x, s.code.lookup x = none
  /-- R155: with CODE_VALID the code table is the one derived from the tree built from the FREQ now held. -/
  codeDerived : s.codeValid = true → s.treeValid = true ∧ s.code = deriveCodes s.tree
  /-- R113: a bit length shown is that of the bytes shown. -/
  dstBitsFit : s.dstBits = 0 ∨ s.dstLen.toNat = ceil8 s.dstBits.toNat
  /-- R119, R160: DICT_SIZE is 0 or between 256 and 65536. -/
  dictSizeBounds : s.dictSize = 0 ∨ 256 ≤ s.dictSize.toNat ∧ s.dictSize.toNat ≤ 65536

/-- R425: no codeword is the beginning of another symbol's. -/
def prefixFree (code : Table (Option Codeword)) : Prop :=
  ∀ x y c d, code.lookup x = some c → code.lookup y = some d → c <+: d → x = y

/-- R426: every codeword is a bit string of length 1..255. -/
def lengthsLegal (code : Table (Option Codeword)) : Prop :=
  ∀ x c, code.lookup x = some c → 1 ≤ c.length ∧ c.length ≤ 255

/-- R118: the present symbols of a frequency table, in ascending order. -/
def presentSymbols (f : Table Word) : List Byte := allSymbols.filter fun x => f.lookup x != 0

/-- R420: the node reached from node `i` by the edges of a bit string, 0 to the left child and 1 to the right. -/
def walkTree (nodes : List Node) : Nat → Bits → Option Nat
  | i, [] => some i
  | i, b :: rest =>
    match nodes[i]? with
    | some (.internal _ l r _) => walkTree nodes (if b then r else l) rest
    | _ => none

/-- R406: node `c` is a child of node `p` in an arena. -/
def isChildOf (nodes : List Node) (c p : Nat) : Prop :=
  ∃ f l r k, nodes[p]? = some (.internal f l r k) ∧ (c = l ∨ c = r)

/-- R402: how often a byte value occurs in the `n` bytes at `a`. -/
def occurrences (m : Memory) (a n : Nat) (x : Byte) : Nat := (List.range n).countP fun i => m.read (a + i) == x

/-- R613, U1: an address the command's write regions hold. -/
def inWriteRegion (i : Instr) (s : State) (a : Nat) : Prop :=
  ∃ r ∈ regions i s, r.isWrite = true ∧ r.addr ≤ a ∧ a < r.addr + r.len

/-- R501, R520: the dictionary when fragment `j` of the parse `ws` is matched: the seed and, while there was room, each
earlier fragment extended by the first byte of the next. -/
def dictAfter (width : Nat) (ws : List (List Byte)) (j : Nat) : Dict :=
  seedDict ++ (List.range (min j (2 ^ width - 256))).map fun i => ws.getD i [] ++ (ws.getD (i + 1) []).take 1

/-- One outcome after another: the second command runs on the state the first leaves. -/
def andThen (o : Host.Outcome State Fault Refusal) (k : State → Host.Outcome State Fault Refusal) :
    Host.Outcome State Fault Refusal :=
  match o with
  | .next t => k t
  | .fault f => .fault f
  | .refused r => .refused r

end Sys2Proof.Machine
end

