-- ==== Sys2Proof/Certificates/Slice0/Obligations.lean ====
section
/-! DEFINITION. Sys2Proof/Certificates/Slice0/Obligations.lean: the statements for the provers, from the numbered rules
of spec/. -/

open Sys2Proof Sys2Proof.Machine

/-! ## Decoding, stepping and the command's life -/

/-- R302: the word of each mnemonic decodes to its command; some reserved words do not decode. -/
def Obligations.OpcodeMapWordsDecode : Prop :=
  decode 0x00000001#32 = .ok .hufFreq ∧ decode 0x00000002#32 = .ok .hufBuild ∧
  decode 0x00000003#32 = .ok .hufCodegen ∧ decode 0x00000004#32 = .ok .hufEncode ∧
  decode 0x00000005#32 = .ok .hufDecode ∧ decode 0x00000006#32 = .ok .hufMetaEmit ∧
  decode 0x00000007#32 = .ok .hufMetaParse ∧ decode 0x00000008#32 = .ok .hufCompress ∧
  decode 0x00000009#32 = .ok .hufDecompress ∧ decode 0x00000010#32 = .ok .lzwEncode ∧
  decode 0x00000011#32 = .ok .lzwDecode ∧ decode 0x00000000#32 = .error .unknownOpcode ∧
  decode 0x0000000A#32 = .error .unknownOpcode ∧ decode 0x00000110#32 = .error .reservedBitsSet

/-- R301, R302, R304: each word decodes to the one command whose word it is, and a word is rejected exactly when RSVD is
not zero or OPCODE is not in the map. -/
def Obligations.DecodeAndEncodeAgree : Prop :=
  (∀ (w : Word) (i : Instr), decode w = .ok i ↔ w = encode i) ∧
  ∀ w : Word, (∃ e, decode w = .error e) ↔
    (w.toNat / 256 ≠ 0 ∨
      w.toNat % 256 ∉ [0x01, 0x02, 0x03, 0x04, 0x05, 0x06, 0x07, 0x08, 0x09, 0x10, 0x11])

/-- A step runs the decoded command: while a command runs and the host's next action does not come first, the step is
exec of the command CMD decodes to, or ILLEGAL_CMD; otherwise the step is the host's. The host's step takes its next
action off and does it: a register access, a data-memory access, a poll of STATUS, the platform's reset. A `wait` (R341)
polls once, recording STATUS, and goes on polling while BUSY = 1; a wait for IRQ goes on while IRQ = 0 and then reads
STATUS; a host without actions waits. Which comes first is in the action's mark (log entry 7) or its number of polls (log
entry 15). -/
def Obligations.StepRunsDecodedCommand : Prop :=
  (∀ s : State,
    (∀ i, s.engine = .busy → hostMovesFirst s = false → decode s.cmd = .ok i → step s = exec i s) ∧
    (∀ e, s.engine = .busy → hostMovesFirst s = false → decode s.cmd = .error e →
      step s = .next { s with errCode := .illegalCmd, error := true, done := false, engine := .idle }) ∧
    (s.engine = .idle ∨ hostMovesFirst s = true → step s = hostTurn s) ∧
    (s.inputs = [] → hostTurn s = .next s ∧ hostMovesFirst s = false)) ∧
  ∀ (s : State) (early : Bool) (rest : List Input),
    let before := fun (a : Action) => ({ s with inputs := { early := early, action := a } :: rest } : State)
    let s' : State := { s with inputs := rest }
    let polled : State := { s' with recorded := s.recorded ++ [.word s.statusWord] }
    (∀ off bits v, hostTurn (before (.write off bits v)) = .next (s'.hostWrite off bits v) ∧
      hostMovesFirst (before (.write off bits v)) = early) ∧
    (∀ off bits, hostTurn (before (.read off bits)) = .next (s'.hostRead off bits) ∧
      hostMovesFirst (before (.read off bits)) = early) ∧
    (∀ a v, hostTurn (before (.poke a v)) = hostPoke a v s' ∧ hostMovesFirst (before (.poke a v)) = early) ∧
    (∀ a, hostTurn (before (.peek a)) = hostPeek a s' ∧ hostMovesFirst (before (.peek a)) = early) ∧
    (hostTurn (before .hardReset) = .next s'.applyReset ∧ hostMovesFirst (before .hardReset) = early) ∧
    (∀ polls, (s.engine = .idle → hostTurn (before (.wait polls)) = .next polled) ∧
      (s.engine = .busy → hostTurn (before (.wait polls)) =
        .next { polled with inputs := { early := early, action := .wait (polls - 1) } :: rest }) ∧
      (hostMovesFirst (before (.wait polls)) = true ↔ polls ≠ 0)) ∧
    (s.irq = true → hostTurn (before .waitIrq) = .next polled) ∧
    (s.irq = false → hostTurn (before .waitIrq) = .next (before .waitIrq)) ∧
    hostMovesFirst (before .waitIrq) = false

/-- R303: an illegal word, issued, stops with ILLEGAL_CMD; nothing but CMD and STATUS changes. -/
def Obligations.IllegalWordStops : Prop :=
  ∀ (s : State) (w : Word), s.engine = .idle → hostMovesFirst s = false →
    (w.toNat / 256 ≠ 0 ∨
      w.toNat % 256 ∉ [0x01, 0x02, 0x03, 0x04, 0x05, 0x06, 0x07, 0x08, 0x09, 0x10, 0x11]) →
    step (s.hostWrite 0x00C 32 w) =
      .next { s with cmd := w, engine := .idle, done := false, error := true, errCode := .illegalCmd, dictOvf := false }

/-- R106: a CMD write while idle stores the word and issues it (R600: BUSY is set, DONE, ERROR, ERRCODE and DICT_OVF
are cleared); a read returns the word; a write while busy is ignored; CMD is 0 at reset. -/
def Obligations.CmdWriteIssues : Prop :=
  (∀ (s : State) (w : Word), s.engine = .idle →
    s.hostWrite 0x00C 32 w =
      { s with cmd := w, engine := .busy, done := false, error := false, errCode := .none, dictOvf := false }) ∧
  (∀ s : State, s.hostRead 0x00C 32 = { s with recorded := s.recorded ++ [.word s.cmd] }) ∧
  (∀ (s : State) (w : Word), s.engine = .busy → s.hostWrite 0x00C 32 w = s) ∧
  State.reset.cmd = 0

/-- R612: exactly one of R610 and R611 ends every command: DONE or ERROR, with BUSY = 0. R612 says finitely many steps of
the engine; that the model takes one is its choice from R731, log entry 7. -/
def Obligations.EveryCommandCompletes : Prop :=
  ∀ (i : Instr) (s : State), ∃ t, exec i s = .next t ∧ t.engine = .idle ∧
    ((t.done = true ∧ t.error = false ∧ t.errCode = .none) ∨
      (t.done = false ∧ t.error = true ∧ t.errCode ≠ .none))

/-- R605, R310: the pre-checks in their order. The first that fails raises its error, and nothing but STATUS changes.
Check 1 is the decoder's; the regions of checks 4 and 5 are those of R310, written out first. -/
def Obligations.PrechecksInOrder : Prop :=
  (∀ s : State,
    let src : Region := { addr := s.srcAddr.toNat, len := s.srcLen.toNat, isWrite := false }
    let srcBits : Region := { addr := s.srcAddr.toNat, len := (s.srcLen.toNat + 7) / 8, isWrite := false }
    let dst : Region := { addr := s.dstAddr.toNat, len := s.dstCap.toNat, isWrite := true }
    let blob := fun w => ({ addr := s.metaAddr.toNat, len := s.metaLen.toNat, isWrite := w } : Region)
    regions .hufFreq s = [src] ∧ regions .hufBuild s = [] ∧ regions .hufCodegen s = [] ∧
    regions .hufEncode s = [src, dst] ∧ regions .hufDecode s = [srcBits, dst] ∧
    regions .hufMetaEmit s = [blob true] ∧ regions .hufMetaParse s = [blob false] ∧
    regions .hufCompress s = [src, dst, blob true] ∧ regions .hufDecompress s = [src, blob false, dst] ∧
    regions .lzwEncode s = [src, dst] ∧ regions .lzwDecode s = [srcBits, dst]) ∧
  (∀ s : State, (s.cmd.toNat / 256 ≠ 0 ∨
      s.cmd.toNat % 256 ∉ [0x01, 0x02, 0x03, 0x04, 0x05, 0x06, 0x07, 0x08, 0x09, 0x10, 0x11]) →
    runCommand s = .next { s with errCode := .illegalCmd, error := true, done := false, engine := .idle }) ∧
  ∀ (i : Instr) (s : State),
    let badConfig := (i = .lzwEncode ∨ i = .lzwDecode) ∧ ¬ (8 ≤ s.codeWidth.toNat ∧ s.codeWidth.toNat ≤ 16)
    let notReady := (i = .hufCodegen ∧ s.treeValid = false) ∨ ((i = .hufEncode ∨ i = .hufDecode) ∧ s.codeValid = false)
    let outOfRange := ∃ r ∈ regions i s, r.len ≠ 0 ∧ r.addr + r.len > s.memTop.toNat + 1
    let overlap := ∃ (j k : Nat) (r q : Region) (a : Nat), j ≠ k ∧ (regions i s)[j]? = some r ∧
      (regions i s)[k]? = some q ∧ r.isWrite = true ∧ r.addr ≤ a ∧ a < r.addr + r.len ∧ q.addr ≤ a ∧ a < q.addr + q.len
    let raises := fun e => exec i s = .next { s with errCode := e, error := true, done := false, engine := .idle }
    (badConfig → raises .badConfig) ∧
    (¬ badConfig → notReady → raises .notReady) ∧
    (¬ badConfig → ¬ notReady → outOfRange → raises .busError) ∧
    (¬ badConfig → ¬ notReady → ¬ outOfRange → overlap → raises .regionOverlap) ∧
    (¬ badConfig → ¬ notReady → ¬ outOfRange → ¬ overlap → precheck i s = none)

/-! ## What commands leave alone -/

/-- R310, R206: the frame of every command, on success and on error. The host's registers, MEM_SIZE and the host's
actions and records stay; each table and result register changes only under the commands R310 names; and every byte
outside the command's write regions reads as before. -/
def Obligations.CommandFrame : Prop :=
  ∀ (i : Instr) (s t : State), exec i s = .next t →
    (t.irqEn = s.irqEn ∧ t.cmd = s.cmd ∧ t.codeWidth = s.codeWidth ∧ t.srcAddr = s.srcAddr ∧ t.srcLen = s.srcLen ∧
      t.dstAddr = s.dstAddr ∧ t.dstCap = s.dstCap ∧ t.metaAddr = s.metaAddr ∧ t.metaLen = s.metaLen ∧
      t.codeSel = s.codeSel ∧ t.memTop = s.memTop ∧ t.inputs = s.inputs ∧ t.recorded = s.recorded) ∧
    (i ∉ [.hufFreq, .hufMetaParse, .hufCompress, .hufDecompress] → t.freq = s.freq ∧ t.nsym = s.nsym) ∧
    (i ∉ [.hufFreq, .hufBuild, .hufMetaParse, .hufCompress, .hufDecompress] →
      t.tree = s.tree ∧ t.treeValid = s.treeValid) ∧
    (i ∉ [.hufFreq, .hufBuild, .hufCodegen, .hufMetaParse, .hufCompress, .hufDecompress] →
      t.code = s.code ∧ t.codeValid = s.codeValid) ∧
    (i ∉ [.hufEncode, .hufDecode, .hufCompress, .hufDecompress, .lzwEncode, .lzwDecode] →
      t.dstLen = s.dstLen ∧ t.dstBits = s.dstBits) ∧
    (i ∉ [.hufMetaEmit, .hufCompress] → t.metaOutLen = s.metaOutLen) ∧
    (i ∉ [.hufEncode, .hufMetaParse, .hufCompress, .hufDecompress] → t.hbits = s.hbits) ∧
    (i ∉ [.lzwEncode, .lzwDecode] → t.dictSize = s.dictSize) ∧
    (i ≠ .lzwEncode → t.dictOvf = s.dictOvf) ∧
    (∀ a, ¬ inWriteRegion i s a → t.mem.read a = s.mem.read a)

/-- R402, R412, R422, R475, R452, R460, R470, R480, R482, R520, R530: a command that succeeds stores only its output.
The forms that store nothing leave all of memory; the others leave every byte outside the DST_LEN bytes at DST_ADDR and
the META_OUT_LEN bytes at META_ADDR they report. -/
def Obligations.SuccessStoresOnlyOutput : Prop :=
  ∀ (i : Instr) (s t : State), exec i s = .next t → t.done = true →
    (i ∈ [.hufFreq, .hufBuild, .hufCodegen, .hufMetaParse] → ∀ a, t.mem.read a = s.mem.read a) ∧
    (i ∈ [.hufEncode, .hufDecode, .hufDecompress, .lzwEncode, .lzwDecode] →
      ∀ a, ¬ (s.dstAddr.toNat ≤ a ∧ a < s.dstAddr.toNat + t.dstLen.toNat) → t.mem.read a = s.mem.read a) ∧
    (i = .hufMetaEmit →
      ∀ a, ¬ (s.metaAddr.toNat ≤ a ∧ a < s.metaAddr.toNat + t.metaOutLen.toNat) → t.mem.read a = s.mem.read a) ∧
    (i = .hufCompress →
      ∀ a, ¬ (s.dstAddr.toNat ≤ a ∧ a < s.dstAddr.toNat + t.dstLen.toNat) →
        ¬ (s.metaAddr.toNat ≤ a ∧ a < s.metaAddr.toNat + t.metaOutLen.toNat) → t.mem.read a = s.mem.read a)

/-- R613 (c): an error that follows the pre-checks zeroes the result registers the command writes. -/
def Obligations.FailureZeroesResults : Prop :=
  ∀ (i : Instr) (s t : State), precheck i s = none → exec i s = .next t → t.error = true →
    (i ∈ [.hufEncode, .hufDecode, .hufCompress, .hufDecompress, .lzwEncode, .lzwDecode] →
      t.dstLen = 0 ∧ t.dstBits = 0) ∧
    (i ∈ [.hufMetaEmit, .hufCompress] → t.metaOutLen = 0) ∧
    (i ∈ [.lzwEncode, .lzwDecode] → t.dictSize = 0)

/-! ## The invariant of every run -/

/-- R700: the state after reset meets the invariant, whatever MEM_SIZE is. -/
def Obligations.ResetMeetsInvariant : Prop := (∀ m : Word, (State.resetWith m).Inv) ∧ State.reset.Inv

/-- R104, R118, R146, R151, R155, R200, R113, R119: every step, the engine's and the host's, keeps the invariant. -/
def Obligations.EveryStepKeepsInvariant : Prop := ∀ s t : State, s.Inv → step s = .next t → t.Inv

/-! ## Reset, the register window and the flags -/

/-- R700, R101: the reset value of every register and table. -/
def Obligations.ResetStateIsTheTable : Prop :=
  ∀ m : Word,
    let s := State.resetWith m
    (s.engine = .idle ∧ s.ctrlWord = 0 ∧ s.statusWord = 0 ∧ s.cmd = 0 ∧ s.readReg .config = 0x0000000C ∧
      s.readReg .id = 0x484C5A01 ∧ s.irq = false) ∧
    (s.srcAddr = 0 ∧ s.srcLen = 0 ∧ s.dstAddr = 0 ∧ s.dstCap = 0 ∧ s.dstLen = 0 ∧ s.dstBits = 0 ∧ s.metaAddr = 0 ∧
      s.metaLen = 0 ∧ s.metaOutLen = 0 ∧ s.hbits = 0 ∧ s.nsym = 0 ∧ s.dictSize = 0 ∧ s.codeSel = 0) ∧
    (s.codeLenWord = 0 ∧ (∀ j, j < 8 → s.codeBitsWord j = 0)) ∧
    (∀ x, s.freq.lookup x = 0) ∧ (s.tree.nodes = [] ∧ s.tree.root = none) ∧ (∀ x, s.code.lookup x = none)

/-- R702, R700: a CTRL write with bit 1 set, and the platform's reset alike, take the core to its reset state, whatever
it was doing, IRQ_EN included; a running command is abandoned with neither DONE nor ERROR set; and every byte outside
the write regions of a command it cuts off reads as before. -/
def Obligations.ResetTakesCoreToResetState : Prop :=
  ∀ (s : State) (v : Word), v.getLsbD 1 = true →
    let t := s.hostWrite 0x004 32 v
    t = s.applyReset ∧
    t = { State.resetWith s.memTop with mem := t.mem, inputs := s.inputs, recorded := s.recorded, draws := t.draws } ∧
    (s.engine = .idle → t.mem = s.mem) ∧
    (∀ a, (∀ i, s.engine = .busy → decode s.cmd = .ok i → ¬ inWriteRegion i s a) → t.mem.read a = s.mem.read a) ∧
    ∀ early, hostTurn { s with inputs := { early := early, action := .hardReset } :: s.inputs } = .next s.applyReset

/-- R105: STATUS is write-one-to-clear while idle; a write while busy is ignored. -/
def Obligations.StatusWriteOneToClear : Prop :=
  ∀ (s : State) (v : Word),
    (s.engine = .idle →
      let t := s.hostWrite 0x008 32 v
      t.done = (if v.getLsbD 1 then false else s.done) ∧
      t.error = (if v.getLsbD 2 then false else s.error) ∧
      t.errCode = (if v.getLsbD 2 then .none else s.errCode) ∧
      t.dictOvf = (if v.getLsbD 3 then false else s.dictOvf) ∧
      t = { s with done := t.done, error := t.error, errCode := t.errCode, dictOvf := t.dictOvf }) ∧
    (s.engine = .busy → s.hostWrite 0x008 32 v = s)

/-- R104, R601: the fields of the STATUS word, with the number ERRCODE shows for each error; the reserved bits read
zero. -/
def Obligations.StatusWordFields : Prop :=
  (ErrCode.number .none = 0x00 ∧ ErrCode.number .illegalCmd = 0x01 ∧ ErrCode.number .badConfig = 0x02 ∧
    ErrCode.number .notReady = 0x03 ∧ ErrCode.number .busError = 0x04 ∧ ErrCode.number .regionOverlap = 0x05 ∧
    ErrCode.number .outputOverflow = 0x06 ∧ ErrCode.number .corruptResidual = 0x07 ∧
    ErrCode.number .corruptLzwCode = 0x08 ∧ ErrCode.number .corruptLzwLength = 0x09 ∧
    ErrCode.number .metadataMalformed = 0x0A ∧ ErrCode.number .symbolNotInTable = 0x0B ∧
    ErrCode.number .streamTruncated = 0x0C) ∧
  ∀ s : State,
    s.statusWord.getLsbD 0 = (s.engine == .busy) ∧ s.statusWord.getLsbD 1 = s.done ∧
    s.statusWord.getLsbD 2 = s.error ∧ s.statusWord.getLsbD 3 = s.dictOvf ∧
    (s.statusWord.toNat / 2 ^ 4) % 2 ^ 4 = 0 ∧ (s.statusWord.toNat / 2 ^ 8) % 2 ^ 8 = s.errCode.number ∧
    s.statusWord.getLsbD 16 = s.treeValid ∧ s.statusWord.getLsbD 17 = s.codeValid ∧ s.statusWord.toNat / 2 ^ 18 = 0

/-- R101, R102, R103, R107-R120: what an idle core's registers read, by offset. -/
def Obligations.WindowReadsByOffset : Prop :=
  ∀ s : State, s.engine = .idle →
    let reads := fun (off : BitVec 12) (v : Word) => s.hostRead off 32 = { s with recorded := s.recorded ++ [.word v] }
    reads 0x000 0x484C5A01 ∧ reads 0x004 (if s.irqEn then 1 else 0) ∧ reads 0x008 s.statusWord ∧
    reads 0x00C s.cmd ∧ reads 0x010 (s.codeWidth.setWidth 32) ∧
    reads 0x014 s.srcAddr ∧ reads 0x018 s.srcLen ∧ reads 0x01C s.dstAddr ∧ reads 0x020 s.dstCap ∧
    reads 0x024 s.dstLen ∧ reads 0x028 s.dstBits ∧ reads 0x02C s.metaAddr ∧ reads 0x030 s.metaLen ∧
    reads 0x034 s.metaOutLen ∧ reads 0x038 s.hbits ∧ reads 0x03C (s.nsym.setWidth 32) ∧
    reads 0x040 (s.dictSize.setWidth 32) ∧ reads 0x044 (s.codeSel.setWidth 32) ∧
    ∀ x : Byte, reads (BitVec.ofNat 12 (0x400 + 4 * x.toNat)) (s.freq.lookup x)

/-- R101, R103, R107-R120: what a write of an idle core's registers does, by offset: a register that may be written takes the
value, cut to its field; a read-only one ignores it. -/
def Obligations.WindowWritesByOffset : Prop :=
  ∀ (s : State) (v : Word), s.engine = .idle →
    (v.getLsbD 1 = false → s.hostWrite 0x004 32 v = { s with irqEn := v.getLsbD 0 }) ∧
    s.hostWrite 0x010 32 v = { s with codeWidth := BitVec.ofNat 5 (v.toNat % 32) } ∧
    s.hostWrite 0x014 32 v = { s with srcAddr := v } ∧ s.hostWrite 0x018 32 v = { s with srcLen := v } ∧
    s.hostWrite 0x01C 32 v = { s with dstAddr := v } ∧ s.hostWrite 0x020 32 v = { s with dstCap := v } ∧
    s.hostWrite 0x02C 32 v = { s with metaAddr := v } ∧ s.hostWrite 0x030 32 v = { s with metaLen := v } ∧
    s.hostWrite 0x038 32 v = { s with hbits := v } ∧
    s.hostWrite 0x044 32 v = { s with codeSel := BitVec.ofNat 8 (v.toNat % 256) } ∧
    ∀ off ∈ ([0x000, 0x024, 0x028, 0x034, 0x03C, 0x040, 0x048, 0x04C, 0x050, 0x054, 0x058, 0x05C, 0x060, 0x064, 0x068] :
      List (BitVec 12)), s.hostWrite off 32 v = s

/-- R124: a reserved offset reads zero and ignores writes, busy or idle. -/
def Obligations.ReservedOffsetsInert : Prop :=
  ∀ (s : State) (off : BitVec 12) (v : Word), off.toNat % 4 = 0 →
    (0x06C ≤ off.toNat ∧ off.toNat ≤ 0x3FC) ∨ (0x800 ≤ off.toNat ∧ off.toNat ≤ 0xFFC) →
    s.hostRead off 32 = { s with recorded := s.recorded ++ [.word 0] } ∧ s.hostWrite off 32 v = s

/-- R232: an access that is not of 32 bits, or not at a multiple of 4, gets an error response, changes nothing and
returns no data. -/
def Obligations.IrregularAccessRefused : Prop :=
  ∀ (s : State) (off : BitVec 12) (bits : Nat) (v : Word), (bits ≠ 32 ∨ off.toNat % 4 ≠ 0) →
    s.hostWrite off bits v = { s with recorded := s.recorded ++ [.errorResponse] } ∧
    s.hostRead off bits = { s with recorded := s.recorded ++ [.errorResponse] }

/-- R125: while a command runs, a CTRL write takes effect and every other register write is ignored; a read of a stable
register returns its value; a read of a result register or FREQ returns a value nothing fixes and changes nothing. -/
def Obligations.AccessWhileBusy : Prop :=
  ∀ s : State, s.engine = .busy →
    (∀ (off : BitVec 12) (v : Word), off.toNat % 4 = 0 → off ≠ 0x004 → s.hostWrite off 32 v = s) ∧
    (∀ v : Word, v.getLsbD 1 = false → s.hostWrite 0x004 32 v = { s with irqEn := v.getLsbD 0 }) ∧
    (∀ v : Word, v.getLsbD 1 = true → s.hostWrite 0x004 32 v = s.applyReset) ∧
    (∀ p ∈ [((0x000 : BitVec 12), (0x484C5A01 : Word)), (0x004, if s.irqEn then 1 else 0), (0x008, s.statusWord),
        (0x00C, s.cmd), (0x010, s.codeWidth.setWidth 32), (0x014, s.srcAddr), (0x018, s.srcLen), (0x01C, s.dstAddr),
        (0x020, s.dstCap), (0x02C, s.metaAddr), (0x030, s.metaLen), (0x044, s.codeSel.setWidth 32)],
      s.hostRead p.1 32 = { s with recorded := s.recorded ++ [.word p.2] }) ∧
    ∀ off : BitVec 12, off.toNat % 4 = 0 →
      off ∈ ([0x024, 0x028, 0x034, 0x038, 0x03C, 0x040] : List (BitVec 12)) ∨
        (0x048 ≤ off.toNat ∧ off.toNat ≤ 0x068) ∨ (0x400 ≤ off.toNat ∧ off.toNat ≤ 0x7FC) →
      ∃ w n, s.hostRead off 32 = { s with recorded := s.recorded ++ [.word w], draws := n }

/-- R123, R155, R118: a FREQ write while idle sets that entry, recounts NSYM and invalidates TREE and CODE, even when
the value is the old one; a read returns the entry; a write while busy is ignored; every entry is 0 at reset. -/
def Obligations.FreqWindowWrite : Prop :=
  (∀ x, State.reset.freq.lookup x = 0) ∧
  ∀ (s : State) (x : Byte) (v : Word),
    let off := BitVec.ofNat 12 (0x400 + 4 * x.toNat)
    let t := s.hostWrite off 32 v
    (s.engine = .idle →
      s.hostRead off 32 = { s with recorded := s.recorded ++ [.word (s.freq.lookup x)] } ∧
      t.freq.lookup x = v ∧ (∀ y, y ≠ x → t.freq.lookup y = s.freq.lookup y) ∧
      t.nsym.toNat = (presentSymbols t.freq).length ∧ (∀ y, t.code.lookup y = none) ∧
      t = { s with freq := t.freq, nsym := t.nsym, tree := { nodes := [], root := none }, treeValid := false,
                   code := t.code, codeValid := false }) ∧
    (s.engine = .busy → t = s)

/-- R121, R122: the codeword readout. CODE_LEN is the selected codeword's length, 0 when absent, and bit 31 - i of
CODE_BITSj is codeword bit 32j + i, 0 past the end. -/
def Obligations.CodeReadout : Prop :=
  ∀ (s : State) (c : Bits), s.engine = .idle → c.length ≤ 255 →
    (s.code.lookup s.codeSel = some c ∨ (s.code.lookup s.codeSel = none ∧ c = [])) →
    (∃ w : Word, s.hostRead 0x048 32 = { s with recorded := s.recorded ++ [.word w] } ∧ w.toNat = c.length) ∧
    ∀ j, j < 8 → ∃ w : Word,
      s.hostRead (BitVec.ofNat 12 (0x04C + 4 * j)) 32 = { s with recorded := s.recorded ++ [.word w] } ∧
      ∀ i, i < 32 → w.getLsbD (31 - i) = c.getD (32 * j + i) false

/-- R170, R620: IRQ is a level: a command that completes raises it if enabled; issuing a command, clearing both DONE and
ERROR, or a reset drops it; enabling while DONE or ERROR is set raises it at once. -/
def Obligations.InterruptLevel : Prop :=
  (∀ s : State, s.irq = (s.irqEn && (s.done || s.error))) ∧
  (∀ (i : Instr) (s t : State), exec i s = .next t → t.irq = s.irqEn) ∧
  (∀ (s : State) (w : Word), s.engine = .idle → (s.hostWrite 0x00C 32 w).irq = false) ∧
  (∀ (s : State) (v : Word), s.engine = .idle → v.getLsbD 1 = true → v.getLsbD 2 = true →
    (s.hostWrite 0x008 32 v).irq = false) ∧
  (∀ (s : State) (v : Word), v.getLsbD 1 = true → (s.hostWrite 0x004 32 v).irq = false) ∧
  (∀ s : State, s.applyReset.irq = false) ∧ State.reset.irq = false ∧
  (∀ s : State, s.done = true ∨ s.error = true → (s.hostWrite 0x004 32 0x00000001).irq = true)

/-! ## The host and data memory -/

/-- R200, R231, R233, U4 (the model's moves for the host, assumptions 5 and 6): a host access outside data memory (its
address is any number, with no wrap-around) stops the run by name; a poke into a region of the running command is
refused; any other poke stores its byte; a peek outside the running command's write regions records the byte, and one
inside them records some byte. -/
def Obligations.HostMemoryAccess : Prop :=
  ∀ (s : State) (a : Nat) (v : Byte),
    let runs := fun i => s.engine = .busy ∧ decode s.cmd = .ok i
    let touched := ∃ i, runs i ∧ ∃ r ∈ regions i s, r.addr ≤ a ∧ a < r.addr + r.len
    let written := ∃ i, runs i ∧ inWriteRegion i s a
    (a > s.memTop.toNat →
      hostPoke a v s = .fault (.hostAddressOutsideMemory a) ∧
      hostPeek a s = .fault (.hostAddressOutsideMemory a)) ∧
    (a ≤ s.memTop.toNat → touched → hostPoke a v s = .refused (.hostWritesRunningRegion a)) ∧
    (a ≤ s.memTop.toNat → ¬ touched → s.mem.wf = true →
      ∃ m, hostPoke a v s = .next { s with mem := m } ∧ m.read a = v ∧
        ∀ b, b ≠ a → m.read b = s.mem.read b) ∧
    (a ≤ s.memTop.toNat → ¬ written →
      hostPeek a s = .next { s with recorded := s.recorded ++ [.byte (s.mem.read a)] }) ∧
    (a ≤ s.memTop.toNat → written →
      ∃ b n, hostPeek a s = .next { s with recorded := s.recorded ++ [.byte b], draws := n })

/-- R210, R211: WriteBits packs n bits into ceil8(n) bytes, bit j at bit 7 - (j mod 8) of byte j div 8, the bits after
the last 0; ReadBits is the inverse: n bits, bit j from bit 7 - (j mod 8) of the byte at addr + j div 8. -/
def Obligations.PackedStreamLayout : Prop :=
  (∀ b : Bits, (packBits b).length = (b.length + 7) / 8 ∧
    ∀ k i, i < 8 → ∀ h : k < (packBits b).length, ((packBits b)[k]).getLsbD (7 - i) = b.getD (8 * k + i) false) ∧
  ∀ (m : Memory) (a n : Nat), (m.readBits a n).length = n ∧
    ∀ j, ∀ h : j < (m.readBits a n).length, (m.readBits a n)[j] = (m.read (a + j / 8)).getLsbD (7 - j % 8)

/-! ## Huffman tables -/

/-- R402, R401: HUF_FREQ. With SRC in range, FREQ becomes the byte counts of SRC, NSYM the number of present symbols,
TREE and CODE are invalidated, and nothing else but STATUS changes; otherwise BUS_ERROR, and only STATUS changes. -/
def Obligations.HufFreqCountsBytes : Prop :=
  decode 0x00000001#32 = .ok .hufFreq ∧ ∀ s : State,
    (s.srcLen = 0 ∨ s.srcAddr.toNat + s.srcLen.toNat ≤ s.memTop.toNat + 1 →
      ∃ t, exec .hufFreq s = .next t ∧
        (∀ x, (t.freq.lookup x).toNat = occurrences s.mem s.srcAddr.toNat s.srcLen.toNat x) ∧
        t.nsym.toNat = (presentSymbols t.freq).length ∧ (∀ x, t.code.lookup x = none) ∧
        t = { s with freq := t.freq, nsym := t.nsym, tree := { nodes := [], root := none }, treeValid := false,
                     code := t.code, codeValid := false, done := true, error := false, errCode := .none,
                     engine := .idle }) ∧
    (¬ (s.srcLen = 0 ∨ s.srcAddr.toNat + s.srcLen.toNat ≤ s.memTop.toNat + 1) →
      exec .hufFreq s = .next { s with errCode := .busError, error := true, done := false, engine := .idle })

/-- R412: HUF_BUILD. TREE becomes buildTree(FREQ) with TREE_VALID = 1, CODE is cleared, and nothing else but STATUS
changes. -/
def Obligations.HufBuildBuildsTree : Prop :=
  decode 0x00000002#32 = .ok .hufBuild ∧ ∀ s : State, ∃ t, exec .hufBuild s = .next t ∧ t.tree = buildTree s.freq ∧ (∀ x, t.code.lookup x = none) ∧
    t = { s with tree := t.tree, treeValid := true, code := t.code, codeValid := false, done := true, error := false,
                 errCode := .none, engine := .idle }

/-- R422: HUF_CODEGEN. With TREE_VALID = 1, CODE becomes deriveCodes(TREE) with CODE_VALID = 1, and nothing else but
STATUS changes; with TREE_VALID = 0 it is NOT_READY, and only STATUS changes. -/
def Obligations.HufCodegenDerivesCodes : Prop :=
  decode 0x00000003#32 = .ok .hufCodegen ∧ ∀ s : State,
    (s.treeValid = true → exec .hufCodegen s =
      .next { s with code := deriveCodes s.tree, codeValid := true, done := true, error := false, errCode := .none,
                     engine := .idle }) ∧
    (s.treeValid = false → exec .hufCodegen s =
      .next { s with errCode := .notReady, error := true, done := false, engine := .idle })

/-- R407, R408: no present symbol gives no node and no root, one gives its leaf as the root; with n >= 2 the tree has
n leaves and n - 1 internal nodes, every internal node has two distinct children made before it, no two internal nodes
share a child, and the root is the last node created. -/
def Obligations.TreeShape : Prop :=
  ∀ f : Table Word,
    let n := (presentSymbols f).length
    let nodes := (buildTree f).nodes
    (n = 0 → nodes = [] ∧ (buildTree f).root = none) ∧
    (n = 1 → nodes.length = 1 ∧ (buildTree f).root = some 0 ∧ ∃ x q k, nodes[0]? = some (Node.leaf x q k)) ∧
    (2 ≤ n → nodes.length = 2 * n - 1 ∧ (buildTree f).root = some (2 * n - 2) ∧
      (∀ i, i < n → ∃ x q k, nodes[i]? = some (Node.leaf x q k)) ∧
      (∀ i, n ≤ i → i < 2 * n - 1 → ∃ q l r k, nodes[i]? = some (Node.internal q l r k) ∧ l < i ∧ r < i ∧ l ≠ r ∧
        k.toNat = 256 + (i - n)) ∧
      ∀ c p p', isChildOf nodes c p → isChildOf nodes c p' → p = p')

/-- R145, R406: the leaves come first, in ascending symbol order, with their counts and keys; an internal node's
frequency is the sum of its children's, with no overflow at 40 bits, and the root's is the sum of all counts. -/
def Obligations.TreeFrequenciesAreSums : Prop :=
  ∀ f : Table Word,
    (∀ (k : Nat) (x : Byte), (presentSymbols f)[k]? = some x → ∃ (q : BitVec 40) (key : BitVec 9),
      (buildTree f).nodes[k]? = some (.leaf x q key) ∧ q.toNat = (f.lookup x).toNat ∧ key.toNat = x.toNat) ∧
    (∀ (i : Nat) (q : BitVec 40) (l r : Nat) (k : BitVec 9), (buildTree f).nodes[i]? = some (.internal q l r k) →
      ∃ a b : Node, (buildTree f).nodes[l]? = some a ∧ (buildTree f).nodes[r]? = some b ∧
        q.toNat = a.freq.toNat + b.freq.toNat) ∧
    (∀ (x : Byte) (q : BitVec 40) (l r : Nat) (k : BitVec 9),
      (Node.leaf x q k).freq = q ∧ (Node.internal q l r k).freq = q) ∧
    (∀ (i : Nat) (p : Node), (buildTree f).root = some i → (buildTree f).nodes[i]? = some p →
      p.freq.toNat = ((presentSymbols f).map fun x => (f.lookup x).toNat).sum)

/-- R405, R406: every merge takes the two least nodes in the order of R405, (freq, key) lexicographically. When internal
node m is made over left l and right r, l comes before r, and r before every other node that exists then and is no child
yet. -/
def Obligations.MergesTakeTheTwoLeast : Prop :=
  ∀ (f : Table Word) (m : Nat) (q : BitVec 40) (l r : Nat) (k : BitVec 9),
    let nodes := (buildTree f).nodes
    let freq := fun (p : Node) => match p with
      | .leaf _ w _ => w.toNat
      | .internal w _ _ _ => w.toNat
    let key := fun (p : Node) => match p with
      | .leaf _ _ k => k.toNat
      | .internal _ _ _ k => k.toNat
    let before := fun p p' => freq p < freq p' ∨ (freq p = freq p' ∧ key p < key p')
    nodes[m]? = some (.internal q l r k) →
    ∃ left right, nodes[l]? = some left ∧ nodes[r]? = some right ∧ before left right ∧
      ∀ j other, j < m → j ≠ l → j ≠ r → (∀ p, p < m → ¬ isChildOf nodes j p) → nodes[j]? = some other →
        before right other

/-- R420, R421: a symbol's codeword is the path of edges from the root to its leaf, 0 for left and 1 for right; with a
single leaf it is `0`; with no root every entry is absent. -/
def Obligations.CodewordsArePaths : Prop :=
  ∀ f : Table Word,
    (2 ≤ (presentSymbols f).length → ∀ x c, (deriveCodes (buildTree f)).lookup x = some c ↔
      ∃ r i q k, (buildTree f).root = some r ∧ walkTree (buildTree f).nodes r c = some i ∧
        (buildTree f).nodes[i]? = some (.leaf x q k)) ∧
    (∀ y, presentSymbols f = [y] → ∀ x, (deriveCodes (buildTree f)).lookup x = if x = y then some [false] else none) ∧
    (presentSymbols f = [] → ∀ x, (deriveCodes (buildTree f)).lookup x = none)

/-- R425: the code is prefix-free, and with two or more present symbols complete: every bit string long enough begins
with exactly one codeword. -/
def Obligations.CodeIsPrefixFree : Prop :=
  ∀ f : Table Word, prefixFree (deriveCodes (buildTree f)) ∧
    (2 ≤ (presentSymbols f).length → ∀ b : Bits, 255 ≤ b.length →
      ∃ x c, (deriveCodes (buildTree f)).lookup x = some c ∧ c <+: b ∧
        ∀ y d, (deriveCodes (buildTree f)).lookup y = some d → d <+: b → y = x)

/-- R426: every codeword has length 1..255, and a symbol has one exactly when its count is not 0. -/
def Obligations.CodewordLengths : Prop :=
  ∀ f : Table Word, lengthsLegal (deriveCodes (buildTree f)) ∧
    ∀ x, (∃ c, (deriveCodes (buildTree f)).lookup x = some c) ↔ f.lookup x ≠ 0

/-! ## Huffman streams -/

/-- R452: HUF_ENCODE succeeds when every source byte has a codeword and the stream fits: the concatenated codewords,
packed, go to DST; DST_LEN, DST_BITS and HBITS take the lengths; nothing else but STATUS changes. -/
def Obligations.HufEncodeWritesStream : Prop :=
  ∀ (s : State) (bits : Bits), precheck .hufEncode s = none →
    encodeBits s.code (srcBytes s) = some bits → bits.length ≤ 2 ^ 32 - 1 → ceil8 bits.length ≤ s.dstCap.toNat →
    exec .hufEncode s = .next
      { s with mem := s.mem.writeBytes s.dstAddr.toNat (packBits bits), dstLen := BitVec.ofNat 32 (ceil8 bits.length),
               dstBits := BitVec.ofNat 32 bits.length, hbits := BitVec.ofNat 32 bits.length, done := true,
               error := false, errCode := .none, engine := .idle }

/-- R452: HUF_ENCODE stops at the first condition its loop meets: SYMBOL_NOT_IN_TABLE at a byte without a codeword,
OUTPUT_OVERFLOW at a codeword that no longer fits. DST_LEN = DST_BITS = 0; HBITS and every other field but data memory,
STATUS and the model's counter stay (data memory: CommandFrame). -/
def Obligations.HufEncodeStopsAtFirstError : Prop :=
  ∀ (s : State) (done rest : List Byte) (b : Byte) (bits : Bits), precheck .hufEncode s = none →
    srcBytes s = done ++ b :: rest → encodeBits s.code done = some bits →
    bits.length ≤ 2 ^ 32 - 1 → ceil8 bits.length ≤ s.dstCap.toNat →
    (s.code.lookup b = none →
      ∃ m n, exec .hufEncode s = .next
        { s with mem := m, draws := n, dstLen := 0, dstBits := 0, errCode := .symbolNotInTable, error := true,
                 done := false, engine := .idle }) ∧
    (∀ c, s.code.lookup b = some c →
      ¬ ((bits ++ c).length ≤ 2 ^ 32 - 1 ∧ ceil8 (bits ++ c).length ≤ s.dstCap.toNat) →
      ∃ m n, exec .hufEncode s = .next
        { s with mem := m, draws := n, dstLen := 0, dstBits := 0, errCode := .outputOverflow, error := true,
                 done := false, engine := .idle })

/-- R455, R460: HUF_DECODE of the codewords of a byte string that fits DST writes that byte string; DST_LEN is its
length, DST_BITS 0; nothing else but STATUS changes. -/
def Obligations.HufDecodeInvertsCode : Prop :=
  ∀ (s : State) (out : List Byte), precheck .hufDecode s = none → prefixFree s.code → lengthsLegal s.code →
    encodeBits s.code out = some (s.mem.readBits s.srcAddr.toNat s.srcLen.toNat) → out.length ≤ s.dstCap.toNat →
    exec .hufDecode s = .next
      { s with mem := s.mem.writeBytes s.dstAddr.toNat out, dstLen := BitVec.ofNat 32 out.length, dstBits := 0,
               done := true, error := false, errCode := .none, engine := .idle }

/-- R460: HUF_DECODE of codewords followed by a leftover that no codeword begins stops with CORRUPT_RESIDUAL; one whose
output would exceed DST_CAP stops with OUTPUT_OVERFLOW, whatever follows. DST_LEN = DST_BITS = 0. -/
def Obligations.HufDecodeErrors : Prop :=
  ∀ (s : State) (out : List Byte) (bits rest : Bits), precheck .hufDecode s = none → prefixFree s.code →
    lengthsLegal s.code → s.mem.readBits s.srcAddr.toNat s.srcLen.toNat = bits ++ rest →
    encodeBits s.code out = some bits →
    (out.length ≤ s.dstCap.toNat → rest ≠ [] → (∀ x c, s.code.lookup x = some c → ¬ c <+: rest) →
      ∃ m n, exec .hufDecode s = .next
        { s with mem := m, draws := n, dstLen := 0, dstBits := 0, errCode := .corruptResidual, error := true,
                 done := false, engine := .idle }) ∧
    (out.length = s.dstCap.toNat + 1 →
      ∃ m n, exec .hufDecode s = .next
        { s with mem := m, draws := n, dstLen := 0, dstBits := 0, errCode := .outputOverflow, error := true,
                 done := false, engine := .idle })

/-- R468: parseBlob accepts exactly the blobs of a table, entries in any order of symbols, ended by the terminator
record of a bit length below 2^32, and gives that table and length back. -/
def Obligations.ParseAcceptsExactlyBlobs : Prop :=
  ∀ (t : List Byte) (f : Table Word) (len : Nat), parseBlob t = some (f, len) ↔
    len ≤ 2 ^ 32 - 1 ∧ ∃ order : List Byte, order.Nodup ∧ (∀ x, x ∈ order ↔ f.lookup x ≠ 0) ∧
      t = order.flatMap (fun x => record x (f.lookup x).toNat) ++ record 0x7E len

/-- R466, R468, R11: parsing an emitted blob gives its table and length back; it emits one record per present symbol in
ascending order; a number's decimal digits have no leading zero and stand for it. -/
def Obligations.EmittedBlobsParseBack : Prop :=
  (∀ (f : Table Word) (len : Nat), len ≤ 2 ^ 32 - 1 → parseBlob (emitBlob f len) = some (f, len)) ∧
  (∀ (f : Table Word) (len : Nat), emitBlob f len =
    (presentSymbols f).flatMap (fun x => record x (f.lookup x).toNat) ++ record 0x7E len) ∧
  ∀ n, decimalValue (dec n) = n ∧ (∀ d ∈ dec n, 0x30 ≤ d.toNat ∧ d.toNat ≤ 0x39) ∧
    ((dec n).head? = some 0x30 → dec n = [0x30])

/-- R470: HUF_META_EMIT, with META in range, writes the blob of FREQ and HBITS when it fits META_LEN, and META_OUT_LEN
its length; when it does not fit, OUTPUT_OVERFLOW with META_OUT_LEN = 0, and no byte outside META changes. With META out
of range it is BUS_ERROR, and only STATUS changes. -/
def Obligations.HufMetaEmitWritesBlob : Prop :=
  decode 0x00000006#32 = .ok .hufMetaEmit ∧ ∀ s : State,
    let inRange := s.metaLen = 0 ∨ s.metaAddr.toNat + s.metaLen.toNat ≤ s.memTop.toNat + 1
    let blob := emitBlob s.freq s.hbits.toNat
    (inRange → blob.length ≤ s.metaLen.toNat → exec .hufMetaEmit s = .next
      { s with mem := s.mem.writeBytes s.metaAddr.toNat blob, metaOutLen := BitVec.ofNat 32 blob.length, done := true,
               error := false, errCode := .none, engine := .idle }) ∧
    (inRange → s.metaLen.toNat < blob.length → ∃ m n,
      (∀ a, ¬ (s.metaAddr.toNat ≤ a ∧ a < s.metaAddr.toNat + s.metaLen.toNat) → m.read a = s.mem.read a) ∧
      exec .hufMetaEmit s = .next
        { s with mem := m, draws := n, metaOutLen := 0, errCode := .outputOverflow, error := true, done := false,
                 engine := .idle }) ∧
    (¬ inRange → exec .hufMetaEmit s =
      .next { s with errCode := .busError, error := true, done := false, engine := .idle })

/-- R475: HUF_META_PARSE, with META in range, installs the table and length of a blob that parses, invalidating TREE and
CODE; a malformed one is METADATA_MALFORMED and leaves FREQ, NSYM and HBITS zero. With META out of range it is BUS_ERROR,
and only STATUS changes. Memory is not written in any case. -/
def Obligations.HufMetaParseInstallsTable : Prop :=
  decode 0x00000007#32 = .ok .hufMetaParse ∧ ∀ s : State,
    let inRange := s.metaLen = 0 ∨ s.metaAddr.toNat + s.metaLen.toNat ≤ s.memTop.toNat + 1
    (inRange → ∀ f len, parseBlob (metaBytes s) = some (f, len) →
      ∃ t, exec .hufMetaParse s = .next t ∧ t.nsym.toNat = (presentSymbols f).length ∧
        (∀ x, t.code.lookup x = none) ∧
        t = { s with freq := f, nsym := t.nsym, hbits := BitVec.ofNat 32 len, tree := { nodes := [], root := none },
                     treeValid := false, code := t.code, codeValid := false, done := true, error := false,
                     errCode := .none, engine := .idle }) ∧
    (inRange → parseBlob (metaBytes s) = none →
      ∃ t, exec .hufMetaParse s = .next t ∧ (∀ x, t.freq.lookup x = 0) ∧ (∀ x, t.code.lookup x = none) ∧
        t = { s with freq := t.freq, nsym := 0, hbits := 0, tree := { nodes := [], root := none }, treeValid := false,
                     code := t.code, codeValid := false, done := false, error := true, errCode := .metadataMalformed,
                     engine := .idle }) ∧
    (¬ inRange → exec .hufMetaParse s =
      .next { s with errCode := .busError, error := true, done := false, engine := .idle })

/-- R480: HUF_COMPRESS, when the stream fits DST and the blob fits META, leaves the tables of SRC, the packed stream in
DST, the blob in META and every length register set; nothing else but STATUS changes. -/
def Obligations.HufCompressWritesBoth : Prop :=
  ∀ (s : State) (bits : Bits), precheck .hufCompress s = none →
    let f := freqOf (srcBytes s)
    let blob := emitBlob f bits.length
    encodeBits (deriveCodes (buildTree f)) (srcBytes s) = some bits → bits.length ≤ 2 ^ 32 - 1 →
    ceil8 bits.length ≤ s.dstCap.toNat → blob.length ≤ s.metaLen.toNat →
    ∃ t, exec .hufCompress s = .next t ∧ t.nsym.toNat = (presentSymbols f).length ∧
      t = { s with freq := f, nsym := t.nsym, tree := buildTree f, treeValid := true,
                   code := deriveCodes (buildTree f), codeValid := true,
                   mem := (s.mem.writeBytes s.dstAddr.toNat (packBits bits)).writeBytes s.metaAddr.toNat blob,
                   dstLen := BitVec.ofNat 32 (ceil8 bits.length), dstBits := BitVec.ofNat 32 bits.length,
                   hbits := BitVec.ofNat 32 bits.length, metaOutLen := BitVec.ofNat 32 blob.length, done := true,
                   error := false, errCode := .none, engine := .idle }

/-- R480: HUF_COMPRESS stops with OUTPUT_OVERFLOW when the stream does not fit DST (HBITS unchanged) or, after that,
when the blob does not fit META (HBITS set); the tables are those of SRC, the result lengths 0. -/
def Obligations.HufCompressOverflows : Prop :=
  ∀ (s : State) (bits : Bits), precheck .hufCompress s = none →
    let f := freqOf (srcBytes s)
    let fits := bits.length ≤ 2 ^ 32 - 1 ∧ ceil8 bits.length ≤ s.dstCap.toNat
    encodeBits (deriveCodes (buildTree f)) (srcBytes s) = some bits →
    (¬ fits ∨ s.metaLen.toNat < (emitBlob f bits.length).length) →
    ∃ t, exec .hufCompress s = .next t ∧ (fits → t.hbits.toNat = bits.length) ∧ (¬ fits → t.hbits = s.hbits) ∧
      t = { s with freq := f, nsym := t.nsym, tree := buildTree f, treeValid := true,
                   code := deriveCodes (buildTree f), codeValid := true, mem := t.mem, draws := t.draws,
                   hbits := t.hbits, dstLen := 0, dstBits := 0, metaOutLen := 0, done := false, error := true,
                   errCode := .outputOverflow, engine := .idle }

/-- R481: HUF_COMPRESS never raises SYMBOL_NOT_IN_TABLE: every source byte has a codeword after phase 3. -/
def Obligations.CompressFindsEverySymbol : Prop :=
  (∀ bytes : List Byte, bytes.length ≤ 2 ^ 32 - 1 →
    ∃ bits, encodeBits (deriveCodes (buildTree (freqOf bytes))) bytes = some bits) ∧
  ∀ s t : State, exec .hufCompress s = .next t → t.errCode ≠ .symbolNotInTable

/-- R480: a HUF_COMPRESS that succeeds leaves the state that HUF_FREQ, HUF_BUILD, HUF_CODEGEN, HUF_ENCODE and
HUF_META_EMIT leave when run in sequence on the same registers. -/
def Obligations.CompressIsTheSequence : Prop :=
  ∀ s t : State, exec .hufCompress s = .next t → t.done = true →
    andThen (exec .hufFreq s) (fun s₁ => andThen (exec .hufBuild s₁) (fun s₂ => andThen (exec .hufCodegen s₂)
      (fun s₃ => andThen (exec .hufEncode s₃) (fun s₄ => exec .hufMetaEmit s₄)))) = .next t

/-- R482: HUF_DECOMPRESS of a blob that parses and a stream of its codewords writes the byte string, sets the tables of
the blob, DST_LEN and HBITS, DST_BITS 0; nothing else but STATUS changes. -/
def Obligations.HufDecompressWritesBytes : Prop :=
  ∀ (s : State) (f : Table Word) (len : Nat) (out : List Byte), precheck .hufDecompress s = none →
    parseBlob (metaBytes s) = some (f, len) → len ≤ 8 * s.srcLen.toNat →
    encodeBits (deriveCodes (buildTree f)) out = some (s.mem.readBits s.srcAddr.toNat len) →
    out.length ≤ s.dstCap.toNat →
    ∃ t, exec .hufDecompress s = .next t ∧ t.nsym.toNat = (presentSymbols f).length ∧
      t = { s with freq := f, nsym := t.nsym, hbits := BitVec.ofNat 32 len, tree := buildTree f, treeValid := true,
                   code := deriveCodes (buildTree f), codeValid := true,
                   mem := s.mem.writeBytes s.dstAddr.toNat out, dstLen := BitVec.ofNat 32 out.length, dstBits := 0,
                   done := true, error := false, errCode := .none, engine := .idle }

/-- R482: HUF_DECOMPRESS of a malformed blob is METADATA_MALFORMED and leaves FREQ, NSYM and HBITS zero; of a blob whose
bit length needs more than SRC_LEN bytes it is STREAM_TRUNCATED, with the blob's table and length installed and TREE and
CODE invalid; and when the deserializer fails its error is raised, with TREE and CODE those of the blob. DST_LEN =
DST_BITS = 0. -/
def Obligations.HufDecompressErrors : Prop :=
  ∀ s : State, precheck .hufDecompress s = none →
    (parseBlob (metaBytes s) = none →
      ∃ t, exec .hufDecompress s = .next t ∧ (∀ x, t.freq.lookup x = 0) ∧ (∀ x, t.code.lookup x = none) ∧
        t = { s with freq := t.freq, nsym := 0, hbits := 0, tree := { nodes := [], root := none }, treeValid := false,
                     code := t.code, codeValid := false, mem := t.mem, draws := t.draws, dstLen := 0, dstBits := 0,
                     done := false, error := true, errCode := .metadataMalformed, engine := .idle }) ∧
    (∀ f len, parseBlob (metaBytes s) = some (f, len) → 8 * s.srcLen.toNat < len →
      ∃ t, exec .hufDecompress s = .next t ∧ t.nsym.toNat = (presentSymbols f).length ∧
        (∀ x, t.code.lookup x = none) ∧
        t = { s with freq := f, nsym := t.nsym, hbits := BitVec.ofNat 32 len, tree := { nodes := [], root := none },
                     treeValid := false, code := t.code, codeValid := false, mem := t.mem, draws := t.draws,
                     dstLen := 0, dstBits := 0, done := false, error := true, errCode := .streamTruncated,
                     engine := .idle }) ∧
    (∀ f len e, parseBlob (metaBytes s) = some (f, len) → len ≤ 8 * s.srcLen.toNat →
      decodeLoop (deriveCodes (buildTree f)) s.dstCap.toNat (s.mem.readBits s.srcAddr.toNat len) [] [] = .error e →
      ∃ t, exec .hufDecompress s = .next t ∧ t.nsym.toNat = (presentSymbols f).length ∧
        t = { s with freq := f, nsym := t.nsym, hbits := BitVec.ofNat 32 len, tree := buildTree f, treeValid := true,
                     code := deriveCodes (buildTree f), codeValid := true, mem := t.mem, draws := t.draws,
                     dstLen := 0, dstBits := 0, done := false, error := true, errCode := e, engine := .idle })

/-- R485: the Huffman round trip. If HUF_COMPRESS on S succeeds, HUF_DECOMPRESS on the DST bytes and the blob it wrote
succeeds and writes S. -/
def Obligations.HuffmanRoundTrip : Prop :=
  ∀ s t u : State, s.mem.wf = true → u.mem.wf = true →
    exec .hufCompress s = .next t → t.done = true →
    srcBytes u = t.mem.readBytes t.dstAddr.toNat t.dstLen.toNat →
    metaBytes u = t.mem.readBytes t.metaAddr.toNat t.metaOutLen.toNat →
    s.srcLen.toNat ≤ u.dstCap.toNat → precheck .hufDecompress u = none →
    ∃ v, exec .hufDecompress u = .next v ∧ v.done = true ∧ v.dstLen = s.srcLen ∧
      v.mem.readBytes u.dstAddr.toNat s.srcLen.toNat = srcBytes s

/-- R486: after HUF_COMPRESS, or HUF_ENCODE with the code of its own source's counts, succeeds, DST_BITS is the sum over
the present symbols of codeword length times count. -/
def Obligations.BitLengthIsWeightedSum : Prop :=
  ∀ (i : Instr) (s t : State), i = .hufCompress ∨ (i = .hufEncode ∧ s.code = deriveCodes (buildTree (freqOf (srcBytes s)))) →
    exec i s = .next t → t.done = true →
    t.dstBits.toNat = ((presentSymbols (freqOf (srcBytes s))).map fun x =>
      ((t.code.lookup x).getD []).length * occurrences s.mem s.srcAddr.toNat s.srcLen.toNat x).sum

/-! ## LZW -/

/-- R520: LZW_ENCODE, when the codes fit DST: the packed code stream in DST, the lengths, the dictionary's size and the
overflow notice; nothing else but STATUS changes. -/
def Obligations.LzwEncodeWritesCodes : Prop :=
  ∀ (s : State) (bits : Bits) (d : Dict), precheck .lzwEncode s = none →
    let run := lzwEncodeLoop s.codeWidth.toNat s.dstCap.toNat (srcBytes s) seedDict [] [] false
    run.result = .ok (bits, d) →
    ∃ t, exec .lzwEncode s = .next t ∧ t.dictSize.toNat = d.length ∧
      t.dstLen.toNat = ceil8 bits.length ∧ t.dstBits.toNat = bits.length ∧
      t = { s with mem := s.mem.writeBytes s.dstAddr.toNat (packBits bits), dstLen := t.dstLen, dstBits := t.dstBits,
                   dictSize := t.dictSize, dictOvf := s.dictOvf || run.ovf, done := true, error := false,
                   errCode := .none, engine := .idle }

/-- R520, R501, R522, R510: the code stream of S at width W is that of the greedy parse of S. S is cut into non-empty
fragments; each is in the dictionary of its moment, its extension by the next byte is not, and the extension is then
inserted while there is room; the stream holds each fragment's index in W bits. So it holds m codes, 1 <= m <= |S| for a
non-empty S; the dictionary ends with 256 + min (m - 1) (2^W - 256) distinct fragments (R502); and an insertion was
refused exactly when more than 2^W - 256 were tried. -/
def Obligations.LzwEncodeIsGreedy : Prop :=
  ∀ (width cap : Nat) (bytes : List Byte) (bits : Bits) (d : Dict), 8 ≤ width → width ≤ 16 →
    let run := lzwEncodeLoop width cap bytes seedDict [] [] false
    run.result = .ok (bits, d) →
    ∃ ws : List (List Byte),
      let m := ws.length
      (ws.flatten = bytes ∧ ∀ w ∈ ws, w ≠ []) ∧
      (∀ j, j < m → ws.getD j [] ∈ dictAfter width ws j) ∧
      (∀ j, j + 1 < m → ws.getD j [] ++ (ws.getD (j + 1) []).take 1 ∉ dictAfter width ws j) ∧
      bits = (List.range m).flatMap (fun j => natToBits width ((dictAfter width ws j).idxOf (ws.getD j []))) ∧
      bits.length = m * width ∧ (bytes ≠ [] → 1 ≤ m ∧ m ≤ bytes.length) ∧
      d = dictAfter width ws (m - 1) ∧ d.length = 256 + min (m - 1) (2 ^ width - 256) ∧ d.Nodup ∧
      run.ovf = decide (2 ^ width - 256 < m - 1)

/-- R520: LZW_ENCODE stops with OUTPUT_OVERFLOW and no other error, with DST_LEN = DST_BITS = DICT_SIZE = 0 and DICT_OVF
as the loop left it. Where the codes fit a DST of 2^32 bytes, they are at most 2^32 - 1 bits, and it stops so exactly
when they need more than DST_CAP bytes; where they do not (a stream over 2^32 - 1 bits), it stops so whatever DST_CAP
is. -/
def Obligations.LzwEncodeOverflow : Prop :=
  ∀ s : State, precheck .lzwEncode s = none →
    let run := lzwEncodeLoop s.codeWidth.toNat s.dstCap.toNat (srcBytes s) seedDict [] [] false
    let free := lzwEncodeLoop s.codeWidth.toNat (2 ^ 32) (srcBytes s) seedDict [] [] false
    (∀ e, run.result = .error e →
      ∃ m n, exec .lzwEncode s = .next
        { s with mem := m, draws := n, dstLen := 0, dstBits := 0, dictSize := 0, dictOvf := s.dictOvf || run.ovf,
                 done := false, error := true, errCode := .outputOverflow, engine := .idle }) ∧
    (∀ bits d, free.result = .ok (bits, d) →
      bits.length ≤ 2 ^ 32 - 1 ∧ ((∃ e, run.result = .error e) ↔ s.dstCap.toNat < ceil8 bits.length)) ∧
    ∀ e, free.result = .error e → ∃ e', run.result = .error e'

/-- R520: at width 8 no entry is inserted: the output bytes are the input bytes, and the notice is set for two bytes or
more. -/
def Obligations.LzwWidthEightCopies : Prop :=
  ∀ (cap : Nat) (bytes : List Byte), bytes.length ≤ cap → bytes.length ≤ 2 ^ 29 - 1 →
    let run := lzwEncodeLoop 8 cap bytes seedDict [] [] false
    ∃ bits, run.result = .ok (bits, seedDict) ∧ packBits bits = bytes ∧ run.ovf = decide (2 ≤ bytes.length)

/-- R530: LZW_DECODE, when the stream decodes and its output fits DST: the output bytes in DST, DST_LEN, DST_BITS 0 and
the dictionary's size; nothing else but STATUS changes. When the decoding fails, its error is raised, with DST_LEN =
DST_BITS = DICT_SIZE = 0. -/
def Obligations.LzwDecodeWritesBytes : Prop :=
  ∀ s : State, precheck .lzwDecode s = none →
    let run := lzwDecodeBits s.codeWidth.toNat s.dstCap.toNat (s.mem.readBits s.srcAddr.toNat s.srcLen.toNat)
    (∀ out d, run = .ok (out, d) →
      ∃ t, exec .lzwDecode s = .next t ∧ t.dstLen.toNat = out.length ∧ t.dictSize.toNat = d.length ∧
        t = { s with mem := s.mem.writeBytes s.dstAddr.toNat out, dstLen := t.dstLen, dstBits := 0,
                     dictSize := t.dictSize, done := true, error := false, errCode := .none, engine := .idle }) ∧
    ∀ e, run = .error e →
      ∃ m n, exec .lzwDecode s = .next
        { s with mem := m, draws := n, dstLen := 0, dstBits := 0, dictSize := 0, done := false, error := true,
                 errCode := e, engine := .idle }

/-- R531: with N = SRC_LEN bits and m = N div W codes, LZW_DECODE raises CORRUPT_LZW_LENGTH when more than 7 bits are
left over or one of them is 1, before any code is decoded; otherwise it ignores them and decodes the m codes, code j
being bits j W to j W + W - 1, most significant first. -/
def Obligations.LzwDecodeLength : Prop :=
  ∀ s : State, precheck .lzwDecode s = none →
    let width := s.codeWidth.toNat
    let b := s.mem.readBits s.srcAddr.toNat s.srcLen.toNat
    let m := s.srcLen.toNat / width
    let bad := 7 < s.srcLen.toNat % width ∨ ∃ j, m * width ≤ j ∧ b[j]? = some true
    (bad → ∃ k n, exec .lzwDecode s = .next
      { s with mem := k, draws := n, dstLen := 0, dstBits := 0, dictSize := 0, done := false, error := true,
               errCode := .corruptLzwLength, engine := .idle }) ∧
    (¬ bad → lzwDecodeBits width s.dstCap.toNat b = lzwDecodeBits width s.dstCap.toNat (b.take (m * width)) ∧
      ∃ codes : List Nat, codes.length = m ∧
        lzwDecodeBits width s.dstCap.toNat b = lzwDecodeCodes width s.dstCap.toNat codes ∧
        ∀ j i, j < m → i < width → codes.getD j 0 < 2 ^ width ∧
          b[j * width + i]? = some ((codes.getD j 0).testBit (width - 1 - i)))

/-- R530, R532: decoding code by code, in stream order. No code gives nothing and the seed. A first code of 256 or more is
CORRUPT_LZW_CODE, a smaller one gives its byte. An error stays whatever codes follow. Let the codes `pre` give `out0`, and
the codes `pre`, j give `out` with dictionary `d`, so that the previous fragment is what j added. Then one more code k is
CORRUPT_LZW_CODE when k > |d|; otherwise its fragment is d[k] when k < |d|, and the previous fragment with its own first
byte when k = |d|. The fragment is appended to the output, or is OUTPUT_OVERFLOW when it does not fit, and the previous
fragment with the new one's first byte becomes a dictionary entry while |d| < 2^W (R501). -/
def Obligations.LzwDecodeCodeByCode : Prop :=
  ∀ (width cap k : Nat),
    lzwDecodeCodes width cap [] = .ok ([], seedDict) ∧
    (256 ≤ k → lzwDecodeCodes width cap [k] = .error .corruptLzwCode) ∧
    (k < 256 → 1 ≤ cap → lzwDecodeCodes width cap [k] = .ok ([BitVec.ofNat 8 k], seedDict)) ∧
    (k < 256 → cap = 0 → lzwDecodeCodes width cap [k] = .error .outputOverflow) ∧
    (∀ (codes : List Nat) (e : ErrCode), lzwDecodeCodes width cap codes = .error e →
      lzwDecodeCodes width cap (codes ++ [k]) = .error e) ∧
    ∀ (pre : List Nat) (j : Nat) (out0 out : List Byte) (d0 d : Dict),
      lzwDecodeCodes width cap pre = .ok (out0, d0) → lzwDecodeCodes width cap (pre ++ [j]) = .ok (out, d) →
      let prev := out.drop out0.length
      let more := lzwDecodeCodes width cap (pre ++ [j, k])
      let gives := fun (cur : List Byte) =>
        ((out ++ cur).length ≤ cap →
          more = .ok (out ++ cur, if d.length < 2 ^ width then d ++ [prev ++ cur.take 1] else d)) ∧
        (cap < (out ++ cur).length → more = .error .outputOverflow)
      (d.length < k → more = .error .corruptLzwCode) ∧ (∀ cur, d[k]? = some cur → gives cur) ∧
      (k = d.length → gives (prev ++ prev.take 1))

/-- R504: the decoder, given the encoder's code sequence, ends with the encoder's dictionary, entry for entry, and the
encoder's input, whether it reads the exact bits or the packed bytes with their padding. -/
def Obligations.LzwDecoderMirrorsEncoder : Prop :=
  ∀ (width cap cap' : Nat) (bytes : List Byte) (bits : Bits) (d : Dict), 8 ≤ width → width ≤ 16 →
    (lzwEncodeLoop width cap bytes seedDict [] [] false).result = .ok (bits, d) → bytes.length ≤ cap' →
    lzwDecodeBits width cap' bits = .ok (bytes, d) ∧
    lzwDecodeBits width cap' (unpackBytes (packBits bits)) = .ok (bytes, d)

/-- R535: the LZW round trip. If LZW_ENCODE on S succeeds with b bits in n bytes, LZW_DECODE with the same width on
those bytes, with SRC_LEN = b or 8n, succeeds, writes S and ends with the same DICT_SIZE. -/
def Obligations.LzwRoundTrip : Prop :=
  ∀ s t u : State, s.mem.wf = true → u.mem.wf = true →
    exec .lzwEncode s = .next t → t.done = true → u.codeWidth = s.codeWidth →
    u.mem.readBytes u.srcAddr.toNat t.dstLen.toNat = t.mem.readBytes t.dstAddr.toNat t.dstLen.toNat →
    (u.srcLen = t.dstBits ∨ u.srcLen.toNat = 8 * t.dstLen.toNat) → s.srcLen.toNat ≤ u.dstCap.toNat →
    precheck .lzwDecode u = none →
    ∃ v, exec .lzwDecode u = .next v ∧ v.done = true ∧ v.dstLen = s.srcLen ∧ v.dictSize = t.dictSize ∧
      v.mem.readBytes u.dstAddr.toNat s.srcLen.toNat = srcBytes s
end

