-- ==== Sys2Proof/Laws/Memory.lean ====
section
/-! SUPPORT. Sys2Proof/Laws/Memory.lean: data memory (20_memory.md R205, R206): a read after a write, the frame of a
write, and that every memory operation keeps the canonical form and the address range. -/

namespace Sys2Proof.Machine.Memory

theorem read_place_ne (a b : Nat) (v : Byte) (m : Memory) (h : b ≠ a) : read (place a v m) b = read m b := by
  unfold place
  split
  · rfl
  · simp [read, h]

/-- A write leaves every other address alone. -/
theorem read_write_ne (m : Memory) (a b : Nat) (v : Byte) (h : b ≠ a) : read (write m a v) b = read m b := by
  induction m with
  | nil => simp [write, read_place_ne, h]
  | cons c rest ih =>
    obtain ⟨x, w⟩ := c
    unfold write
    split
    · exact read_place_ne _ _ _ _ h
    · split
      · next e => subst e; rw [read_place_ne _ _ _ _ h]; simp [read, h]
      · simp [read, ih]

/-- Every cell of a canonical memory lies above a bound. -/
theorem read_of_all_above {m : Memory} {a : Nat} (h : m.all (fun c => a < c.1) = true) : read m a = unlisted := by
  induction m with
  | nil => rfl
  | cons c rest ih =>
    obtain ⟨x, w⟩ := c
    simp only [List.all_cons, Bool.and_eq_true, decide_eq_true_eq] at h
    simp [read, Nat.ne_of_lt h.1, ih h.2]

theorem read_place_same (a : Nat) (v : Byte) (m : Memory) (h : m.all (fun c => a < c.1) = true) :
    read (place a v m) a = v := by
  unfold place
  split
  · next e => rw [e]; exact read_of_all_above h
  · simp [read]

theorem wf_cons {a : Nat} {v : Byte} {m : Memory} :
    wf ((a, v) :: m) = true ↔ m.all (fun c => a < c.1) = true ∧ v ≠ unlisted ∧ wf m = true := by
  simp [wf, and_assoc]

theorem wf_place {a : Nat} {v : Byte} {m : Memory} (hm : wf m = true) (h : m.all (fun c => a < c.1) = true) :
    wf (place a v m) = true := by
  unfold place
  split
  · exact hm
  · next e => exact wf_cons.2 ⟨h, e, hm⟩

theorem all_above_trans {m : Memory} {a b : Nat} (hab : a < b) (h : m.all (fun c => b < c.1) = true) :
    m.all (fun c => a < c.1) = true := by
  simp only [List.all_eq_true, decide_eq_true_eq] at *
  exact fun c hc => hab.trans (h c hc)

theorem all_place {a : Nat} {v : Byte} {m : Memory} {p : Host.Cell → Bool} (hm : m.all p = true)
    (ha : v ≠ unlisted → p (a, v) = true) : (place a v m).all p = true := by
  unfold place
  split
  · exact hm
  · next e => simp [ha e, hm]

/-- A write adds at most its own cell. -/
theorem all_write {m : Memory} {a : Nat} {v : Byte} {p : Host.Cell → Bool} (hm : m.all p = true)
    (ha : v ≠ unlisted → p (a, v) = true) : (write m a v).all p = true := by
  induction m with
  | nil => exact all_place rfl ha
  | cons c rest ih =>
    obtain ⟨x, w⟩ := c
    have hr : rest.all p = true := by simp only [List.all_cons, Bool.and_eq_true] at hm; exact hm.2
    have hc : p (x, w) = true := by simp only [List.all_cons, Bool.and_eq_true] at hm; exact hm.1
    unfold write
    split
    · exact all_place hm ha
    · split
      · exact all_place hr ha
      · simp only [List.all_cons, hc, Bool.true_and]; exact ih hr

/-- A write keeps the canonical form. -/
theorem wf_write {m : Memory} (a : Nat) (v : Byte) (hm : wf m = true) : wf (write m a v) = true := by
  induction m with
  | nil => exact wf_place rfl rfl
  | cons c rest ih =>
    obtain ⟨x, w⟩ := c
    obtain ⟨hall, hw, hr⟩ := wf_cons.1 hm
    unfold write
    split
    · next hlt =>
      refine wf_place hm ?_
      simp only [List.all_cons, Bool.and_eq_true, decide_eq_true_eq]
      exact ⟨hlt, all_above_trans hlt hall⟩
    · split
      · next e => subst e; exact wf_place hr hall
      · next hge hne =>
        exact wf_cons.2 ⟨all_write hall fun _ => by simp only [decide_eq_true_eq]; omega, hw, ih hr⟩

/-- A read gives what the last write to its address put there. -/
theorem read_write_same {m : Memory} (a : Nat) (v : Byte) (hm : wf m = true) : read (write m a v) a = v := by
  induction m with
  | nil => exact read_place_same _ _ _ rfl
  | cons c rest ih =>
    obtain ⟨x, w⟩ := c
    obtain ⟨hall, -, hr⟩ := wf_cons.1 hm
    unfold write
    split
    · next hlt =>
      refine read_place_same _ _ _ ?_
      simp only [List.all_cons, Bool.and_eq_true, decide_eq_true_eq]
      exact ⟨hlt, all_above_trans hlt hall⟩
    · split
      · next e => subst e; exact read_place_same _ _ _ hall
      · next hge hne => simp [read, hne, ih hr]

theorem writeBytes_append (m : Memory) (a : Nat) (xs ys : List Byte) :
    writeBytes m a (xs ++ ys) = writeBytes (writeBytes m a xs) (a + xs.length) ys := by
  induction xs generalizing m a with
  | nil => rfl
  | cons v vs ih =>
    simp only [List.cons_append, writeBytes, List.length_cons, ih]
    congr 1
    omega

/-- Writing a byte string keeps the canonical form. -/
theorem wf_writeBytes {m : Memory} (a : Nat) (bs : List Byte) (hm : wf m = true) : wf (writeBytes m a bs) = true := by
  induction bs generalizing m a with
  | nil => exact hm
  | cons v vs ih => exact ih _ (wf_write _ _ hm)

/-- Writing a byte string lists no address outside it. -/
theorem all_writeBytes {m : Memory} {a : Nat} {bs : List Byte} {q : Nat → Bool} (hm : m.all (fun c => q c.1) = true)
    (h : ∀ i, i < bs.length → q (a + i) = true) : (writeBytes m a bs).all (fun c => q c.1) = true := by
  induction bs generalizing m a with
  | nil => exact hm
  | cons v vs ih =>
    refine ih (all_write hm fun _ => h 0 (by simp)) fun i hi => ?_
    have := h (i + 1) (by simpa using hi)
    rwa [show a + (i + 1) = a + 1 + i by omega] at this

/-- Writing a byte string leaves every address outside it alone. -/
theorem read_writeBytes_outside (m : Memory) (a : Nat) (bs : List Byte) (b : Nat) (h : b < a ∨ a + bs.length ≤ b) :
    read (writeBytes m a bs) b = read m b := by
  induction bs generalizing m a with
  | nil => rfl
  | cons v vs ih =>
    simp only [List.length_cons] at h
    rw [writeBytes, ih _ _ (by omega), read_write_ne _ _ _ _ (by omega)]

/-- Reading inside a byte string just written. -/
theorem read_writeBytes_inside {m : Memory} (a : Nat) (bs : List Byte) (i : Nat) (hi : i < bs.length)
    (hm : wf m = true) : read (writeBytes m a bs) (a + i) = bs[i] := by
  induction bs generalizing m a i with
  | nil => simp at hi
  | cons v vs ih =>
    cases i with
    | zero =>
      rw [writeBytes, read_writeBytes_outside _ _ _ _ (by omega)]
      exact read_write_same _ _ hm
    | succ i =>
      have := ih (a + 1) i (by simpa using hi) (wf_write a v hm)
      rw [writeBytes, show a + (i + 1) = a + 1 + i by omega, this]
      rfl

@[simp] theorem readBytes_length (m : Memory) (a n : Nat) : (readBytes m a n).length = n := by simp [readBytes]

theorem readBytes_getElem (m : Memory) (a n i : Nat) (h : i < (readBytes m a n).length) :
    (readBytes m a n)[i] = read m (a + i) := by simp [readBytes]

/-- Reading back a byte string just written. -/
theorem readBytes_writeBytes_same {m : Memory} (a : Nat) (bs : List Byte) (hm : wf m = true) :
    readBytes (writeBytes m a bs) a bs.length = bs := by
  apply List.ext_getElem
  · simp
  · intro i h₁ h₂
    rw [readBytes_getElem, read_writeBytes_inside _ _ _ h₂ hm]

/-- A byte string is read alike from two memories that agree on its addresses. -/
theorem readBytes_congr {m m' : Memory} {a n : Nat} (h : ∀ i, i < n → read m (a + i) = read m' (a + i)) :
    readBytes m a n = readBytes m' a n := by
  apply List.ext_getElem
  · simp
  · intro i h₁ _
    rw [readBytes_getElem, readBytes_getElem]
    exact h i (by simpa using h₁)

/-- A write elsewhere does not change a byte string. -/
theorem readBytes_writeBytes_disjoint (m : Memory) (a : Nat) (bs : List Byte) (b n : Nat)
    (h : n = 0 ∨ b + n ≤ a ∨ a + bs.length ≤ b) : readBytes (writeBytes m a bs) b n = readBytes m b n :=
  readBytes_congr fun i hi => read_writeBytes_outside _ _ _ _ (by omega)

end Sys2Proof.Machine.Memory
end

