-- ==== Sys2Proof/Laws/Bits.lean ====
section
/-! SUPPORT. Sys2Proof/Laws/Bits.lean: bit strings as numbers (43_lzw.md R510), and packing (20_memory.md R210, R211)
with its inverse. -/

namespace Sys2Proof.Machine

theorem ceil8_zero : ceil8 0 = 0 := rfl

theorem ceil8_add_eight (n : Nat) : ceil8 (n + 8) = ceil8 n + 1 := by simp only [ceil8]; omega

theorem le_ceil8 (n : Nat) : n ≤ 8 * ceil8 n := by simp only [ceil8]; omega

theorem ceil8_mono {m n : Nat} (h : m ≤ n) : ceil8 m ≤ ceil8 n := by simp only [ceil8]; omega

@[simp] theorem natToBits_length (w k : Nat) : (natToBits w k).length = w := by simp [natToBits]

theorem natToBits_getElem (w k j : Nat) (h : j < (natToBits w k).length) :
    (natToBits w k)[j] = k.testBit (w - 1 - j) := by simp [natToBits]

theorem bitsToNat_append_single (b : Bits) (x : Bool) : bitsToNat (b ++ [x]) = 2 * bitsToNat b + x.toNat := by
  simp [bitsToNat, List.foldl_append]

/-- A bit string of length `n` stands for a number below `2 ^ n`. -/
theorem bitsToNat_lt (b : Bits) : bitsToNat b < 2 ^ b.length := by
  induction b using List.reverseRecOn with
  | nil => simp [bitsToNat]
  | append_singleton b x ih =>
    rw [bitsToNat_append_single, List.length_append, List.length_singleton, pow_succ]
    have := Bool.toNat_le x
    omega

/-- Bit `i` of the number, counted from the right, is the bit string's. -/
theorem testBit_bitsToNat (b : Bits) (i : Nat) (h : i < b.length) :
    (bitsToNat b).testBit i = b[b.length - 1 - i] := by
  induction b using List.reverseRecOn generalizing i with
  | nil => simp at h
  | append_singleton b x ih =>
    rw [bitsToNat_append_single]
    cases i with
    | zero => cases x <;> simp [Nat.testBit_zero]
    | succ i =>
      have hi : i < b.length := by simpa using h
      rw [Nat.testBit_succ, show (2 * bitsToNat b + x.toNat) / 2 = bitsToNat b by
        have := Bool.toNat_le x; omega, ih i hi]
      simp only [List.length_append, List.length_singleton]
      rw [List.getElem_append_left (by omega)]
      congr 1
      omega

theorem natToBits_succ (w k : Nat) : natToBits (w + 1) k = natToBits w (k / 2) ++ [k.testBit 0] := by
  apply List.ext_getElem
  · simp
  · intro i h₁ h₂
    rw [natToBits_getElem]
    by_cases hi : i < w
    · rw [List.getElem_append_left (by simpa using hi), natToBits_getElem, Nat.testBit_div_two]
      congr 1
      omega
    · have : i = w := by simp at h₁; omega
      subst this
      simp

/-- R510: a `w`-bit code survives its binary form. -/
theorem bitsToNat_natToBits (w k : Nat) (h : k < 2 ^ w) : bitsToNat (natToBits w k) = k := by
  induction w generalizing k with
  | zero => simp at h; subst h; rfl
  | succ w ih =>
    rw [natToBits_succ, bitsToNat_append_single, ih (k / 2) (by rw [pow_succ] at h; omega), Nat.testBit_zero]
    rcases Nat.mod_two_eq_zero_or_one k with h | h <;> simp [h] <;> omega

theorem natToBits_bitsToNat (b : Bits) : natToBits b.length (bitsToNat b) = b := by
  apply List.ext_getElem
  · simp
  · intro i h₁ h₂
    rw [natToBits_getElem, testBit_bitsToNat _ _ (by omega)]
    congr 1
    omega

@[simp] theorem padTo_length (n : Nat) (b : Bits) : (padTo n b).length = n := by simp [padTo]; omega

theorem padTo_getElem (n : Nat) (b : Bits) (i : Nat) (h : i < (padTo n b).length) :
    (padTo n b)[i] = b.getD i false := by
  simp only [padTo_length] at h
  by_cases hb : i < b.length
  · simp [padTo, hb, h]
  · simp [padTo, List.getElem_append, hb]

theorem padTo_of_length {n : Nat} {b : Bits} (h : b.length = n) : padTo n b = b := by
  simp [padTo, ← h]

@[simp] theorem packBytes_length (n : Nat) (b : Bits) : (packBytes n b).length = n := by
  induction n generalizing b with
  | zero => rfl
  | succ n ih => simp [packBytes, ih]

theorem packBytes_getElem (n : Nat) (b : Bits) (k : Nat) (h : k < (packBytes n b).length) :
    (packBytes n b)[k] = packByte ((b.drop (8 * k)).take 8) := by
  induction n generalizing b k with
  | zero => simp at h
  | succ n ih =>
    cases k with
    | zero => simp [packBytes]
    | succ k =>
      have hk : k < (packBytes n (b.drop 8)).length := by simpa using h
      have := ih (b.drop 8) k hk
      simp only [packBytes, List.getElem_cons_succ, this, List.drop_drop]
      congr 3
      omega

/-- R210: the number of bytes a stream packs into. -/
@[simp] theorem packBits_length (b : Bits) : (packBits b).length = ceil8 b.length := by simp [packBits]

@[simp] theorem packBits_nil : packBits [] = [] := rfl

/-- R210: bit `7 - i` of a packed byte is bit `i` of its bits, and 0 after the last. -/
theorem packByte_getLsbD (b : Bits) (i : Nat) (h : i < 8) : (packByte b).getLsbD (7 - i) = b.getD i false := by
  have hlt : bitsToNat (padTo 8 b) < 2 ^ 8 := by simpa using bitsToNat_lt (padTo 8 b)
  simp only [packByte, BitVec.getLsbD_ofNat]
  rw [testBit_bitsToNat _ _ (by simp; omega)]
  simp only [padTo_getElem, padTo_length]
  rw [show 8 - 1 - (7 - i) = i by omega]
  simp [show 7 - i < 8 by omega]

/-- The eight bits of a packed byte are its bits with zero padding. -/
theorem natToBits_packByte (b : Bits) : natToBits 8 (packByte b).toNat = padTo 8 b := by
  have h : bitsToNat (padTo 8 b) < 2 ^ 8 := by simpa using bitsToNat_lt (padTo 8 b)
  have e := natToBits_bitsToNat (padTo 8 b)
  rw [padTo_length] at e
  rw [packByte, BitVec.toNat_ofNat, Nat.mod_eq_of_lt h, e]

@[simp] theorem unpackBytes_nil : unpackBytes [] = [] := rfl

theorem unpackBytes_cons (v : Byte) (bs : List Byte) : unpackBytes (v :: bs) = natToBits 8 v.toNat ++ unpackBytes bs := by
  simp [unpackBytes]

@[simp] theorem unpackBytes_length (bs : List Byte) : (unpackBytes bs).length = 8 * bs.length := by
  induction bs with
  | nil => rfl
  | cons v vs ih => rw [unpackBytes_cons]; simp [ih]; omega

/-- Bit `j` of an unpacked byte string is bit `7 - j mod 8` of byte `j div 8` (R211). -/
theorem unpackBytes_getElem (bs : List Byte) (j : Nat) (h : j < (unpackBytes bs).length)
    (hb : j / 8 < bs.length) : (unpackBytes bs)[j] = (bs[j / 8]).getLsbD (7 - j % 8) := by
  induction bs generalizing j with
  | nil => simp at h
  | cons v vs ih =>
    simp only [unpackBytes_cons]
    by_cases hj : j < 8
    · rw [List.getElem_append_left (by simpa using hj), natToBits_getElem]
      simp [Nat.div_eq_of_lt hj, Nat.mod_eq_of_lt hj, BitVec.getLsbD]
    · rw [List.getElem_append_right (by simpa using hj)]
      simp only [natToBits_length]
      have e : j / 8 = (j - 8) / 8 + 1 := by omega
      have hb' : (j - 8) / 8 < vs.length := by simp [e] at hb; exact hb
      rw [ih (j - 8) (by simp; omega) hb']
      simp only [e, List.getElem_cons_succ]
      congr 1
      omega

theorem unpackBytes_packBytes (n : Nat) (b : Bits) (h : n = ceil8 b.length) :
    unpackBytes (packBytes n b) = b ++ List.replicate (8 * n - b.length) false := by
  induction n generalizing b with
  | zero =>
    have : b.length = 0 := by simp only [ceil8] at h; omega
    simp [packBytes, List.length_eq_zero_iff.1 this]
  | succ n ih =>
    rw [packBytes, unpackBytes_cons, natToBits_packByte]
    by_cases hb : b.length ≤ 8
    · have hn : n = 0 := by simp only [ceil8] at h; omega
      subst hn
      simp [packBytes, padTo, List.take_of_length_le hb]
    · rw [ih (b.drop 8) (by simp only [ceil8, List.length_drop] at *; omega),
        padTo_of_length (by simp; omega), ← List.append_assoc, List.take_append_drop]
      congr 2
      simp
      omega

/-- R210, R211: unpacking a packed stream gives the stream and its zero padding. -/
theorem unpackBytes_packBits (b : Bits) :
    unpackBytes (packBits b) = b ++ List.replicate (8 * ceil8 b.length - b.length) false :=
  unpackBytes_packBytes _ _ rfl

@[simp] theorem readBits_length (m : Memory) (a n : Nat) : (m.readBits a n).length = n := by
  simp only [Memory.readBits, List.length_take, unpackBytes_length, Memory.readBytes_length]
  have := le_ceil8 n
  omega

end Sys2Proof.Machine
end

