-- ==== Sys2Proof/Laws/State.lean ====
section
/-! SUPPORT. Sys2Proof/Laws/State.lean: what each named update of the state leaves in each field, one lemma per field
per update, so that no later proof unfolds a record update. -/

namespace Sys2Proof.Machine.State

/-! ### start -/

@[simp] theorem start_engine (s : State) : s.start.engine = .busy := rfl
@[simp] theorem start_irqEn (s : State) : s.start.irqEn = s.irqEn := rfl
@[simp] theorem start_done (s : State) : s.start.done = false := rfl
@[simp] theorem start_error (s : State) : s.start.error = false := rfl
@[simp] theorem start_dictOvf (s : State) : s.start.dictOvf = false := rfl
@[simp] theorem start_errCode (s : State) : s.start.errCode = .none := rfl
@[simp] theorem start_treeValid (s : State) : s.start.treeValid = s.treeValid := rfl
@[simp] theorem start_codeValid (s : State) : s.start.codeValid = s.codeValid := rfl
@[simp] theorem start_cmd (s : State) : s.start.cmd = s.cmd := rfl
@[simp] theorem start_codeWidth (s : State) : s.start.codeWidth = s.codeWidth := rfl
@[simp] theorem start_srcAddr (s : State) : s.start.srcAddr = s.srcAddr := rfl
@[simp] theorem start_srcLen (s : State) : s.start.srcLen = s.srcLen := rfl
@[simp] theorem start_dstAddr (s : State) : s.start.dstAddr = s.dstAddr := rfl
@[simp] theorem start_dstCap (s : State) : s.start.dstCap = s.dstCap := rfl
@[simp] theorem start_dstLen (s : State) : s.start.dstLen = s.dstLen := rfl
@[simp] theorem start_dstBits (s : State) : s.start.dstBits = s.dstBits := rfl
@[simp] theorem start_metaAddr (s : State) : s.start.metaAddr = s.metaAddr := rfl
@[simp] theorem start_metaLen (s : State) : s.start.metaLen = s.metaLen := rfl
@[simp] theorem start_metaOutLen (s : State) : s.start.metaOutLen = s.metaOutLen := rfl
@[simp] theorem start_hbits (s : State) : s.start.hbits = s.hbits := rfl
@[simp] theorem start_nsym (s : State) : s.start.nsym = s.nsym := rfl
@[simp] theorem start_dictSize (s : State) : s.start.dictSize = s.dictSize := rfl
@[simp] theorem start_codeSel (s : State) : s.start.codeSel = s.codeSel := rfl
@[simp] theorem start_freq (s : State) : s.start.freq = s.freq := rfl
@[simp] theorem start_tree (s : State) : s.start.tree = s.tree := rfl
@[simp] theorem start_code (s : State) : s.start.code = s.code := rfl
@[simp] theorem start_memTop (s : State) : s.start.memTop = s.memTop := rfl
@[simp] theorem start_mem (s : State) : s.start.mem = s.mem := rfl
@[simp] theorem start_inputs (s : State) : s.start.inputs = s.inputs := rfl
@[simp] theorem start_recorded (s : State) : s.start.recorded = s.recorded := rfl
@[simp] theorem start_draws (s : State) : s.start.draws = s.draws := rfl

/-! ### issue -/

@[simp] theorem issue_engine (s : State) (w : Word) : (s.issue w).engine = .busy := rfl
@[simp] theorem issue_irqEn (s : State) (w : Word) : (s.issue w).irqEn = s.irqEn := rfl
@[simp] theorem issue_done (s : State) (w : Word) : (s.issue w).done = false := rfl
@[simp] theorem issue_error (s : State) (w : Word) : (s.issue w).error = false := rfl
@[simp] theorem issue_dictOvf (s : State) (w : Word) : (s.issue w).dictOvf = false := rfl
@[simp] theorem issue_errCode (s : State) (w : Word) : (s.issue w).errCode = .none := rfl
@[simp] theorem issue_treeValid (s : State) (w : Word) : (s.issue w).treeValid = s.treeValid := rfl
@[simp] theorem issue_codeValid (s : State) (w : Word) : (s.issue w).codeValid = s.codeValid := rfl
@[simp] theorem issue_cmd (s : State) (w : Word) : (s.issue w).cmd = w := rfl
@[simp] theorem issue_codeWidth (s : State) (w : Word) : (s.issue w).codeWidth = s.codeWidth := rfl
@[simp] theorem issue_srcAddr (s : State) (w : Word) : (s.issue w).srcAddr = s.srcAddr := rfl
@[simp] theorem issue_srcLen (s : State) (w : Word) : (s.issue w).srcLen = s.srcLen := rfl
@[simp] theorem issue_dstAddr (s : State) (w : Word) : (s.issue w).dstAddr = s.dstAddr := rfl
@[simp] theorem issue_dstCap (s : State) (w : Word) : (s.issue w).dstCap = s.dstCap := rfl
@[simp] theorem issue_dstLen (s : State) (w : Word) : (s.issue w).dstLen = s.dstLen := rfl
@[simp] theorem issue_dstBits (s : State) (w : Word) : (s.issue w).dstBits = s.dstBits := rfl
@[simp] theorem issue_metaAddr (s : State) (w : Word) : (s.issue w).metaAddr = s.metaAddr := rfl
@[simp] theorem issue_metaLen (s : State) (w : Word) : (s.issue w).metaLen = s.metaLen := rfl
@[simp] theorem issue_metaOutLen (s : State) (w : Word) : (s.issue w).metaOutLen = s.metaOutLen := rfl
@[simp] theorem issue_hbits (s : State) (w : Word) : (s.issue w).hbits = s.hbits := rfl
@[simp] theorem issue_nsym (s : State) (w : Word) : (s.issue w).nsym = s.nsym := rfl
@[simp] theorem issue_dictSize (s : State) (w : Word) : (s.issue w).dictSize = s.dictSize := rfl
@[simp] theorem issue_codeSel (s : State) (w : Word) : (s.issue w).codeSel = s.codeSel := rfl
@[simp] theorem issue_freq (s : State) (w : Word) : (s.issue w).freq = s.freq := rfl
@[simp] theorem issue_tree (s : State) (w : Word) : (s.issue w).tree = s.tree := rfl
@[simp] theorem issue_code (s : State) (w : Word) : (s.issue w).code = s.code := rfl
@[simp] theorem issue_memTop (s : State) (w : Word) : (s.issue w).memTop = s.memTop := rfl
@[simp] theorem issue_mem (s : State) (w : Word) : (s.issue w).mem = s.mem := rfl
@[simp] theorem issue_inputs (s : State) (w : Word) : (s.issue w).inputs = s.inputs := rfl
@[simp] theorem issue_recorded (s : State) (w : Word) : (s.issue w).recorded = s.recorded := rfl
@[simp] theorem issue_draws (s : State) (w : Word) : (s.issue w).draws = s.draws := rfl

/-! ### raiseError -/

@[simp] theorem raiseError_engine (s : State) (e : ErrCode) : (s.raiseError e).engine = .idle := rfl
@[simp] theorem raiseError_irqEn (s : State) (e : ErrCode) : (s.raiseError e).irqEn = s.irqEn := rfl
@[simp] theorem raiseError_done (s : State) (e : ErrCode) : (s.raiseError e).done = false := rfl
@[simp] theorem raiseError_error (s : State) (e : ErrCode) : (s.raiseError e).error = true := rfl
@[simp] theorem raiseError_dictOvf (s : State) (e : ErrCode) : (s.raiseError e).dictOvf = s.dictOvf := rfl
@[simp] theorem raiseError_errCode (s : State) (e : ErrCode) : (s.raiseError e).errCode = e := rfl
@[simp] theorem raiseError_treeValid (s : State) (e : ErrCode) : (s.raiseError e).treeValid = s.treeValid := rfl
@[simp] theorem raiseError_codeValid (s : State) (e : ErrCode) : (s.raiseError e).codeValid = s.codeValid := rfl
@[simp] theorem raiseError_cmd (s : State) (e : ErrCode) : (s.raiseError e).cmd = s.cmd := rfl
@[simp] theorem raiseError_codeWidth (s : State) (e : ErrCode) : (s.raiseError e).codeWidth = s.codeWidth := rfl
@[simp] theorem raiseError_srcAddr (s : State) (e : ErrCode) : (s.raiseError e).srcAddr = s.srcAddr := rfl
@[simp] theorem raiseError_srcLen (s : State) (e : ErrCode) : (s.raiseError e).srcLen = s.srcLen := rfl
@[simp] theorem raiseError_dstAddr (s : State) (e : ErrCode) : (s.raiseError e).dstAddr = s.dstAddr := rfl
@[simp] theorem raiseError_dstCap (s : State) (e : ErrCode) : (s.raiseError e).dstCap = s.dstCap := rfl
@[simp] theorem raiseError_dstLen (s : State) (e : ErrCode) : (s.raiseError e).dstLen = s.dstLen := rfl
@[simp] theorem raiseError_dstBits (s : State) (e : ErrCode) : (s.raiseError e).dstBits = s.dstBits := rfl
@[simp] theorem raiseError_metaAddr (s : State) (e : ErrCode) : (s.raiseError e).metaAddr = s.metaAddr := rfl
@[simp] theorem raiseError_metaLen (s : State) (e : ErrCode) : (s.raiseError e).metaLen = s.metaLen := rfl
@[simp] theorem raiseError_metaOutLen (s : State) (e : ErrCode) : (s.raiseError e).metaOutLen = s.metaOutLen := rfl
@[simp] theorem raiseError_hbits (s : State) (e : ErrCode) : (s.raiseError e).hbits = s.hbits := rfl
@[simp] theorem raiseError_nsym (s : State) (e : ErrCode) : (s.raiseError e).nsym = s.nsym := rfl
@[simp] theorem raiseError_dictSize (s : State) (e : ErrCode) : (s.raiseError e).dictSize = s.dictSize := rfl
@[simp] theorem raiseError_codeSel (s : State) (e : ErrCode) : (s.raiseError e).codeSel = s.codeSel := rfl
@[simp] theorem raiseError_freq (s : State) (e : ErrCode) : (s.raiseError e).freq = s.freq := rfl
@[simp] theorem raiseError_tree (s : State) (e : ErrCode) : (s.raiseError e).tree = s.tree := rfl
@[simp] theorem raiseError_code (s : State) (e : ErrCode) : (s.raiseError e).code = s.code := rfl
@[simp] theorem raiseError_memTop (s : State) (e : ErrCode) : (s.raiseError e).memTop = s.memTop := rfl
@[simp] theorem raiseError_mem (s : State) (e : ErrCode) : (s.raiseError e).mem = s.mem := rfl
@[simp] theorem raiseError_inputs (s : State) (e : ErrCode) : (s.raiseError e).inputs = s.inputs := rfl
@[simp] theorem raiseError_recorded (s : State) (e : ErrCode) : (s.raiseError e).recorded = s.recorded := rfl
@[simp] theorem raiseError_draws (s : State) (e : ErrCode) : (s.raiseError e).draws = s.draws := rfl

/-! ### complete -/

@[simp] theorem complete_engine (s : State) : s.complete.engine = .idle := rfl
@[simp] theorem complete_irqEn (s : State) : s.complete.irqEn = s.irqEn := rfl
@[simp] theorem complete_done (s : State) : s.complete.done = true := rfl
@[simp] theorem complete_error (s : State) : s.complete.error = false := rfl
@[simp] theorem complete_dictOvf (s : State) : s.complete.dictOvf = s.dictOvf := rfl
@[simp] theorem complete_errCode (s : State) : s.complete.errCode = .none := rfl
@[simp] theorem complete_treeValid (s : State) : s.complete.treeValid = s.treeValid := rfl
@[simp] theorem complete_codeValid (s : State) : s.complete.codeValid = s.codeValid := rfl
@[simp] theorem complete_cmd (s : State) : s.complete.cmd = s.cmd := rfl
@[simp] theorem complete_codeWidth (s : State) : s.complete.codeWidth = s.codeWidth := rfl
@[simp] theorem complete_srcAddr (s : State) : s.complete.srcAddr = s.srcAddr := rfl
@[simp] theorem complete_srcLen (s : State) : s.complete.srcLen = s.srcLen := rfl
@[simp] theorem complete_dstAddr (s : State) : s.complete.dstAddr = s.dstAddr := rfl
@[simp] theorem complete_dstCap (s : State) : s.complete.dstCap = s.dstCap := rfl
@[simp] theorem complete_dstLen (s : State) : s.complete.dstLen = s.dstLen := rfl
@[simp] theorem complete_dstBits (s : State) : s.complete.dstBits = s.dstBits := rfl
@[simp] theorem complete_metaAddr (s : State) : s.complete.metaAddr = s.metaAddr := rfl
@[simp] theorem complete_metaLen (s : State) : s.complete.metaLen = s.metaLen := rfl
@[simp] theorem complete_metaOutLen (s : State) : s.complete.metaOutLen = s.metaOutLen := rfl
@[simp] theorem complete_hbits (s : State) : s.complete.hbits = s.hbits := rfl
@[simp] theorem complete_nsym (s : State) : s.complete.nsym = s.nsym := rfl
@[simp] theorem complete_dictSize (s : State) : s.complete.dictSize = s.dictSize := rfl
@[simp] theorem complete_codeSel (s : State) : s.complete.codeSel = s.codeSel := rfl
@[simp] theorem complete_freq (s : State) : s.complete.freq = s.freq := rfl
@[simp] theorem complete_tree (s : State) : s.complete.tree = s.tree := rfl
@[simp] theorem complete_code (s : State) : s.complete.code = s.code := rfl
@[simp] theorem complete_memTop (s : State) : s.complete.memTop = s.memTop := rfl
@[simp] theorem complete_mem (s : State) : s.complete.mem = s.mem := rfl
@[simp] theorem complete_inputs (s : State) : s.complete.inputs = s.inputs := rfl
@[simp] theorem complete_recorded (s : State) : s.complete.recorded = s.recorded := rfl
@[simp] theorem complete_draws (s : State) : s.complete.draws = s.draws := rfl

/-! ### clearCode -/

@[simp] theorem clearCode_engine (s : State) : s.clearCode.engine = s.engine := rfl
@[simp] theorem clearCode_irqEn (s : State) : s.clearCode.irqEn = s.irqEn := rfl
@[simp] theorem clearCode_done (s : State) : s.clearCode.done = s.done := rfl
@[simp] theorem clearCode_error (s : State) : s.clearCode.error = s.error := rfl
@[simp] theorem clearCode_dictOvf (s : State) : s.clearCode.dictOvf = s.dictOvf := rfl
@[simp] theorem clearCode_errCode (s : State) : s.clearCode.errCode = s.errCode := rfl
@[simp] theorem clearCode_treeValid (s : State) : s.clearCode.treeValid = s.treeValid := rfl
@[simp] theorem clearCode_codeValid (s : State) : s.clearCode.codeValid = false := rfl
@[simp] theorem clearCode_cmd (s : State) : s.clearCode.cmd = s.cmd := rfl
@[simp] theorem clearCode_codeWidth (s : State) : s.clearCode.codeWidth = s.codeWidth := rfl
@[simp] theorem clearCode_srcAddr (s : State) : s.clearCode.srcAddr = s.srcAddr := rfl
@[simp] theorem clearCode_srcLen (s : State) : s.clearCode.srcLen = s.srcLen := rfl
@[simp] theorem clearCode_dstAddr (s : State) : s.clearCode.dstAddr = s.dstAddr := rfl
@[simp] theorem clearCode_dstCap (s : State) : s.clearCode.dstCap = s.dstCap := rfl
@[simp] theorem clearCode_dstLen (s : State) : s.clearCode.dstLen = s.dstLen := rfl
@[simp] theorem clearCode_dstBits (s : State) : s.clearCode.dstBits = s.dstBits := rfl
@[simp] theorem clearCode_metaAddr (s : State) : s.clearCode.metaAddr = s.metaAddr := rfl
@[simp] theorem clearCode_metaLen (s : State) : s.clearCode.metaLen = s.metaLen := rfl
@[simp] theorem clearCode_metaOutLen (s : State) : s.clearCode.metaOutLen = s.metaOutLen := rfl
@[simp] theorem clearCode_hbits (s : State) : s.clearCode.hbits = s.hbits := rfl
@[simp] theorem clearCode_nsym (s : State) : s.clearCode.nsym = s.nsym := rfl
@[simp] theorem clearCode_dictSize (s : State) : s.clearCode.dictSize = s.dictSize := rfl
@[simp] theorem clearCode_codeSel (s : State) : s.clearCode.codeSel = s.codeSel := rfl
@[simp] theorem clearCode_freq (s : State) : s.clearCode.freq = s.freq := rfl
@[simp] theorem clearCode_tree (s : State) : s.clearCode.tree = s.tree := rfl
@[simp] theorem clearCode_code (s : State) : s.clearCode.code = Vector.replicate 256 none := rfl
@[simp] theorem clearCode_memTop (s : State) : s.clearCode.memTop = s.memTop := rfl
@[simp] theorem clearCode_mem (s : State) : s.clearCode.mem = s.mem := rfl
@[simp] theorem clearCode_inputs (s : State) : s.clearCode.inputs = s.inputs := rfl
@[simp] theorem clearCode_recorded (s : State) : s.clearCode.recorded = s.recorded := rfl
@[simp] theorem clearCode_draws (s : State) : s.clearCode.draws = s.draws := rfl

/-! ### invalidate -/

@[simp] theorem invalidate_engine (s : State) : s.invalidate.engine = s.engine := rfl
@[simp] theorem invalidate_irqEn (s : State) : s.invalidate.irqEn = s.irqEn := rfl
@[simp] theorem invalidate_done (s : State) : s.invalidate.done = s.done := rfl
@[simp] theorem invalidate_error (s : State) : s.invalidate.error = s.error := rfl
@[simp] theorem invalidate_dictOvf (s : State) : s.invalidate.dictOvf = s.dictOvf := rfl
@[simp] theorem invalidate_errCode (s : State) : s.invalidate.errCode = s.errCode := rfl
@[simp] theorem invalidate_treeValid (s : State) : s.invalidate.treeValid = false := rfl
@[simp] theorem invalidate_codeValid (s : State) : s.invalidate.codeValid = false := rfl
@[simp] theorem invalidate_cmd (s : State) : s.invalidate.cmd = s.cmd := rfl
@[simp] theorem invalidate_codeWidth (s : State) : s.invalidate.codeWidth = s.codeWidth := rfl
@[simp] theorem invalidate_srcAddr (s : State) : s.invalidate.srcAddr = s.srcAddr := rfl
@[simp] theorem invalidate_srcLen (s : State) : s.invalidate.srcLen = s.srcLen := rfl
@[simp] theorem invalidate_dstAddr (s : State) : s.invalidate.dstAddr = s.dstAddr := rfl
@[simp] theorem invalidate_dstCap (s : State) : s.invalidate.dstCap = s.dstCap := rfl
@[simp] theorem invalidate_dstLen (s : State) : s.invalidate.dstLen = s.dstLen := rfl
@[simp] theorem invalidate_dstBits (s : State) : s.invalidate.dstBits = s.dstBits := rfl
@[simp] theorem invalidate_metaAddr (s : State) : s.invalidate.metaAddr = s.metaAddr := rfl
@[simp] theorem invalidate_metaLen (s : State) : s.invalidate.metaLen = s.metaLen := rfl
@[simp] theorem invalidate_metaOutLen (s : State) : s.invalidate.metaOutLen = s.metaOutLen := rfl
@[simp] theorem invalidate_hbits (s : State) : s.invalidate.hbits = s.hbits := rfl
@[simp] theorem invalidate_nsym (s : State) : s.invalidate.nsym = s.nsym := rfl
@[simp] theorem invalidate_dictSize (s : State) : s.invalidate.dictSize = s.dictSize := rfl
@[simp] theorem invalidate_codeSel (s : State) : s.invalidate.codeSel = s.codeSel := rfl
@[simp] theorem invalidate_freq (s : State) : s.invalidate.freq = s.freq := rfl
@[simp] theorem invalidate_tree (s : State) : s.invalidate.tree = Tree.empty := rfl
@[simp] theorem invalidate_code (s : State) : s.invalidate.code = Vector.replicate 256 none := rfl
@[simp] theorem invalidate_memTop (s : State) : s.invalidate.memTop = s.memTop := rfl
@[simp] theorem invalidate_mem (s : State) : s.invalidate.mem = s.mem := rfl
@[simp] theorem invalidate_inputs (s : State) : s.invalidate.inputs = s.inputs := rfl
@[simp] theorem invalidate_recorded (s : State) : s.invalidate.recorded = s.recorded := rfl
@[simp] theorem invalidate_draws (s : State) : s.invalidate.draws = s.draws := rfl

/-! ### setFreq -/

@[simp] theorem setFreq_engine (s : State) (f : Table Word) : (s.setFreq f).engine = s.engine := rfl
@[simp] theorem setFreq_irqEn (s : State) (f : Table Word) : (s.setFreq f).irqEn = s.irqEn := rfl
@[simp] theorem setFreq_done (s : State) (f : Table Word) : (s.setFreq f).done = s.done := rfl
@[simp] theorem setFreq_error (s : State) (f : Table Word) : (s.setFreq f).error = s.error := rfl
@[simp] theorem setFreq_dictOvf (s : State) (f : Table Word) : (s.setFreq f).dictOvf = s.dictOvf := rfl
@[simp] theorem setFreq_errCode (s : State) (f : Table Word) : (s.setFreq f).errCode = s.errCode := rfl
@[simp] theorem setFreq_treeValid (s : State) (f : Table Word) : (s.setFreq f).treeValid = false := rfl
@[simp] theorem setFreq_codeValid (s : State) (f : Table Word) : (s.setFreq f).codeValid = false := rfl
@[simp] theorem setFreq_cmd (s : State) (f : Table Word) : (s.setFreq f).cmd = s.cmd := rfl
@[simp] theorem setFreq_codeWidth (s : State) (f : Table Word) : (s.setFreq f).codeWidth = s.codeWidth := rfl
@[simp] theorem setFreq_srcAddr (s : State) (f : Table Word) : (s.setFreq f).srcAddr = s.srcAddr := rfl
@[simp] theorem setFreq_srcLen (s : State) (f : Table Word) : (s.setFreq f).srcLen = s.srcLen := rfl
@[simp] theorem setFreq_dstAddr (s : State) (f : Table Word) : (s.setFreq f).dstAddr = s.dstAddr := rfl
@[simp] theorem setFreq_dstCap (s : State) (f : Table Word) : (s.setFreq f).dstCap = s.dstCap := rfl
@[simp] theorem setFreq_dstLen (s : State) (f : Table Word) : (s.setFreq f).dstLen = s.dstLen := rfl
@[simp] theorem setFreq_dstBits (s : State) (f : Table Word) : (s.setFreq f).dstBits = s.dstBits := rfl
@[simp] theorem setFreq_metaAddr (s : State) (f : Table Word) : (s.setFreq f).metaAddr = s.metaAddr := rfl
@[simp] theorem setFreq_metaLen (s : State) (f : Table Word) : (s.setFreq f).metaLen = s.metaLen := rfl
@[simp] theorem setFreq_metaOutLen (s : State) (f : Table Word) : (s.setFreq f).metaOutLen = s.metaOutLen := rfl
@[simp] theorem setFreq_hbits (s : State) (f : Table Word) : (s.setFreq f).hbits = s.hbits := rfl
@[simp] theorem setFreq_nsym (s : State) (f : Table Word) : (s.setFreq f).nsym = BitVec.ofNat 9 (presentCount f) := rfl
@[simp] theorem setFreq_dictSize (s : State) (f : Table Word) : (s.setFreq f).dictSize = s.dictSize := rfl
@[simp] theorem setFreq_codeSel (s : State) (f : Table Word) : (s.setFreq f).codeSel = s.codeSel := rfl
@[simp] theorem setFreq_freq (s : State) (f : Table Word) : (s.setFreq f).freq = f := rfl
@[simp] theorem setFreq_tree (s : State) (f : Table Word) : (s.setFreq f).tree = Tree.empty := rfl
@[simp] theorem setFreq_code (s : State) (f : Table Word) : (s.setFreq f).code = Vector.replicate 256 none := rfl
@[simp] theorem setFreq_memTop (s : State) (f : Table Word) : (s.setFreq f).memTop = s.memTop := rfl
@[simp] theorem setFreq_mem (s : State) (f : Table Word) : (s.setFreq f).mem = s.mem := rfl
@[simp] theorem setFreq_inputs (s : State) (f : Table Word) : (s.setFreq f).inputs = s.inputs := rfl
@[simp] theorem setFreq_recorded (s : State) (f : Table Word) : (s.setFreq f).recorded = s.recorded := rfl
@[simp] theorem setFreq_draws (s : State) (f : Table Word) : (s.setFreq f).draws = s.draws := rfl

/-! ### setTree -/

@[simp] theorem setTree_engine (s : State) (t : Tree) : (s.setTree t).engine = s.engine := rfl
@[simp] theorem setTree_irqEn (s : State) (t : Tree) : (s.setTree t).irqEn = s.irqEn := rfl
@[simp] theorem setTree_done (s : State) (t : Tree) : (s.setTree t).done = s.done := rfl
@[simp] theorem setTree_error (s : State) (t : Tree) : (s.setTree t).error = s.error := rfl
@[simp] theorem setTree_dictOvf (s : State) (t : Tree) : (s.setTree t).dictOvf = s.dictOvf := rfl
@[simp] theorem setTree_errCode (s : State) (t : Tree) : (s.setTree t).errCode = s.errCode := rfl
@[simp] theorem setTree_treeValid (s : State) (t : Tree) : (s.setTree t).treeValid = true := rfl
@[simp] theorem setTree_codeValid (s : State) (t : Tree) : (s.setTree t).codeValid = s.codeValid := rfl
@[simp] theorem setTree_cmd (s : State) (t : Tree) : (s.setTree t).cmd = s.cmd := rfl
@[simp] theorem setTree_codeWidth (s : State) (t : Tree) : (s.setTree t).codeWidth = s.codeWidth := rfl
@[simp] theorem setTree_srcAddr (s : State) (t : Tree) : (s.setTree t).srcAddr = s.srcAddr := rfl
@[simp] theorem setTree_srcLen (s : State) (t : Tree) : (s.setTree t).srcLen = s.srcLen := rfl
@[simp] theorem setTree_dstAddr (s : State) (t : Tree) : (s.setTree t).dstAddr = s.dstAddr := rfl
@[simp] theorem setTree_dstCap (s : State) (t : Tree) : (s.setTree t).dstCap = s.dstCap := rfl
@[simp] theorem setTree_dstLen (s : State) (t : Tree) : (s.setTree t).dstLen = s.dstLen := rfl
@[simp] theorem setTree_dstBits (s : State) (t : Tree) : (s.setTree t).dstBits = s.dstBits := rfl
@[simp] theorem setTree_metaAddr (s : State) (t : Tree) : (s.setTree t).metaAddr = s.metaAddr := rfl
@[simp] theorem setTree_metaLen (s : State) (t : Tree) : (s.setTree t).metaLen = s.metaLen := rfl
@[simp] theorem setTree_metaOutLen (s : State) (t : Tree) : (s.setTree t).metaOutLen = s.metaOutLen := rfl
@[simp] theorem setTree_hbits (s : State) (t : Tree) : (s.setTree t).hbits = s.hbits := rfl
@[simp] theorem setTree_nsym (s : State) (t : Tree) : (s.setTree t).nsym = s.nsym := rfl
@[simp] theorem setTree_dictSize (s : State) (t : Tree) : (s.setTree t).dictSize = s.dictSize := rfl
@[simp] theorem setTree_codeSel (s : State) (t : Tree) : (s.setTree t).codeSel = s.codeSel := rfl
@[simp] theorem setTree_freq (s : State) (t : Tree) : (s.setTree t).freq = s.freq := rfl
@[simp] theorem setTree_tree (s : State) (t : Tree) : (s.setTree t).tree = t := rfl
@[simp] theorem setTree_code (s : State) (t : Tree) : (s.setTree t).code = s.code := rfl
@[simp] theorem setTree_memTop (s : State) (t : Tree) : (s.setTree t).memTop = s.memTop := rfl
@[simp] theorem setTree_mem (s : State) (t : Tree) : (s.setTree t).mem = s.mem := rfl
@[simp] theorem setTree_inputs (s : State) (t : Tree) : (s.setTree t).inputs = s.inputs := rfl
@[simp] theorem setTree_recorded (s : State) (t : Tree) : (s.setTree t).recorded = s.recorded := rfl
@[simp] theorem setTree_draws (s : State) (t : Tree) : (s.setTree t).draws = s.draws := rfl

/-! ### setCode -/

@[simp] theorem setCode_engine (s : State) (c : Table (Option Codeword)) : (s.setCode c).engine = s.engine := rfl
@[simp] theorem setCode_irqEn (s : State) (c : Table (Option Codeword)) : (s.setCode c).irqEn = s.irqEn := rfl
@[simp] theorem setCode_done (s : State) (c : Table (Option Codeword)) : (s.setCode c).done = s.done := rfl
@[simp] theorem setCode_error (s : State) (c : Table (Option Codeword)) : (s.setCode c).error = s.error := rfl
@[simp] theorem setCode_dictOvf (s : State) (c : Table (Option Codeword)) : (s.setCode c).dictOvf = s.dictOvf := rfl
@[simp] theorem setCode_errCode (s : State) (c : Table (Option Codeword)) : (s.setCode c).errCode = s.errCode := rfl
@[simp] theorem setCode_treeValid (s : State) (c : Table (Option Codeword)) : (s.setCode c).treeValid = s.treeValid := rfl
@[simp] theorem setCode_codeValid (s : State) (c : Table (Option Codeword)) : (s.setCode c).codeValid = true := rfl
@[simp] theorem setCode_cmd (s : State) (c : Table (Option Codeword)) : (s.setCode c).cmd = s.cmd := rfl
@[simp] theorem setCode_codeWidth (s : State) (c : Table (Option Codeword)) : (s.setCode c).codeWidth = s.codeWidth := rfl
@[simp] theorem setCode_srcAddr (s : State) (c : Table (Option Codeword)) : (s.setCode c).srcAddr = s.srcAddr := rfl
@[simp] theorem setCode_srcLen (s : State) (c : Table (Option Codeword)) : (s.setCode c).srcLen = s.srcLen := rfl
@[simp] theorem setCode_dstAddr (s : State) (c : Table (Option Codeword)) : (s.setCode c).dstAddr = s.dstAddr := rfl
@[simp] theorem setCode_dstCap (s : State) (c : Table (Option Codeword)) : (s.setCode c).dstCap = s.dstCap := rfl
@[simp] theorem setCode_dstLen (s : State) (c : Table (Option Codeword)) : (s.setCode c).dstLen = s.dstLen := rfl
@[simp] theorem setCode_dstBits (s : State) (c : Table (Option Codeword)) : (s.setCode c).dstBits = s.dstBits := rfl
@[simp] theorem setCode_metaAddr (s : State) (c : Table (Option Codeword)) : (s.setCode c).metaAddr = s.metaAddr := rfl
@[simp] theorem setCode_metaLen (s : State) (c : Table (Option Codeword)) : (s.setCode c).metaLen = s.metaLen := rfl
@[simp] theorem setCode_metaOutLen (s : State) (c : Table (Option Codeword)) : (s.setCode c).metaOutLen = s.metaOutLen := rfl
@[simp] theorem setCode_hbits (s : State) (c : Table (Option Codeword)) : (s.setCode c).hbits = s.hbits := rfl
@[simp] theorem setCode_nsym (s : State) (c : Table (Option Codeword)) : (s.setCode c).nsym = s.nsym := rfl
@[simp] theorem setCode_dictSize (s : State) (c : Table (Option Codeword)) : (s.setCode c).dictSize = s.dictSize := rfl
@[simp] theorem setCode_codeSel (s : State) (c : Table (Option Codeword)) : (s.setCode c).codeSel = s.codeSel := rfl
@[simp] theorem setCode_freq (s : State) (c : Table (Option Codeword)) : (s.setCode c).freq = s.freq := rfl
@[simp] theorem setCode_tree (s : State) (c : Table (Option Codeword)) : (s.setCode c).tree = s.tree := rfl
@[simp] theorem setCode_code (s : State) (c : Table (Option Codeword)) : (s.setCode c).code = c := rfl
@[simp] theorem setCode_memTop (s : State) (c : Table (Option Codeword)) : (s.setCode c).memTop = s.memTop := rfl
@[simp] theorem setCode_mem (s : State) (c : Table (Option Codeword)) : (s.setCode c).mem = s.mem := rfl
@[simp] theorem setCode_inputs (s : State) (c : Table (Option Codeword)) : (s.setCode c).inputs = s.inputs := rfl
@[simp] theorem setCode_recorded (s : State) (c : Table (Option Codeword)) : (s.setCode c).recorded = s.recorded := rfl
@[simp] theorem setCode_draws (s : State) (c : Table (Option Codeword)) : (s.setCode c).draws = s.draws := rfl

/-! ### store -/

@[simp] theorem store_engine (s : State) (a : Word) (bs : List Byte) : (s.store a bs).engine = s.engine := rfl
@[simp] theorem store_irqEn (s : State) (a : Word) (bs : List Byte) : (s.store a bs).irqEn = s.irqEn := rfl
@[simp] theorem store_done (s : State) (a : Word) (bs : List Byte) : (s.store a bs).done = s.done := rfl
@[simp] theorem store_error (s : State) (a : Word) (bs : List Byte) : (s.store a bs).error = s.error := rfl
@[simp] theorem store_dictOvf (s : State) (a : Word) (bs : List Byte) : (s.store a bs).dictOvf = s.dictOvf := rfl
@[simp] theorem store_errCode (s : State) (a : Word) (bs : List Byte) : (s.store a bs).errCode = s.errCode := rfl
@[simp] theorem store_treeValid (s : State) (a : Word) (bs : List Byte) : (s.store a bs).treeValid = s.treeValid := rfl
@[simp] theorem store_codeValid (s : State) (a : Word) (bs : List Byte) : (s.store a bs).codeValid = s.codeValid := rfl
@[simp] theorem store_cmd (s : State) (a : Word) (bs : List Byte) : (s.store a bs).cmd = s.cmd := rfl
@[simp] theorem store_codeWidth (s : State) (a : Word) (bs : List Byte) : (s.store a bs).codeWidth = s.codeWidth := rfl
@[simp] theorem store_srcAddr (s : State) (a : Word) (bs : List Byte) : (s.store a bs).srcAddr = s.srcAddr := rfl
@[simp] theorem store_srcLen (s : State) (a : Word) (bs : List Byte) : (s.store a bs).srcLen = s.srcLen := rfl
@[simp] theorem store_dstAddr (s : State) (a : Word) (bs : List Byte) : (s.store a bs).dstAddr = s.dstAddr := rfl
@[simp] theorem store_dstCap (s : State) (a : Word) (bs : List Byte) : (s.store a bs).dstCap = s.dstCap := rfl
@[simp] theorem store_dstLen (s : State) (a : Word) (bs : List Byte) : (s.store a bs).dstLen = s.dstLen := rfl
@[simp] theorem store_dstBits (s : State) (a : Word) (bs : List Byte) : (s.store a bs).dstBits = s.dstBits := rfl
@[simp] theorem store_metaAddr (s : State) (a : Word) (bs : List Byte) : (s.store a bs).metaAddr = s.metaAddr := rfl
@[simp] theorem store_metaLen (s : State) (a : Word) (bs : List Byte) : (s.store a bs).metaLen = s.metaLen := rfl
@[simp] theorem store_metaOutLen (s : State) (a : Word) (bs : List Byte) : (s.store a bs).metaOutLen = s.metaOutLen := rfl
@[simp] theorem store_hbits (s : State) (a : Word) (bs : List Byte) : (s.store a bs).hbits = s.hbits := rfl
@[simp] theorem store_nsym (s : State) (a : Word) (bs : List Byte) : (s.store a bs).nsym = s.nsym := rfl
@[simp] theorem store_dictSize (s : State) (a : Word) (bs : List Byte) : (s.store a bs).dictSize = s.dictSize := rfl
@[simp] theorem store_codeSel (s : State) (a : Word) (bs : List Byte) : (s.store a bs).codeSel = s.codeSel := rfl
@[simp] theorem store_freq (s : State) (a : Word) (bs : List Byte) : (s.store a bs).freq = s.freq := rfl
@[simp] theorem store_tree (s : State) (a : Word) (bs : List Byte) : (s.store a bs).tree = s.tree := rfl
@[simp] theorem store_code (s : State) (a : Word) (bs : List Byte) : (s.store a bs).code = s.code := rfl
@[simp] theorem store_memTop (s : State) (a : Word) (bs : List Byte) : (s.store a bs).memTop = s.memTop := rfl
@[simp] theorem store_mem (s : State) (a : Word) (bs : List Byte) : (s.store a bs).mem = s.mem.writeBytes a.toNat bs := rfl
@[simp] theorem store_inputs (s : State) (a : Word) (bs : List Byte) : (s.store a bs).inputs = s.inputs := rfl
@[simp] theorem store_recorded (s : State) (a : Word) (bs : List Byte) : (s.store a bs).recorded = s.recorded := rfl
@[simp] theorem store_draws (s : State) (a : Word) (bs : List Byte) : (s.store a bs).draws = s.draws := rfl

/-! ### setDst -/

@[simp] theorem setDst_engine (s : State) (n b : Nat) : (s.setDst n b).engine = s.engine := rfl
@[simp] theorem setDst_irqEn (s : State) (n b : Nat) : (s.setDst n b).irqEn = s.irqEn := rfl
@[simp] theorem setDst_done (s : State) (n b : Nat) : (s.setDst n b).done = s.done := rfl
@[simp] theorem setDst_error (s : State) (n b : Nat) : (s.setDst n b).error = s.error := rfl
@[simp] theorem setDst_dictOvf (s : State) (n b : Nat) : (s.setDst n b).dictOvf = s.dictOvf := rfl
@[simp] theorem setDst_errCode (s : State) (n b : Nat) : (s.setDst n b).errCode = s.errCode := rfl
@[simp] theorem setDst_treeValid (s : State) (n b : Nat) : (s.setDst n b).treeValid = s.treeValid := rfl
@[simp] theorem setDst_codeValid (s : State) (n b : Nat) : (s.setDst n b).codeValid = s.codeValid := rfl
@[simp] theorem setDst_cmd (s : State) (n b : Nat) : (s.setDst n b).cmd = s.cmd := rfl
@[simp] theorem setDst_codeWidth (s : State) (n b : Nat) : (s.setDst n b).codeWidth = s.codeWidth := rfl
@[simp] theorem setDst_srcAddr (s : State) (n b : Nat) : (s.setDst n b).srcAddr = s.srcAddr := rfl
@[simp] theorem setDst_srcLen (s : State) (n b : Nat) : (s.setDst n b).srcLen = s.srcLen := rfl
@[simp] theorem setDst_dstAddr (s : State) (n b : Nat) : (s.setDst n b).dstAddr = s.dstAddr := rfl
@[simp] theorem setDst_dstCap (s : State) (n b : Nat) : (s.setDst n b).dstCap = s.dstCap := rfl
@[simp] theorem setDst_dstLen (s : State) (n b : Nat) : (s.setDst n b).dstLen = BitVec.ofNat 32 n := rfl
@[simp] theorem setDst_dstBits (s : State) (n b : Nat) : (s.setDst n b).dstBits = BitVec.ofNat 32 b := rfl
@[simp] theorem setDst_metaAddr (s : State) (n b : Nat) : (s.setDst n b).metaAddr = s.metaAddr := rfl
@[simp] theorem setDst_metaLen (s : State) (n b : Nat) : (s.setDst n b).metaLen = s.metaLen := rfl
@[simp] theorem setDst_metaOutLen (s : State) (n b : Nat) : (s.setDst n b).metaOutLen = s.metaOutLen := rfl
@[simp] theorem setDst_hbits (s : State) (n b : Nat) : (s.setDst n b).hbits = s.hbits := rfl
@[simp] theorem setDst_nsym (s : State) (n b : Nat) : (s.setDst n b).nsym = s.nsym := rfl
@[simp] theorem setDst_dictSize (s : State) (n b : Nat) : (s.setDst n b).dictSize = s.dictSize := rfl
@[simp] theorem setDst_codeSel (s : State) (n b : Nat) : (s.setDst n b).codeSel = s.codeSel := rfl
@[simp] theorem setDst_freq (s : State) (n b : Nat) : (s.setDst n b).freq = s.freq := rfl
@[simp] theorem setDst_tree (s : State) (n b : Nat) : (s.setDst n b).tree = s.tree := rfl
@[simp] theorem setDst_code (s : State) (n b : Nat) : (s.setDst n b).code = s.code := rfl
@[simp] theorem setDst_memTop (s : State) (n b : Nat) : (s.setDst n b).memTop = s.memTop := rfl
@[simp] theorem setDst_mem (s : State) (n b : Nat) : (s.setDst n b).mem = s.mem := rfl
@[simp] theorem setDst_inputs (s : State) (n b : Nat) : (s.setDst n b).inputs = s.inputs := rfl
@[simp] theorem setDst_recorded (s : State) (n b : Nat) : (s.setDst n b).recorded = s.recorded := rfl
@[simp] theorem setDst_draws (s : State) (n b : Nat) : (s.setDst n b).draws = s.draws := rfl

/-! ### setHbits -/

@[simp] theorem setHbits_engine (s : State) (n : Nat) : (s.setHbits n).engine = s.engine := rfl
@[simp] theorem setHbits_irqEn (s : State) (n : Nat) : (s.setHbits n).irqEn = s.irqEn := rfl
@[simp] theorem setHbits_done (s : State) (n : Nat) : (s.setHbits n).done = s.done := rfl
@[simp] theorem setHbits_error (s : State) (n : Nat) : (s.setHbits n).error = s.error := rfl
@[simp] theorem setHbits_dictOvf (s : State) (n : Nat) : (s.setHbits n).dictOvf = s.dictOvf := rfl
@[simp] theorem setHbits_errCode (s : State) (n : Nat) : (s.setHbits n).errCode = s.errCode := rfl
@[simp] theorem setHbits_treeValid (s : State) (n : Nat) : (s.setHbits n).treeValid = s.treeValid := rfl
@[simp] theorem setHbits_codeValid (s : State) (n : Nat) : (s.setHbits n).codeValid = s.codeValid := rfl
@[simp] theorem setHbits_cmd (s : State) (n : Nat) : (s.setHbits n).cmd = s.cmd := rfl
@[simp] theorem setHbits_codeWidth (s : State) (n : Nat) : (s.setHbits n).codeWidth = s.codeWidth := rfl
@[simp] theorem setHbits_srcAddr (s : State) (n : Nat) : (s.setHbits n).srcAddr = s.srcAddr := rfl
@[simp] theorem setHbits_srcLen (s : State) (n : Nat) : (s.setHbits n).srcLen = s.srcLen := rfl
@[simp] theorem setHbits_dstAddr (s : State) (n : Nat) : (s.setHbits n).dstAddr = s.dstAddr := rfl
@[simp] theorem setHbits_dstCap (s : State) (n : Nat) : (s.setHbits n).dstCap = s.dstCap := rfl
@[simp] theorem setHbits_dstLen (s : State) (n : Nat) : (s.setHbits n).dstLen = s.dstLen := rfl
@[simp] theorem setHbits_dstBits (s : State) (n : Nat) : (s.setHbits n).dstBits = s.dstBits := rfl
@[simp] theorem setHbits_metaAddr (s : State) (n : Nat) : (s.setHbits n).metaAddr = s.metaAddr := rfl
@[simp] theorem setHbits_metaLen (s : State) (n : Nat) : (s.setHbits n).metaLen = s.metaLen := rfl
@[simp] theorem setHbits_metaOutLen (s : State) (n : Nat) : (s.setHbits n).metaOutLen = s.metaOutLen := rfl
@[simp] theorem setHbits_hbits (s : State) (n : Nat) : (s.setHbits n).hbits = BitVec.ofNat 32 n := rfl
@[simp] theorem setHbits_nsym (s : State) (n : Nat) : (s.setHbits n).nsym = s.nsym := rfl
@[simp] theorem setHbits_dictSize (s : State) (n : Nat) : (s.setHbits n).dictSize = s.dictSize := rfl
@[simp] theorem setHbits_codeSel (s : State) (n : Nat) : (s.setHbits n).codeSel = s.codeSel := rfl
@[simp] theorem setHbits_freq (s : State) (n : Nat) : (s.setHbits n).freq = s.freq := rfl
@[simp] theorem setHbits_tree (s : State) (n : Nat) : (s.setHbits n).tree = s.tree := rfl
@[simp] theorem setHbits_code (s : State) (n : Nat) : (s.setHbits n).code = s.code := rfl
@[simp] theorem setHbits_memTop (s : State) (n : Nat) : (s.setHbits n).memTop = s.memTop := rfl
@[simp] theorem setHbits_mem (s : State) (n : Nat) : (s.setHbits n).mem = s.mem := rfl
@[simp] theorem setHbits_inputs (s : State) (n : Nat) : (s.setHbits n).inputs = s.inputs := rfl
@[simp] theorem setHbits_recorded (s : State) (n : Nat) : (s.setHbits n).recorded = s.recorded := rfl
@[simp] theorem setHbits_draws (s : State) (n : Nat) : (s.setHbits n).draws = s.draws := rfl

/-! ### setMetaOut -/

@[simp] theorem setMetaOut_engine (s : State) (n : Nat) : (s.setMetaOut n).engine = s.engine := rfl
@[simp] theorem setMetaOut_irqEn (s : State) (n : Nat) : (s.setMetaOut n).irqEn = s.irqEn := rfl
@[simp] theorem setMetaOut_done (s : State) (n : Nat) : (s.setMetaOut n).done = s.done := rfl
@[simp] theorem setMetaOut_error (s : State) (n : Nat) : (s.setMetaOut n).error = s.error := rfl
@[simp] theorem setMetaOut_dictOvf (s : State) (n : Nat) : (s.setMetaOut n).dictOvf = s.dictOvf := rfl
@[simp] theorem setMetaOut_errCode (s : State) (n : Nat) : (s.setMetaOut n).errCode = s.errCode := rfl
@[simp] theorem setMetaOut_treeValid (s : State) (n : Nat) : (s.setMetaOut n).treeValid = s.treeValid := rfl
@[simp] theorem setMetaOut_codeValid (s : State) (n : Nat) : (s.setMetaOut n).codeValid = s.codeValid := rfl
@[simp] theorem setMetaOut_cmd (s : State) (n : Nat) : (s.setMetaOut n).cmd = s.cmd := rfl
@[simp] theorem setMetaOut_codeWidth (s : State) (n : Nat) : (s.setMetaOut n).codeWidth = s.codeWidth := rfl
@[simp] theorem setMetaOut_srcAddr (s : State) (n : Nat) : (s.setMetaOut n).srcAddr = s.srcAddr := rfl
@[simp] theorem setMetaOut_srcLen (s : State) (n : Nat) : (s.setMetaOut n).srcLen = s.srcLen := rfl
@[simp] theorem setMetaOut_dstAddr (s : State) (n : Nat) : (s.setMetaOut n).dstAddr = s.dstAddr := rfl
@[simp] theorem setMetaOut_dstCap (s : State) (n : Nat) : (s.setMetaOut n).dstCap = s.dstCap := rfl
@[simp] theorem setMetaOut_dstLen (s : State) (n : Nat) : (s.setMetaOut n).dstLen = s.dstLen := rfl
@[simp] theorem setMetaOut_dstBits (s : State) (n : Nat) : (s.setMetaOut n).dstBits = s.dstBits := rfl
@[simp] theorem setMetaOut_metaAddr (s : State) (n : Nat) : (s.setMetaOut n).metaAddr = s.metaAddr := rfl
@[simp] theorem setMetaOut_metaLen (s : State) (n : Nat) : (s.setMetaOut n).metaLen = s.metaLen := rfl
@[simp] theorem setMetaOut_metaOutLen (s : State) (n : Nat) : (s.setMetaOut n).metaOutLen = BitVec.ofNat 32 n := rfl
@[simp] theorem setMetaOut_hbits (s : State) (n : Nat) : (s.setMetaOut n).hbits = s.hbits := rfl
@[simp] theorem setMetaOut_nsym (s : State) (n : Nat) : (s.setMetaOut n).nsym = s.nsym := rfl
@[simp] theorem setMetaOut_dictSize (s : State) (n : Nat) : (s.setMetaOut n).dictSize = s.dictSize := rfl
@[simp] theorem setMetaOut_codeSel (s : State) (n : Nat) : (s.setMetaOut n).codeSel = s.codeSel := rfl
@[simp] theorem setMetaOut_freq (s : State) (n : Nat) : (s.setMetaOut n).freq = s.freq := rfl
@[simp] theorem setMetaOut_tree (s : State) (n : Nat) : (s.setMetaOut n).tree = s.tree := rfl
@[simp] theorem setMetaOut_code (s : State) (n : Nat) : (s.setMetaOut n).code = s.code := rfl
@[simp] theorem setMetaOut_memTop (s : State) (n : Nat) : (s.setMetaOut n).memTop = s.memTop := rfl
@[simp] theorem setMetaOut_mem (s : State) (n : Nat) : (s.setMetaOut n).mem = s.mem := rfl
@[simp] theorem setMetaOut_inputs (s : State) (n : Nat) : (s.setMetaOut n).inputs = s.inputs := rfl
@[simp] theorem setMetaOut_recorded (s : State) (n : Nat) : (s.setMetaOut n).recorded = s.recorded := rfl
@[simp] theorem setMetaOut_draws (s : State) (n : Nat) : (s.setMetaOut n).draws = s.draws := rfl

/-! ### setDictSize -/

@[simp] theorem setDictSize_engine (s : State) (n : Nat) : (s.setDictSize n).engine = s.engine := rfl
@[simp] theorem setDictSize_irqEn (s : State) (n : Nat) : (s.setDictSize n).irqEn = s.irqEn := rfl
@[simp] theorem setDictSize_done (s : State) (n : Nat) : (s.setDictSize n).done = s.done := rfl
@[simp] theorem setDictSize_error (s : State) (n : Nat) : (s.setDictSize n).error = s.error := rfl
@[simp] theorem setDictSize_dictOvf (s : State) (n : Nat) : (s.setDictSize n).dictOvf = s.dictOvf := rfl
@[simp] theorem setDictSize_errCode (s : State) (n : Nat) : (s.setDictSize n).errCode = s.errCode := rfl
@[simp] theorem setDictSize_treeValid (s : State) (n : Nat) : (s.setDictSize n).treeValid = s.treeValid := rfl
@[simp] theorem setDictSize_codeValid (s : State) (n : Nat) : (s.setDictSize n).codeValid = s.codeValid := rfl
@[simp] theorem setDictSize_cmd (s : State) (n : Nat) : (s.setDictSize n).cmd = s.cmd := rfl
@[simp] theorem setDictSize_codeWidth (s : State) (n : Nat) : (s.setDictSize n).codeWidth = s.codeWidth := rfl
@[simp] theorem setDictSize_srcAddr (s : State) (n : Nat) : (s.setDictSize n).srcAddr = s.srcAddr := rfl
@[simp] theorem setDictSize_srcLen (s : State) (n : Nat) : (s.setDictSize n).srcLen = s.srcLen := rfl
@[simp] theorem setDictSize_dstAddr (s : State) (n : Nat) : (s.setDictSize n).dstAddr = s.dstAddr := rfl
@[simp] theorem setDictSize_dstCap (s : State) (n : Nat) : (s.setDictSize n).dstCap = s.dstCap := rfl
@[simp] theorem setDictSize_dstLen (s : State) (n : Nat) : (s.setDictSize n).dstLen = s.dstLen := rfl
@[simp] theorem setDictSize_dstBits (s : State) (n : Nat) : (s.setDictSize n).dstBits = s.dstBits := rfl
@[simp] theorem setDictSize_metaAddr (s : State) (n : Nat) : (s.setDictSize n).metaAddr = s.metaAddr := rfl
@[simp] theorem setDictSize_metaLen (s : State) (n : Nat) : (s.setDictSize n).metaLen = s.metaLen := rfl
@[simp] theorem setDictSize_metaOutLen (s : State) (n : Nat) : (s.setDictSize n).metaOutLen = s.metaOutLen := rfl
@[simp] theorem setDictSize_hbits (s : State) (n : Nat) : (s.setDictSize n).hbits = s.hbits := rfl
@[simp] theorem setDictSize_nsym (s : State) (n : Nat) : (s.setDictSize n).nsym = s.nsym := rfl
@[simp] theorem setDictSize_dictSize (s : State) (n : Nat) : (s.setDictSize n).dictSize = BitVec.ofNat 17 n := rfl
@[simp] theorem setDictSize_codeSel (s : State) (n : Nat) : (s.setDictSize n).codeSel = s.codeSel := rfl
@[simp] theorem setDictSize_freq (s : State) (n : Nat) : (s.setDictSize n).freq = s.freq := rfl
@[simp] theorem setDictSize_tree (s : State) (n : Nat) : (s.setDictSize n).tree = s.tree := rfl
@[simp] theorem setDictSize_code (s : State) (n : Nat) : (s.setDictSize n).code = s.code := rfl
@[simp] theorem setDictSize_memTop (s : State) (n : Nat) : (s.setDictSize n).memTop = s.memTop := rfl
@[simp] theorem setDictSize_mem (s : State) (n : Nat) : (s.setDictSize n).mem = s.mem := rfl
@[simp] theorem setDictSize_inputs (s : State) (n : Nat) : (s.setDictSize n).inputs = s.inputs := rfl
@[simp] theorem setDictSize_recorded (s : State) (n : Nat) : (s.setDictSize n).recorded = s.recorded := rfl
@[simp] theorem setDictSize_draws (s : State) (n : Nat) : (s.setDictSize n).draws = s.draws := rfl

/-! ### scramble -/

@[simp] theorem scramble_engine (s : State) (a n : Nat) : (s.scramble a n).engine = s.engine := rfl
@[simp] theorem scramble_irqEn (s : State) (a n : Nat) : (s.scramble a n).irqEn = s.irqEn := rfl
@[simp] theorem scramble_done (s : State) (a n : Nat) : (s.scramble a n).done = s.done := rfl
@[simp] theorem scramble_error (s : State) (a n : Nat) : (s.scramble a n).error = s.error := rfl
@[simp] theorem scramble_dictOvf (s : State) (a n : Nat) : (s.scramble a n).dictOvf = s.dictOvf := rfl
@[simp] theorem scramble_errCode (s : State) (a n : Nat) : (s.scramble a n).errCode = s.errCode := rfl
@[simp] theorem scramble_treeValid (s : State) (a n : Nat) : (s.scramble a n).treeValid = s.treeValid := rfl
@[simp] theorem scramble_codeValid (s : State) (a n : Nat) : (s.scramble a n).codeValid = s.codeValid := rfl
@[simp] theorem scramble_cmd (s : State) (a n : Nat) : (s.scramble a n).cmd = s.cmd := rfl
@[simp] theorem scramble_codeWidth (s : State) (a n : Nat) : (s.scramble a n).codeWidth = s.codeWidth := rfl
@[simp] theorem scramble_srcAddr (s : State) (a n : Nat) : (s.scramble a n).srcAddr = s.srcAddr := rfl
@[simp] theorem scramble_srcLen (s : State) (a n : Nat) : (s.scramble a n).srcLen = s.srcLen := rfl
@[simp] theorem scramble_dstAddr (s : State) (a n : Nat) : (s.scramble a n).dstAddr = s.dstAddr := rfl
@[simp] theorem scramble_dstCap (s : State) (a n : Nat) : (s.scramble a n).dstCap = s.dstCap := rfl
@[simp] theorem scramble_dstLen (s : State) (a n : Nat) : (s.scramble a n).dstLen = s.dstLen := rfl
@[simp] theorem scramble_dstBits (s : State) (a n : Nat) : (s.scramble a n).dstBits = s.dstBits := rfl
@[simp] theorem scramble_metaAddr (s : State) (a n : Nat) : (s.scramble a n).metaAddr = s.metaAddr := rfl
@[simp] theorem scramble_metaLen (s : State) (a n : Nat) : (s.scramble a n).metaLen = s.metaLen := rfl
@[simp] theorem scramble_metaOutLen (s : State) (a n : Nat) : (s.scramble a n).metaOutLen = s.metaOutLen := rfl
@[simp] theorem scramble_hbits (s : State) (a n : Nat) : (s.scramble a n).hbits = s.hbits := rfl
@[simp] theorem scramble_nsym (s : State) (a n : Nat) : (s.scramble a n).nsym = s.nsym := rfl
@[simp] theorem scramble_dictSize (s : State) (a n : Nat) : (s.scramble a n).dictSize = s.dictSize := rfl
@[simp] theorem scramble_codeSel (s : State) (a n : Nat) : (s.scramble a n).codeSel = s.codeSel := rfl
@[simp] theorem scramble_freq (s : State) (a n : Nat) : (s.scramble a n).freq = s.freq := rfl
@[simp] theorem scramble_tree (s : State) (a n : Nat) : (s.scramble a n).tree = s.tree := rfl
@[simp] theorem scramble_code (s : State) (a n : Nat) : (s.scramble a n).code = s.code := rfl
@[simp] theorem scramble_memTop (s : State) (a n : Nat) : (s.scramble a n).memTop = s.memTop := rfl
@[simp] theorem scramble_mem (s : State) (a n : Nat) : (s.scramble a n).mem = s.mem.writeBytes a (freeBytes s.draws n) := rfl
@[simp] theorem scramble_inputs (s : State) (a n : Nat) : (s.scramble a n).inputs = s.inputs := rfl
@[simp] theorem scramble_recorded (s : State) (a n : Nat) : (s.scramble a n).recorded = s.recorded := rfl
@[simp] theorem scramble_draws (s : State) (a n : Nat) : (s.scramble a n).draws = s.draws + n := rfl

/-! ### noteOverflow -/

@[simp] theorem noteOverflow_engine (s : State) (o : Bool) : (s.noteOverflow o).engine = s.engine := rfl
@[simp] theorem noteOverflow_irqEn (s : State) (o : Bool) : (s.noteOverflow o).irqEn = s.irqEn := rfl
@[simp] theorem noteOverflow_done (s : State) (o : Bool) : (s.noteOverflow o).done = s.done := rfl
@[simp] theorem noteOverflow_error (s : State) (o : Bool) : (s.noteOverflow o).error = s.error := rfl
@[simp] theorem noteOverflow_dictOvf (s : State) (o : Bool) : (s.noteOverflow o).dictOvf = (s.dictOvf || o) := rfl
@[simp] theorem noteOverflow_errCode (s : State) (o : Bool) : (s.noteOverflow o).errCode = s.errCode := rfl
@[simp] theorem noteOverflow_treeValid (s : State) (o : Bool) : (s.noteOverflow o).treeValid = s.treeValid := rfl
@[simp] theorem noteOverflow_codeValid (s : State) (o : Bool) : (s.noteOverflow o).codeValid = s.codeValid := rfl
@[simp] theorem noteOverflow_cmd (s : State) (o : Bool) : (s.noteOverflow o).cmd = s.cmd := rfl
@[simp] theorem noteOverflow_codeWidth (s : State) (o : Bool) : (s.noteOverflow o).codeWidth = s.codeWidth := rfl
@[simp] theorem noteOverflow_srcAddr (s : State) (o : Bool) : (s.noteOverflow o).srcAddr = s.srcAddr := rfl
@[simp] theorem noteOverflow_srcLen (s : State) (o : Bool) : (s.noteOverflow o).srcLen = s.srcLen := rfl
@[simp] theorem noteOverflow_dstAddr (s : State) (o : Bool) : (s.noteOverflow o).dstAddr = s.dstAddr := rfl
@[simp] theorem noteOverflow_dstCap (s : State) (o : Bool) : (s.noteOverflow o).dstCap = s.dstCap := rfl
@[simp] theorem noteOverflow_dstLen (s : State) (o : Bool) : (s.noteOverflow o).dstLen = s.dstLen := rfl
@[simp] theorem noteOverflow_dstBits (s : State) (o : Bool) : (s.noteOverflow o).dstBits = s.dstBits := rfl
@[simp] theorem noteOverflow_metaAddr (s : State) (o : Bool) : (s.noteOverflow o).metaAddr = s.metaAddr := rfl
@[simp] theorem noteOverflow_metaLen (s : State) (o : Bool) : (s.noteOverflow o).metaLen = s.metaLen := rfl
@[simp] theorem noteOverflow_metaOutLen (s : State) (o : Bool) : (s.noteOverflow o).metaOutLen = s.metaOutLen := rfl
@[simp] theorem noteOverflow_hbits (s : State) (o : Bool) : (s.noteOverflow o).hbits = s.hbits := rfl
@[simp] theorem noteOverflow_nsym (s : State) (o : Bool) : (s.noteOverflow o).nsym = s.nsym := rfl
@[simp] theorem noteOverflow_dictSize (s : State) (o : Bool) : (s.noteOverflow o).dictSize = s.dictSize := rfl
@[simp] theorem noteOverflow_codeSel (s : State) (o : Bool) : (s.noteOverflow o).codeSel = s.codeSel := rfl
@[simp] theorem noteOverflow_freq (s : State) (o : Bool) : (s.noteOverflow o).freq = s.freq := rfl
@[simp] theorem noteOverflow_tree (s : State) (o : Bool) : (s.noteOverflow o).tree = s.tree := rfl
@[simp] theorem noteOverflow_code (s : State) (o : Bool) : (s.noteOverflow o).code = s.code := rfl
@[simp] theorem noteOverflow_memTop (s : State) (o : Bool) : (s.noteOverflow o).memTop = s.memTop := rfl
@[simp] theorem noteOverflow_mem (s : State) (o : Bool) : (s.noteOverflow o).mem = s.mem := rfl
@[simp] theorem noteOverflow_inputs (s : State) (o : Bool) : (s.noteOverflow o).inputs = s.inputs := rfl
@[simp] theorem noteOverflow_recorded (s : State) (o : Bool) : (s.noteOverflow o).recorded = s.recorded := rfl
@[simp] theorem noteOverflow_draws (s : State) (o : Bool) : (s.noteOverflow o).draws = s.draws := rfl

/-! ### record -/

@[simp] theorem record_engine (s : State) (o : Observation) : (s.record o).engine = s.engine := rfl
@[simp] theorem record_irqEn (s : State) (o : Observation) : (s.record o).irqEn = s.irqEn := rfl
@[simp] theorem record_done (s : State) (o : Observation) : (s.record o).done = s.done := rfl
@[simp] theorem record_error (s : State) (o : Observation) : (s.record o).error = s.error := rfl
@[simp] theorem record_dictOvf (s : State) (o : Observation) : (s.record o).dictOvf = s.dictOvf := rfl
@[simp] theorem record_errCode (s : State) (o : Observation) : (s.record o).errCode = s.errCode := rfl
@[simp] theorem record_treeValid (s : State) (o : Observation) : (s.record o).treeValid = s.treeValid := rfl
@[simp] theorem record_codeValid (s : State) (o : Observation) : (s.record o).codeValid = s.codeValid := rfl
@[simp] theorem record_cmd (s : State) (o : Observation) : (s.record o).cmd = s.cmd := rfl
@[simp] theorem record_codeWidth (s : State) (o : Observation) : (s.record o).codeWidth = s.codeWidth := rfl
@[simp] theorem record_srcAddr (s : State) (o : Observation) : (s.record o).srcAddr = s.srcAddr := rfl
@[simp] theorem record_srcLen (s : State) (o : Observation) : (s.record o).srcLen = s.srcLen := rfl
@[simp] theorem record_dstAddr (s : State) (o : Observation) : (s.record o).dstAddr = s.dstAddr := rfl
@[simp] theorem record_dstCap (s : State) (o : Observation) : (s.record o).dstCap = s.dstCap := rfl
@[simp] theorem record_dstLen (s : State) (o : Observation) : (s.record o).dstLen = s.dstLen := rfl
@[simp] theorem record_dstBits (s : State) (o : Observation) : (s.record o).dstBits = s.dstBits := rfl
@[simp] theorem record_metaAddr (s : State) (o : Observation) : (s.record o).metaAddr = s.metaAddr := rfl
@[simp] theorem record_metaLen (s : State) (o : Observation) : (s.record o).metaLen = s.metaLen := rfl
@[simp] theorem record_metaOutLen (s : State) (o : Observation) : (s.record o).metaOutLen = s.metaOutLen := rfl
@[simp] theorem record_hbits (s : State) (o : Observation) : (s.record o).hbits = s.hbits := rfl
@[simp] theorem record_nsym (s : State) (o : Observation) : (s.record o).nsym = s.nsym := rfl
@[simp] theorem record_dictSize (s : State) (o : Observation) : (s.record o).dictSize = s.dictSize := rfl
@[simp] theorem record_codeSel (s : State) (o : Observation) : (s.record o).codeSel = s.codeSel := rfl
@[simp] theorem record_freq (s : State) (o : Observation) : (s.record o).freq = s.freq := rfl
@[simp] theorem record_tree (s : State) (o : Observation) : (s.record o).tree = s.tree := rfl
@[simp] theorem record_code (s : State) (o : Observation) : (s.record o).code = s.code := rfl
@[simp] theorem record_memTop (s : State) (o : Observation) : (s.record o).memTop = s.memTop := rfl
@[simp] theorem record_mem (s : State) (o : Observation) : (s.record o).mem = s.mem := rfl
@[simp] theorem record_inputs (s : State) (o : Observation) : (s.record o).inputs = s.inputs := rfl
@[simp] theorem record_recorded (s : State) (o : Observation) : (s.record o).recorded = s.recorded ++ [o] := rfl
@[simp] theorem record_draws (s : State) (o : Observation) : (s.record o).draws = s.draws := rfl

end Sys2Proof.Machine.State
end

