-- ==== Sys2Proof/Laws/Commands.lean ====
section
/-! SUPPORT. Sys2Proof/Laws/Commands.lean: what the operations every command shares can do: the pre-checks, the
scrambling of regions, an error after the pre-checks, and the reset that cuts a command off. -/

namespace Sys2Proof.Machine

/-! ## Pre-checks (R605) -/

theorem precheck_none_iff {i : Instr} {s : State} :
    precheck i s = none ↔
      configOk i s = true ∧ readyOk i s = true ∧ rangesOk i s = true ∧ disjointOk (regions i s) = true := by
  unfold precheck
  cases configOk i s <;> cases readyOk i s <;> cases rangesOk i s <;> cases disjointOk (regions i s) <;> simp

/-- The pre-checks raise no other error than these four. -/
theorem precheck_some {i : Instr} {s : State} {e : ErrCode} (h : precheck i s = some e) :
    e = .badConfig ∨ e = .notReady ∨ e = .busError ∨ e = .regionOverlap := by
  unfold precheck at h
  split at h
  · simp_all
  · split at h
    · simp_all
    · split at h
      · simp_all
      · split at h <;> simp_all

theorem runChecked_of_none {i : Instr} {body : State → State} {s : State} (h : precheck i s = none) :
    runChecked i body s = body s := by simp [runChecked, h]

theorem runChecked_of_some {i : Instr} {body : State → State} {s : State} {e : ErrCode} (h : precheck i s = some e) :
    runChecked i body s = s.raiseError e := by simp [runChecked, h]

/-- A command either raises a pre-check error on the state as it is, or runs its body with the pre-checks passed. -/
theorem runChecked_cases (i : Instr) (body : State → State) (s : State) :
    (∃ e, precheck i s = some e ∧ runChecked i body s = s.raiseError e) ∨
      (precheck i s = none ∧ runChecked i body s = body s) := by
  cases h : precheck i s with
  | none => exact .inr ⟨rfl, runChecked_of_none h⟩
  | some e => exact .inl ⟨e, rfl, runChecked_of_some h⟩

/-- R202, R605 check 4: a region of a command whose pre-checks pass is in range. -/
theorem inRange_of_precheck {i : Instr} {s : State} (h : precheck i s = none) {r : Region} (hr : r ∈ regions i s) :
    r.len = 0 ∨ r.addr + r.len ≤ s.memSize := by
  have hall := (precheck_none_iff.1 h).2.2.1
  simp only [rangesOk, List.all_eq_true] at hall
  simpa [Region.inRange] using hall r hr

theorem Region.inRange_iff {r : Region} {n : Nat} : r.inRange n = true ↔ r.len = 0 ∨ r.addr + r.len ≤ n := by
  simp [Region.inRange]

theorem Region.holds_iff {r : Region} {a : Nat} : r.holds a = true ↔ r.addr ≤ a ∧ a < r.addr + r.len := by
  simp [Region.holds]

@[simp] theorem Region.clip_addr (r : Region) (n : Nat) : (r.clip n).addr = r.addr := rfl

@[simp] theorem Region.clip_len (r : Region) (n : Nat) : (r.clip n).len = min r.len (n - r.addr) := rfl

@[simp] theorem Region.clip_isWrite (r : Region) (n : Nat) : (r.clip n).isWrite = r.isWrite := rfl

/-- A clipped region is in range. -/
theorem Region.clip_inRange (r : Region) (n : Nat) : (r.clip n).len = 0 ∨ (r.clip n).addr + (r.clip n).len ≤ n := by
  rw [Region.clip_addr, Region.clip_len]; omega

/-- A clipped region holds the addresses of the region below the bound. -/
theorem Region.clip_holds (r : Region) (n a : Nat) : (r.clip n).holds a = true ↔ r.holds a = true ∧ a < n := by
  rw [Region.holds_iff, Region.holds_iff, Region.clip_addr, Region.clip_len]; omega

/-- R202: two regions overlap exactly when they share an address. -/
theorem Region.overlaps_iff {r q : Region} :
    r.overlaps q = true ↔ ∃ a, (r.addr ≤ a ∧ a < r.addr + r.len) ∧ q.addr ≤ a ∧ a < q.addr + q.len := by
  simp only [Region.overlaps, Bool.and_eq_true, bne_iff_ne, ne_eq, decide_eq_true_eq]
  constructor
  · rintro ⟨⟨⟨hr, hq⟩, h₁⟩, h₂⟩
    exact ⟨max r.addr q.addr, ⟨by omega, by omega⟩, by omega, by omega⟩
  · rintro ⟨a, ⟨h₁, h₂⟩, h₃, h₄⟩
    exact ⟨⟨⟨by omega, by omega⟩, by omega⟩, by omega⟩

/-! ## Scrambled regions (R613 (a), R700) -/

@[simp] theorem freeBytes_length (d n : Nat) : (freeBytes d n).length = n := by simp [freeBytes]

/-- Scrambling regions changes data memory and the counter of free values, and nothing else. -/
theorem scrambleRegions_eq (rs : List Region) (s : State) :
    ∃ m n, scrambleRegions rs s = { s with mem := m, draws := n } := by
  induction rs generalizing s with
  | nil => exact ⟨s.mem, s.draws, rfl⟩
  | cons r rest ih =>
    obtain ⟨m, n, h⟩ := ih (s.scramble r.addr r.len)
    exact ⟨m, n, h.trans rfl⟩

/-- Scrambling regions leaves every address outside them alone. -/
theorem scrambleRegions_read (rs : List Region) (s : State) (a : Nat)
    (h : ∀ r ∈ rs, ¬ (r.addr ≤ a ∧ a < r.addr + r.len)) : (scrambleRegions rs s).mem.read a = s.mem.read a := by
  induction rs generalizing s with
  | nil => rfl
  | cons r rest ih =>
    have hr := h r (by simp)
    rw [scrambleRegions, ih _ fun q hq => h q (by simp [hq])]
    simp only [State.scramble_mem]
    exact Memory.read_writeBytes_outside _ _ _ _ (by simp only [freeBytes_length]; omega)

/-- Scrambling regions keeps the canonical form. -/
theorem scrambleRegions_wf (rs : List Region) (s : State) (h : s.mem.wf = true) :
    (scrambleRegions rs s).mem.wf = true := by
  induction rs generalizing s with
  | nil => exact h
  | cons r rest ih => exact ih _ (Memory.wf_writeBytes _ _ h)

/-- Scrambling regions in range lists no address outside data memory. -/
theorem scrambleRegions_inRange (rs : List Region) (s : State) (n : Nat)
    (h : s.mem.all (fun c => c.1 < n) = true) (hr : ∀ r ∈ rs, r.len = 0 ∨ r.addr + r.len ≤ n) :
    (scrambleRegions rs s).mem.all (fun c => c.1 < n) = true := by
  induction rs generalizing s with
  | nil => exact h
  | cons r rest ih =>
    refine ih _ ?_ fun q hq => hr q (by simp [hq])
    have := hr r (by simp)
    refine Memory.all_writeBytes (q := fun a => decide (a < n)) h fun i hi => ?_
    simp only [freeBytes_length] at hi
    simp only [decide_eq_true_eq]
    omega

/-! ## Errors after the pre-checks (R610, R613) -/

theorem clearResults_mem (i : Instr) (s : State) : (clearResults i s).mem = s.mem := by cases i <;> rfl

theorem clearResults_draws (i : Instr) (s : State) : (clearResults i s).draws = s.draws := by cases i <;> rfl

theorem mem_writeRegions {i : Instr} {s : State} {r : Region} :
    r ∈ writeRegions i s ↔ r ∈ regions i s ∧ r.isWrite = true := by simp [writeRegions]

/-- A failing command clears its results, raises its error, and leaves unspecified bytes in its write regions only. -/
theorem failCommand_eq (i : Instr) (e : ErrCode) (s : State) :
    ∃ m n, failCommand i e s = ({ clearResults i s with mem := m, draws := n }).raiseError e := by
  obtain ⟨m, n, h⟩ := scrambleRegions_eq (writeRegions i s) (clearResults i s)
  exact ⟨m, n, by rw [failCommand, h]⟩

theorem failCommand_read (i : Instr) (e : ErrCode) (s : State) (a : Nat)
    (h : ∀ r ∈ regions i s, r.isWrite = true → ¬ (r.addr ≤ a ∧ a < r.addr + r.len)) :
    (failCommand i e s).mem.read a = s.mem.read a := by
  rw [failCommand, State.raiseError_mem, scrambleRegions_read, clearResults_mem]
  exact fun r hr => h r (mem_writeRegions.1 hr).1 (mem_writeRegions.1 hr).2

theorem failCommand_wf (i : Instr) (e : ErrCode) (s : State) (h : s.mem.wf = true) :
    (failCommand i e s).mem.wf = true := by
  rw [failCommand, State.raiseError_mem]
  exact scrambleRegions_wf _ _ (by rwa [clearResults_mem])

theorem failCommand_inRange (i : Instr) (e : ErrCode) (s : State) (n : Nat)
    (h : s.mem.all (fun c => c.1 < n) = true) (hr : ∀ r ∈ regions i s, r.len = 0 ∨ r.addr + r.len ≤ n) :
    (failCommand i e s).mem.all (fun c => c.1 < n) = true := by
  rw [failCommand, State.raiseError_mem]
  exact scrambleRegions_inRange _ _ _ (by rwa [clearResults_mem]) fun r hr' => hr r (mem_writeRegions.1 hr').1

/-- A command cut off by a reset leaves unspecified bytes in its write regions only. -/
theorem scrambleCutOff_eq (i : Instr) (s : State) : ∃ m n, scrambleCutOff i s = { s with mem := m, draws := n } :=
  scrambleRegions_eq _ _

theorem scrambleCutOff_read (i : Instr) (s : State) (a : Nat)
    (h : ∀ r ∈ regions i s, r.isWrite = true → ¬ (r.addr ≤ a ∧ a < r.addr + r.len)) :
    (scrambleCutOff i s).mem.read a = s.mem.read a := by
  refine scrambleRegions_read _ _ _ fun r hr => ?_
  obtain ⟨q, hq, rfl⟩ := List.mem_map.1 hr
  have hout := h q (mem_writeRegions.1 hq).1 (mem_writeRegions.1 hq).2
  rw [Region.clip_addr, Region.clip_len]; omega

theorem scrambleCutOff_wf (i : Instr) (s : State) (h : s.mem.wf = true) : (scrambleCutOff i s).mem.wf = true :=
  scrambleRegions_wf _ _ h

theorem scrambleCutOff_inRange (i : Instr) (s : State) (h : s.mem.all (fun c => c.1 < s.memSize) = true) :
    (scrambleCutOff i s).mem.all (fun c => c.1 < s.memSize) = true :=
  scrambleRegions_inRange _ _ _ h fun _ hr => by
    obtain ⟨q, -, rfl⟩ := List.mem_map.1 hr
    exact q.clip_inRange _

end Sys2Proof.Machine
end

