-- ==== Sys2Proof/Laws/Table.lean ====
section
/-! SUPPORT. Sys2Proof/Laws/Table.lean: the 256-entry tables: reading an updated or tabulated table, equality by
entries, and what the entry list and the present entries hold. -/

namespace Sys2Proof.Machine

theorem allSymbols_length : allSymbols.length = 256 := by simp [allSymbols]

theorem allSymbols_getElem (i : Nat) (h : i < allSymbols.length) : allSymbols[i] = BitVec.ofNat 8 i := by
  simp [allSymbols]

theorem mem_allSymbols (s : Byte) : s ∈ allSymbols := by
  simp only [allSymbols, List.mem_map, List.mem_range]
  exact ⟨s.toNat, s.isLt, by simp⟩

/-- The symbols stand in strictly ascending order. -/
theorem allSymbols_sorted : allSymbols.Pairwise (fun a b => a.toNat < b.toNat) := by
  rw [List.pairwise_iff_getElem]
  intro i j hi hj hij
  simp only [allSymbols_getElem, BitVec.toNat_ofNat]
  simp only [allSymbols_length] at hi hj
  omega

theorem allSymbols_nodup : allSymbols.Nodup :=
  allSymbols_sorted.imp fun h e => by simp [e] at h

namespace Table

variable {α : Type}

@[simp] theorem lookup_tabulate (f : Byte → α) (s : Byte) : lookup (tabulate f) s = f s := by
  simp [lookup, tabulate, allSymbols]

@[simp] theorem lookup_replicate (v : α) (s : Byte) : lookup (Vector.replicate 256 v) s = v := by
  simp [lookup]

theorem lookup_update (t : Table α) (s r : Byte) (v : α) :
    lookup (update t s v) r = if r = s then v else lookup t r := by
  simp only [lookup, update, Vector.getElem_set]
  by_cases h : r = s
  · simp [h]
  · have : s.toNat ≠ r.toNat := fun e => h (BitVec.eq_of_toNat_eq e.symm)
    simp [h, this]

@[simp] theorem lookup_update_same (t : Table α) (s : Byte) (v : α) : lookup (update t s v) s = v := by
  simp [lookup_update]

/-- Two tables are equal when their entries are. -/
theorem ext_lookup {t u : Table α} (h : ∀ s, lookup t s = lookup u s) : t = u := by
  apply Vector.ext
  intro i hi
  have := h (BitVec.ofNat 8 i)
  simpa [lookup, Nat.mod_eq_of_lt hi] using this

theorem entries_length (t : Table α) : (entries t).length = 256 := by
  simp [entries, allSymbols_length]

theorem entries_getElem (t : Table α) (i : Nat) (h : i < (entries t).length) :
    (entries t)[i] = (BitVec.ofNat 8 i, lookup t (BitVec.ofNat 8 i)) := by
  have hi : i < 256 := by simpa [entries_length] using h
  simp [entries, allSymbols_getElem, lookup, Nat.mod_eq_of_lt hi]

/-- The entry list is the symbols in order, each with its entry. -/
theorem entries_eq_map (t : Table α) : entries t = allSymbols.map fun s => (s, lookup t s) := by
  apply List.ext_getElem
  · simp [entries_length, allSymbols_length]
  · intro i h₁ h₂
    simp [entries_getElem, allSymbols_getElem]

theorem mem_entries {t : Table α} {e : Byte × α} : e ∈ entries t ↔ lookup t e.1 = e.2 := by
  obtain ⟨s, v⟩ := e
  simp only [entries_eq_map, List.mem_map, Prod.mk.injEq]
  constructor
  · rintro ⟨x, -, rfl, rfl⟩; rfl
  · intro h; exact ⟨s, mem_allSymbols s, rfl, h⟩

end Table

/-- The present entries are the present symbols in order, each with its count. -/
theorem presentEntries_eq_map (f : Table Word) :
    presentEntries f = (allSymbols.filter fun s => f.lookup s != 0).map fun s => (s, f.lookup s) := by
  simp [presentEntries, Table.entries_eq_map, List.filter_map, Function.comp_def]

theorem mem_presentEntries {f : Table Word} {e : Byte × Word} :
    e ∈ presentEntries f ↔ f.lookup e.1 = e.2 ∧ e.2 ≠ 0 := by
  simp [presentEntries, Table.mem_entries]

/-- R118: the number of present symbols. -/
theorem presentCount_eq (f : Table Word) :
    presentCount f = (allSymbols.filter fun s => f.lookup s != 0).length := by
  simp [presentCount, presentEntries_eq_map]

theorem presentCount_le (f : Table Word) : presentCount f ≤ 256 := by
  rw [presentCount_eq]
  exact (List.length_filter_le _ _).trans_eq allSymbols_length

/-- No symbol has two present entries. -/
theorem presentEntries_nodup_symbols (f : Table Word) : ((presentEntries f).map (·.1)).Nodup := by
  rw [presentEntries_eq_map, List.map_map]
  simpa [Function.comp_def] using allSymbols_nodup.filter _

end Sys2Proof.Machine
end

