-- ==== Sys2Proof/Laws/HostPort.lean ====
section
/-! SUPPORT. Sys2Proof/Laws/HostPort.lean: the register window (10_state.md): which register stands at an offset, and
what an access of the host does, one lemma per case. -/

namespace Sys2Proof.Machine

/-! ## The register map -/

/-- R101: every register stands at its own offset. -/
theorem regAt_offset (r : Reg) : regAt r.offset = some r := by
  cases r with
  | freq x =>
    have hx : x.toNat < 256 := x.isLt
    have : (Reg.offset (.freq x)).toNat / 4 = x.toNat + 256 := by
      simp only [Reg.offset, BitVec.toNat_ofNat]; omega
    simp only [regAt, this, regAtIndex]
    rw [if_pos (by omega)]
    simp
  | codeBits j => revert j; decide
  | _ => rfl

/-- R232: every register's offset is a multiple of 4. -/
theorem accessOk_offset (r : Reg) : accessOk r.offset 32 = true := by
  cases r with
  | freq x =>
    have hx : x.toNat < 256 := x.isLt
    simp only [accessOk, Reg.offset, BitVec.toNat_ofNat, beq_self_eq_true, Bool.true_and, beq_iff_eq]
    omega
  | codeBits j => revert j; decide
  | _ => rfl

/-- R124: the reserved word indices. -/
theorem regAtIndex_reserved {n : Nat} (h : (27 ≤ n ∧ n < 256) ∨ 512 ≤ n) : regAtIndex n = none := by
  rw [regAtIndex, if_neg (by omega)]
  exact List.getElem?_eq_none (by simp only [lowRegs, List.length_cons, List.length_nil]; omega)

/-! ## Accesses -/

theorem hostWrite_of {s : State} {off : BitVec 12} {bits : Nat} {v : Word} {r : Reg} (ha : accessOk off bits = true)
    (hr : regAt off = some r) :
    s.hostWrite off bits v = if s.busy && r != .ctrl then s else s.writeReg r v := by
  simp only [State.hostWrite, ha, hr, Bool.not_true, Bool.false_eq_true, if_false]

theorem hostRead_of {s : State} {off : BitVec 12} {bits : Nat} {r : Reg} (ha : accessOk off bits = true)
    (hr : regAt off = some r) :
    s.hostRead off bits = if s.busy && !r.stableWhileBusy then s.recordFreeWord else s.record (.word (s.readReg r)) := by
  simp only [State.hostRead, ha, hr, Bool.not_true, Bool.false_eq_true, if_false]

/-- A write of an idle core's register. -/
theorem hostWrite_idle {s : State} {off : BitVec 12} {bits : Nat} {v : Word} {r : Reg} (ha : accessOk off bits = true)
    (hr : regAt off = some r) (hi : s.engine = .idle) : s.hostWrite off bits v = s.writeReg r v := by
  simp [hostWrite_of ha hr, State.busy, hi]

/-- R125: while a command runs, a write of any register but CTRL is ignored. -/
theorem hostWrite_busy {s : State} {off : BitVec 12} {bits : Nat} {v : Word} {r : Reg} (ha : accessOk off bits = true)
    (hr : regAt off = some r) (hb : s.engine = .busy) (hc : r ≠ .ctrl) : s.hostWrite off bits v = s := by
  simp [hostWrite_of ha hr, State.busy, hb, hc]

/-- R103, R125: a CTRL write takes effect whether or not a command runs. -/
theorem hostWrite_ctrl {s : State} {off : BitVec 12} {bits : Nat} {v : Word} (ha : accessOk off bits = true)
    (hr : regAt off = some .ctrl) : s.hostWrite off bits v = s.writeCtrl v := by
  simp [hostWrite_of ha hr, State.writeReg]

/-- A read of an idle core's register. -/
theorem hostRead_idle {s : State} {off : BitVec 12} {bits : Nat} {r : Reg} (ha : accessOk off bits = true)
    (hr : regAt off = some r) (hi : s.engine = .idle) : s.hostRead off bits = s.record (.word (s.readReg r)) := by
  simp [hostRead_of ha hr, State.busy, hi]

/-- R125: a read of a stable register, at any time. -/
theorem hostRead_stable {s : State} {off : BitVec 12} {bits : Nat} {r : Reg} (ha : accessOk off bits = true)
    (hr : regAt off = some r) (hst : r.stableWhileBusy = true) :
    s.hostRead off bits = s.record (.word (s.readReg r)) := by
  simp [hostRead_of ha hr, hst]

/-- R125: a read of a result register while a command runs. -/
theorem hostRead_unstable {s : State} {off : BitVec 12} {bits : Nat} {r : Reg} (ha : accessOk off bits = true)
    (hr : regAt off = some r) (hb : s.engine = .busy) (hst : r.stableWhileBusy = false) :
    s.hostRead off bits = s.recordFreeWord := by
  simp [hostRead_of ha hr, State.busy, hb, hst]

/-- R124: a reserved offset ignores writes. -/
theorem hostWrite_reserved {s : State} {off : BitVec 12} {bits : Nat} {v : Word} (ha : accessOk off bits = true)
    (hr : regAt off = none) : s.hostWrite off bits v = s := by
  simp only [State.hostWrite, ha, hr, Bool.not_true, Bool.false_eq_true, if_false]

/-- R124: a reserved offset reads zero. -/
theorem hostRead_reserved {s : State} {off : BitVec 12} {bits : Nat} (ha : accessOk off bits = true)
    (hr : regAt off = none) : s.hostRead off bits = s.record (.word 0) := by
  simp only [State.hostRead, ha, hr, Bool.not_true, Bool.false_eq_true, if_false]

/-- R232: an irregular write. -/
theorem hostWrite_refused {s : State} {off : BitVec 12} {bits : Nat} {v : Word} (ha : accessOk off bits = false) :
    s.hostWrite off bits v = s.record .errorResponse := by
  simp only [State.hostWrite, ha, Bool.not_false, if_true]

/-- R232: an irregular read. -/
theorem hostRead_refused {s : State} {off : BitVec 12} {bits : Nat} (ha : accessOk off bits = false) :
    s.hostRead off bits = s.record .errorResponse := by
  simp only [State.hostRead, ha, Bool.not_false, if_true]

/-! ## Whose step it is -/

theorem step_engine {s : State} (h : engineMoves s = true) : step s = runCommand s := by simp [step, h]

theorem step_host {s : State} (h : engineMoves s = false) : step s = hostTurn s := by simp [step, h]

/-- Whether the host's next action comes first depends on the actions alone. -/
theorem hostMovesFirst_congr {s t : State} (h : t.inputs = s.inputs) : hostMovesFirst t = hostMovesFirst s := by
  simp [hostMovesFirst, h]

end Sys2Proof.Machine
end

