-- ==== Sys2Proof/Laws/PerInstr.lean ====
section
/-! SUPPORT. Sys2Proof/Laws/PerInstr.lean: what is proved of every command as syntax, one lemma per command: its word is
well formed (30_encoding.md R300, R301) and decodes to it (R302). -/

namespace Sys2Proof.Laws.Codec

/-- The command's word passes both checks, decodes to the command, and the host's table question answers it. -/
def Statement (i : Instr) : Prop :=
  i.wellFormed = true ∧ wordWellFormed (encode i) = true ∧ decode (encode i) = .ok i ∧
    decodeTableWord 32 (encode i).toNat = some i

theorem hufFreq : Statement .hufFreq := ⟨rfl, rfl, rfl, rfl⟩
theorem hufBuild : Statement .hufBuild := ⟨rfl, rfl, rfl, rfl⟩
theorem hufCodegen : Statement .hufCodegen := ⟨rfl, rfl, rfl, rfl⟩
theorem hufEncode : Statement .hufEncode := ⟨rfl, rfl, rfl, rfl⟩
theorem hufDecode : Statement .hufDecode := ⟨rfl, rfl, rfl, rfl⟩
theorem hufMetaEmit : Statement .hufMetaEmit := ⟨rfl, rfl, rfl, rfl⟩
theorem hufMetaParse : Statement .hufMetaParse := ⟨rfl, rfl, rfl, rfl⟩
theorem hufCompress : Statement .hufCompress := ⟨rfl, rfl, rfl, rfl⟩
theorem hufDecompress : Statement .hufDecompress := ⟨rfl, rfl, rfl, rfl⟩
theorem lzwEncode : Statement .lzwEncode := ⟨rfl, rfl, rfl, rfl⟩
theorem lzwDecode : Statement .lzwDecode := ⟨rfl, rfl, rfl, rfl⟩

end Sys2Proof.Laws.Codec
end

