-- ==== Sys2Proof/Laws/Safety.lean ====
section
/-! SUPPORT. Sys2Proof/Laws/Safety.lean: the small lemmas of the notions the statements use: the present symbols and the
chaining of commands. -/

namespace Sys2Proof.Machine

/-- The present symbols are those of the present entries. -/
theorem presentSymbols_eq (f : Table Word) : presentSymbols f = (presentEntries f).map (·.1) := by
  simp [presentSymbols, presentEntries_eq_map, Function.comp_def]

theorem mem_presentSymbols {f : Table Word} {x : Byte} : x ∈ presentSymbols f ↔ f.lookup x ≠ 0 := by
  simp [presentSymbols, mem_allSymbols]

theorem presentSymbols_length (f : Table Word) : (presentSymbols f).length = presentCount f := by
  rw [presentCount_eq]; rfl

theorem presentSymbols_nodup (f : Table Word) : (presentSymbols f).Nodup := allSymbols_nodup.filter _

@[simp] theorem andThen_next (t : State) (k : State → Host.Outcome State Fault Refusal) :
    andThen (.next t) k = k t := rfl

end Sys2Proof.Machine
end

