-- ==== Sys2Proof/Laws/Streams.lean ====
section
/-! SUPPORT. Sys2Proof/Laws/Streams.lean: what the loops of the stream commands can do: the Huffman serializer
(R451, R452), the output of the LZW decoder (R530 `put`) and the LZW dictionary (R500, R501). -/

namespace Sys2Proof.Machine

/-! ## Huffman serializer -/

theorem encodeBits_cons {code : Table (Option Codeword)} {b : Byte} {rest : List Byte} {bits : Bits} :
    encodeBits code (b :: rest) = some bits ↔
      ∃ c tail, code.lookup b = some c ∧ encodeBits code rest = some tail ∧ bits = c ++ tail := by
  rw [encodeBits]
  cases code.lookup b <;> cases encodeBits code rest <;> simp [eq_comm]

theorem encodeBits_append {code : Table (Option Codeword)} (xs ys : List Byte) (a b : Bits)
    (ha : encodeBits code xs = some a) (hb : encodeBits code ys = some b) :
    encodeBits code (xs ++ ys) = some (a ++ b) := by
  induction xs generalizing a with
  | nil => obtain rfl : a = [] := by simpa [encodeBits, eq_comm] using ha
           simpa using hb
  | cons x xs ih =>
    obtain ⟨c, tail, hc, ht, rfl⟩ := encodeBits_cons.1 ha
    rw [List.cons_append, List.append_assoc]
    exact encodeBits_cons.2 ⟨c, _, hc, ih tail ht, rfl⟩

theorem streamTooLong_mono {m n cap : Nat} (h : m ≤ n) (hn : streamTooLong n cap = false) :
    streamTooLong m cap = false := by
  simp only [streamTooLong, Bool.or_eq_false_iff, decide_eq_false_iff_not, Nat.not_lt, gt_iff_lt] at *
  exact ⟨h.trans hn.1, (ceil8_mono h).trans hn.2⟩

/-- The encoder's loop succeeds on a stream that fits, with the stream of R451. -/
theorem encodeLoop_of_fits {code : Table (Option Codeword)} {cap : Nat} (bytes : List Byte) (pre bits : Bits)
    (h : encodeBits code bytes = some bits) (hfit : streamTooLong (pre ++ bits).length cap = false) :
    encodeLoop code cap bytes pre = .ok (pre ++ bits) := by
  induction bytes generalizing pre bits with
  | nil => obtain rfl : bits = [] := by simpa [encodeBits, eq_comm] using h
           simp [encodeLoop]
  | cons b rest ih =>
    obtain ⟨c, tail, hc, ht, rfl⟩ := encodeBits_cons.1 h
    rw [← List.append_assoc] at hfit
    have hpre : streamTooLong (pre ++ c).length cap = false := streamTooLong_mono (by simp) hfit
    rw [encodeLoop, hc]
    simp only [hpre, Bool.false_eq_true, if_false]
    rw [ih _ _ ht hfit, List.append_assoc]

/-- What the encoder's loop answers on success is the stream of R451. -/
theorem encodeBits_of_encodeLoop {code : Table (Option Codeword)} {cap : Nat} (bytes : List Byte) (pre out : Bits)
    (h : encodeLoop code cap bytes pre = .ok out) : ∃ bits, encodeBits code bytes = some bits ∧ out = pre ++ bits := by
  induction bytes generalizing pre with
  | nil => exact ⟨[], rfl, by simpa [encodeLoop, eq_comm] using h⟩
  | cons b rest ih =>
    unfold encodeLoop at h
    split at h
    · cases h
    · next c hc =>
      split at h
      · cases h
      · obtain ⟨tail, ht, rfl⟩ := ih _ h
        exact ⟨c ++ tail, encodeBits_cons.2 ⟨c, tail, hc, ht, rfl⟩, by simp⟩

/-- The encoder's loop raises no other error than these two. -/
theorem encodeLoop_error {code : Table (Option Codeword)} {cap : Nat} (bytes : List Byte) (pre : Bits) (e : ErrCode)
    (h : encodeLoop code cap bytes pre = .error e) : e = .symbolNotInTable ∨ e = .outputOverflow := by
  induction bytes generalizing pre with
  | nil => simp [encodeLoop] at h
  | cons b rest ih =>
    unfold encodeLoop at h
    split at h
    · exact .inl (by simpa [eq_comm] using h)
    · split at h
      · exact .inr (by simpa [eq_comm] using h)
      · exact ih _ h

/-- R455: a symbol found has the buffer as its codeword. -/
theorem symbolOf_some {code : Table (Option Codeword)} {buf : Bits} {x : Byte} (h : symbolOf code buf = some x) :
    code.lookup x = some buf := by
  unfold symbolOf at h
  obtain ⟨e, he, rfl⟩ := Option.map_eq_some_iff.1 h
  have h₁ := Table.mem_entries.1 (List.mem_of_find?_eq_some he)
  have h₂ := List.find?_some he
  rw [h₁]
  simpa using h₂

theorem symbolOf_none {code : Table (Option Codeword)} {buf : Bits} (h : symbolOf code buf = none) (x : Byte) :
    code.lookup x ≠ some buf := by
  intro hx
  simp only [symbolOf, Option.map_eq_none_iff, List.find?_eq_none] at h
  exact h (x, code.lookup x) (Table.mem_entries.2 rfl) (by simp [hx])

/-- The decoder's loop raises no other error than these two. -/
theorem decodeLoop_error {code : Table (Option Codeword)} {cap : Nat} (b buf : Bits) (out : List Byte) (e : ErrCode)
    (h : decodeLoop code cap b buf out = .error e) : e = .corruptResidual ∨ e = .outputOverflow := by
  induction b generalizing buf out with
  | nil =>
    unfold decodeLoop at h
    split at h
    · cases h
    · exact .inl (by simpa [eq_comm] using h)
  | cons x rest ih =>
    unfold decodeLoop at h
    split at h
    · exact ih _ _ h
    · split at h
      · exact .inr (by simpa [eq_comm] using h)
      · exact ih _ _ h

/-- The decoder's loop answers no more bytes than fit. -/
theorem decodeLoop_length {code : Table (Option Codeword)} {cap : Nat} (b buf : Bits) (out res : List Byte)
    (hout : out.length ≤ cap) (h : decodeLoop code cap b buf out = .ok res) : res.length ≤ cap := by
  induction b generalizing buf out with
  | nil =>
    unfold decodeLoop at h
    split at h
    · obtain rfl : out = res := by simpa using h
      exact hout
    · cases h
  | cons x rest ih =>
    unfold decodeLoop at h
    split at h
    · exact ih _ _ hout h
    · split at h
      · cases h
      · exact ih _ _ (by simp only [List.length_append, List.length_singleton]; omega) h

/-! ## LZW -/

/-- R530 `put`: all of the fragment when it fits. -/
theorem putBytes_of_fits {cap : Nat} (frag out : List Byte) (h : (out ++ frag).length ≤ cap) :
    putBytes cap frag out = .ok (out ++ frag) := by
  induction frag generalizing out with
  | nil => simp [putBytes]
  | cons v rest ih =>
    have h' : out.length + 1 ≤ cap := by simp only [List.length_append, List.length_cons] at h; omega
    rw [putBytes, if_neg (by omega), ih _ (by simpa using h)]
    simp

/-- R530 `put`: OUTPUT_OVERFLOW when it does not fit. -/
theorem putBytes_of_overflow {cap : Nat} (frag out : List Byte) (hout : out.length ≤ cap)
    (h : cap < (out ++ frag).length) : putBytes cap frag out = .error .outputOverflow := by
  induction frag generalizing out with
  | nil => simp at h; omega
  | cons v rest ih =>
    unfold putBytes
    split
    · rfl
    · exact ih _ (by simp only [List.length_append, List.length_singleton]; omega) (by simpa using h)

@[simp] theorem seedDict_length : seedDict.length = 256 := by simp [seedDict, allSymbols]

/-- R500: entry `i` of the seed is the one-byte fragment `[i]`. -/
theorem seedDict_getElem (i : Nat) (h : i < seedDict.length) : seedDict[i] = [BitVec.ofNat 8 i] := by
  simp [seedDict, allSymbols]

/-- R501: an insertion adds one entry while there is room. -/
theorem insertFragment_length (cap : Nat) (d : Dict) (f : List Byte) (h : d.length ≤ cap) :
    (insertFragment cap d f).length = min (d.length + 1) cap := by
  unfold insertFragment
  split
  · simp; omega
  · omega

/-- R501: an insertion changes no entry. -/
theorem insertFragment_getElem? (cap : Nat) (d : Dict) (f : List Byte) (i : Nat) (h : i < d.length) :
    (insertFragment cap d f)[i]? = d[i]? := by
  unfold insertFragment
  split
  · rw [List.getElem?_append_left h]
  · rfl

/-- R532: what one later code answers. -/
theorem fragmentOf_cases (d : Dict) (prev : List Byte) (k : Nat) :
    (∃ f, d[k]? = some f ∧ fragmentOf d prev k = .ok f) ∨
      (k = d.length ∧ fragmentOf d prev k = .ok (prev ++ prev.take 1)) ∨
      (d.length < k ∧ fragmentOf d prev k = .error .corruptLzwCode) := by
  unfold fragmentOf
  rcases Nat.lt_trichotomy k d.length with h | h | h
  · exact .inl ⟨d[k], by simp [h], by simp [h]⟩
  · exact .inr (.inl ⟨h, by simp [h]⟩)
  · exact .inr (.inr ⟨h, by
      rw [List.getElem?_eq_none (by omega)]
      simp only
      rw [if_neg (by omega)]⟩)

end Sys2Proof.Machine
end

