-- ==== Sys2Proof/Tests/Slice0.lean ====
section
/-! SUPPORT. Sys2Proof/Tests/Slice0.lean: the well-formedness smoke tests, the decoding of every word of R302, one or
two checks of each command against the vectors of 95_test_vectors.md (named by their number), and for every statement
with hypotheses a witness that meets them. -/

namespace Sys2Proof.Machine.Tests

/-! ## Small states -/

/-- The reset state with MEM_SIZE = 0x1000, as 95_test_vectors.md assumes. -/
def base : State := State.resetWith 0xFFF#32

def bytes (ns : List Nat) : List Byte := ns.map (BitVec.ofNat 8)

/-- "abracadabra". -/
def abra : List Byte := bytes [0x61, 0x62, 0x72, 0x61, 0x63, 0x61, 0x64, 0x61, 0x62, 0x72, 0x61]

/-- B0: "a5|b2|c1|d1|r2|~23|". -/
def blobB0 : List Byte :=
  bytes [0x61, 0x35, 0x7C, 0x62, 0x32, 0x7C, 0x63, 0x31, 0x7C, 0x64, 0x31, 0x7C, 0x72, 0x32, 0x7C, 0x7E, 0x32, 0x33,
    0x7C]

/-- "a1|b1|~2|". -/
def blobAB : List Byte := bytes [0x61, 0x31, 0x7C, 0x62, 0x31, 0x7C, 0x7E, 0x32, 0x7C]

/-- "ab". -/
def ab : List Byte := bytes [0x61, 0x62]

/-- SRC at 0x100, DST at 0x200 with 16 bytes, META at 0x300 with 64 bytes. -/
def operands : State :=
  { base with srcAddr := 0x100, dstAddr := 0x200, dstCap := 16, metaAddr := 0x300, metaLen := 64 }

/-- `bs` in data memory at `a`. -/
def holding (a : Nat) (bs : List Byte) (s : State) : State := { s with mem := s.mem.writeBytes a bs }

/-- `bs` as SRC. -/
def source (bs : List Byte) (s : State) : State := holding 0x100 bs { s with srcLen := BitVec.ofNat 32 bs.length }

/-- `bs` as META, to parse. -/
def blob (bs : List Byte) (s : State) : State := holding 0x300 bs { s with metaLen := BitVec.ofNat 32 bs.length }

/-- A table given by its entries. -/
def tableOf {α : Type} (v : α) (es : List (Nat × α)) : Table α :=
  es.foldl (fun t e => Table.update t (BitVec.ofNat 8 e.1) e.2) (Vector.replicate 256 v)

/-- T1: CODE of "abracadabra". -/
def codeT1 : Table (Option Codeword) :=
  tableOf none [(0x61, some [false]), (0x63, some [true, false, false]), (0x64, some [true, false, true]),
    (0x62, some [true, true, false]), (0x72, some [true, true, true])]

/-- T4: CODE of "ab". -/
def codeAB : Table (Option Codeword) := tableOf none [(0x61, some [false]), (0x62, some [true])]

/-- T1: FREQ of "abracadabra". -/
def freqT1 : Table Word := tableOf 0 [(0x61, 5), (0x62, 2), (0x63, 1), (0x64, 1), (0x72, 2)]

/-- T4: FREQ of "ab". -/
def freqAB : Table Word := tableOf 0 [(0x61, 1), (0x62, 1)]

/-- A code table, ready for use. -/
def coded (c : Table (Option Codeword)) (s : State) : State :=
  { s with code := c, codeValid := true, treeValid := true }

/-- The outcome is a next state with a property. -/
def after (o : Host.Outcome State Fault Refusal) (p : State → Bool) : Bool :=
  match o with
  | .next t => p t
  | .fault _ | .refused _ => false

theorem exists_of_after {o : Host.Outcome State Fault Refusal} {p : State → Bool} (h : after o p = true) :
    ∃ t, o = .next t ∧ p t = true := by
  cases o with
  | next t => exact ⟨t, rfl, h⟩
  | fault f => cases h
  | refused r => cases h

/-- The STATUS word a command leaves. -/
def statusAfter (i : Instr) (s : State) : Option Word :=
  match exec i s with
  | .next t => some t.statusWord
  | .fault _ | .refused _ => none

/-! ## Well-formedness smoke tests and decoding -/

/-- Each check refuses an ill-formed word: RSVD set with a listed OPCODE (E3), an unlisted OPCODE (E1, E2, and the ends
of R303's ranges). -/
theorem test_wellFormed_refuses :
    reservedBitsZero 0x00000110#32 = false ∧ opcodeListed 0x00000110#32 = true ∧
    opcodeListed 0x00000000#32 = false ∧ opcodeListed 0x0000000A#32 = false ∧ opcodeListed 0x0000000F#32 = false ∧
    opcodeListed 0x00000012#32 = false ∧ opcodeListed 0x000000FF#32 = false ∧
    wordWellFormed 0x80000001#32 = false ∧ wordWellFormed 0x00000011#32 = true := by decide

/-- E16: each check of a register access refuses an ill-formed one. -/
theorem test_accessOk_refuses :
    accessOk 0x008 16 = false ∧ accessOk 0x006 32 = false ∧ accessOk 0x008 32 = true := by decide

/-- R302, each word written out from the "word" column. -/
theorem test_decode_table_family :
    decode 0x00000001#32 = .ok .hufFreq ∧ decode 0x00000002#32 = .ok .hufBuild ∧
    decode 0x00000003#32 = .ok .hufCodegen := by decide

theorem test_decode_stream_family :
    decode 0x00000004#32 = .ok .hufEncode ∧ decode 0x00000005#32 = .ok .hufDecode ∧
    decode 0x00000006#32 = .ok .hufMetaEmit ∧ decode 0x00000007#32 = .ok .hufMetaParse ∧
    decode 0x00000008#32 = .ok .hufCompress ∧ decode 0x00000009#32 = .ok .hufDecompress := by decide

theorem test_decode_lzw_family :
    decode 0x00000010#32 = .ok .lzwEncode ∧ decode 0x00000011#32 = .ok .lzwDecode := by decide

theorem test_decode_rejects :
    decode 0x00000000#32 = .error .unknownOpcode ∧ decode 0x00000012#32 = .error .unknownOpcode ∧
    decode 0x00000110#32 = .error .reservedBitsSet := by decide

theorem test_decodeTableWord :
    decodeTableWord 32 0x10 = some .lzwEncode ∧ decodeTableWord 8 0x05 = some .hufDecode ∧
    decodeTableWord 32 0x12 = none := by decide

/-! ## The commands, against 95_test_vectors.md -/

/-- T1. -/
theorem test_hufFreq_T1 : after (exec .hufFreq (source abra operands))
    (fun t => presentEntries t.freq == [(0x61, 5), (0x62, 2), (0x63, 1), (0x64, 1), (0x72, 2)] &&
      t.nsym == 5 && t.statusWord == 0x00000002) = true := by decide +kernel

/-- E7: no wrap-around. -/
theorem test_hufFreq_E7 :
    statusAfter .hufFreq { base with srcAddr := 0xFFFFFFF0, srcLen := 0x20 } = some 0x00000404 := by decide +kernel

/-- T1-tree. -/
theorem test_hufBuild_T1 : after (exec .hufBuild { base with freq := freqT1 })
    (fun t => t.tree.nodes == [.leaf 0x61 5 0x61, .leaf 0x62 2 0x62, .leaf 0x63 1 0x63, .leaf 0x64 1 0x64,
      .leaf 0x72 2 0x72, .internal 2 2 3 256, .internal 4 1 4 257, .internal 6 5 6 258, .internal 11 0 7 259] &&
      t.tree.root == some 8 && t.statusWord == 0x00010002) = true := by decide +kernel

/-- T6: at equal frequency a leaf comes before an internal node. -/
theorem test_hufBuild_T6 :
    after (exec .hufBuild { base with freq := tableOf 0 [(0x77, 2), (0x78, 3), (0x79, 1), (0x7A, 1)] })
      (fun t => t.tree.nodes.drop 4 == [.internal 2 2 3 256, .internal 4 0 4 257, .internal 7 1 5 258]) = true := by
  decide +kernel

/-- T8: CODE from T8-tree. -/
theorem test_hufCodegen_T8 :
    after (exec .hufCodegen { base with treeValid := true, tree := {
        nodes := [.leaf 0x69 4 0x69, .leaf 0x6D 1 0x6D, .leaf 0x70 2 0x70, .leaf 0x73 4 0x73, .internal 3 1 2 256,
          .internal 7 4 0 257, .internal 11 3 5 258], root := some 6 } })
      (fun t => (Table.entries t.code).filter (fun e => e.2 != none) == [(0x69, some [true, true]),
        (0x6D, some [true, false, false]), (0x70, some [true, false, true]), (0x73, some [false])]) = true := by
  decide +kernel

/-- T11. -/
theorem test_hufCodegen_T11 : statusAfter .hufCodegen base = some 0x00000304 := by decide +kernel

/-- H1. -/
theorem test_hufEncode_H1 : after (exec .hufEncode (source abra (coded codeT1 operands)))
    (fun t => t.mem.readBytes 0x200 4 == bytes [0x6E, 0x8A, 0xDC, 0] && t.dstLen == 3 && t.dstBits == 23 &&
      t.hbits == 23) = true := by decide +kernel

/-- H3. -/
theorem test_hufEncode_H3 : after (exec .hufEncode (source (bytes [0x61, 0x62, 0x63]) (coded codeAB operands)))
    (fun t => t.statusWord == 0x00030B04 && t.dstLen == 0 && t.dstBits == 0) = true := by decide +kernel

/-- H11. -/
theorem test_hufDecode_H11 :
    after (exec .hufDecode { source (bytes [0x6E, 0x8A, 0xDC]) (coded codeT1 operands) with srcLen := 24 })
      (fun t => t.mem.readBytes 0x200 12 == abra ++ [0x61] && t.dstLen == 12) = true := by decide +kernel

/-- H13. -/
theorem test_hufDecode_H13 :
    statusAfter .hufDecode { source (bytes [0x6E, 0x8A, 0xDC]) (coded codeT1 operands) with srcLen := 21 } =
      some 0x00030704 := by decide +kernel

/-- B0. -/
theorem test_hufMetaEmit_B0 : after (exec .hufMetaEmit { operands with freq := freqT1, hbits := 23 })
    (fun t => t.mem.readBytes 0x300 19 == blobB0 && t.metaOutLen == 19) = true := by decide +kernel

/-- B0f. -/
theorem test_hufMetaEmit_B0f : after (exec .hufMetaEmit { operands with freq := freqT1, hbits := 23, metaLen := 18 })
    (fun t => t.statusWord == 0x00000604 && t.metaOutLen == 0) = true := by decide +kernel

/-- B7: delimiters as symbols. -/
theorem test_hufMetaParse_B7 : after (exec .hufMetaParse (blob
      (bytes [0x30, 0x31, 0x7C, 0x7C, 0x32, 0x7C, 0x7E, 0x32, 0x7C, 0x7E, 0x38, 0x7C]) operands))
    (fun t => presentEntries t.freq == [(0x30, 1), (0x7C, 2), (0x7E, 2)] && t.hbits == 8 && t.nsym == 3) = true := by
  decide +kernel

/-- B13: a duplicate symbol. -/
theorem test_hufMetaParse_B13 : after (exec .hufMetaParse (blob
      (bytes [0x61, 0x31, 0x7C, 0x61, 0x31, 0x7C, 0x7E, 0x32, 0x7C]) { operands with freq := freqT1, hbits := 5 }))
    (fun t => t.statusWord == 0x00000A04 && presentEntries t.freq == [] && t.hbits == 0) = true := by
  decide +kernel

/-- H20. -/
theorem test_hufCompress_H20 : after (exec .hufCompress (source abra operands))
    (fun t => t.statusWord == 0x00030002 && t.mem.readBytes 0x200 3 == bytes [0x6E, 0x8A, 0xDC] && t.dstBits == 23 &&
      t.mem.readBytes 0x300 19 == blobB0 && t.metaOutLen == 19) = true := by decide +kernel

/-- H21. -/
theorem test_hufCompress_H21 : after (exec .hufCompress { source abra operands with metaLen := 18 })
    (fun t => t.statusWord == 0x00030604 && t.dstLen == 0 && t.metaOutLen == 0 && t.hbits == 23) = true := by
  decide +kernel

/-- H32: the padding bit is ignored. -/
theorem test_hufDecompress_H32 :
    after (exec .hufDecompress (blob blobB0 (source (bytes [0x6E, 0x8A, 0xDD]) operands)))
      (fun t => t.mem.readBytes 0x200 11 == abra && t.dstLen == 11 && t.hbits == 23) = true := by decide +kernel

/-- H35. -/
theorem test_hufDecompress_H35 :
    after (exec .hufDecompress (blob blobB0 (source (bytes [0x6E, 0x8A]) operands)))
      (fun t => t.statusWord == 0x00000C04 && t.nsym == 5 && t.hbits == 23) = true := by decide +kernel

/-- Z3. -/
theorem test_lzwEncode_Z3 :
    after (exec .lzwEncode (source (bytes [0x61, 0x62, 0x61, 0x62, 0x61, 0x62, 0x61, 0x62]) operands))
      (fun t => t.mem.readBytes 0x200 8 == bytes [0x06, 0x10, 0x62, 0x10, 0x01, 0x02, 0x06, 0x20] && t.dstBits == 60 &&
        t.dictSize == 260 && t.statusWord == 0x00000002) = true := by decide +kernel

/-- Z14: the overflow notice stands beside the error. -/
theorem test_lzwEncode_Z14 : statusAfter .lzwEncode
    { source (bytes [0x61, 0x62, 0x61, 0x62]) operands with codeWidth := 8, dstCap := 3 } = some 0x0000060C := by
  decide +kernel

/-- Z21: zero padding bits, and the special case. -/
theorem test_lzwDecode_Z21 : after (exec .lzwDecode
    { source (bytes [0x06, 0x10, 0x62, 0x10, 0x01, 0x02, 0x06, 0x20]) operands with srcLen := 64 })
      (fun t => t.mem.readBytes 0x200 8 == bytes [0x61, 0x62, 0x61, 0x62, 0x61, 0x62, 0x61, 0x62] && t.dstLen == 8 &&
        t.dictSize == 260) = true := by decide +kernel

/-- Z26: a later code above the dictionary's size. -/
theorem test_lzwDecode_Z26 : statusAfter .lzwDecode
    { source (bytes [0x30, 0xC0, 0x40]) operands with codeWidth := 9, srcLen := 18 } = some 0x00000804 := by
  decide +kernel

/-! ## The shell, against 95_test_vectors.md and the rules -/

/-- E4: check 2 comes before check 4; E9; E11: no CONFIG check for Huffman commands. -/
theorem test_prechecks_E4_E9_E11 :
    statusAfter .lzwEncode { base with codeWidth := 7, srcAddr := 0xFF0, srcLen := 0x20 } = some 0x00000204 ∧
    statusAfter .lzwEncode { base with srcAddr := 0x100, srcLen := 0x20, dstAddr := 0x110, dstCap := 0x20 } =
      some 0x00000504 ∧
    statusAfter .hufCodegen { base with codeWidth := 17 } = some 0x00000304 := by decide +kernel

/-- E13, E19, E20: STATUS write-one-to-clear, CONFIG's field, a read-only register. -/
theorem test_window_E13_E19_E20 :
    (State.hostWrite { base with done := true, dictOvf := true } 0x008 32 0x2).statusWord = 0x00000008 ∧
    (base.hostWrite 0x010 32 0xFFFFFFFF).readReg .config = 0x0000001F ∧
    (base.hostWrite 0x024 32 5).dstLen = 0 := by decide +kernel

/-- The code readout of 'b' under T1, with CODE_SEL = 0x62. -/
theorem test_code_readout :
    State.codeLenWord { base with code := codeT1, codeSel := 0x62 } = 3 ∧
    State.codeBitsWord { base with code := codeT1, codeSel := 0x62 } 0 = 0xC0000000 ∧
    State.codeBitsWord { base with code := codeT1, codeSel := 0x62 } 1 = 0 := by decide +kernel

/-- R212's worked packing. -/
theorem test_packBits_R212 : packBits [false, true, true, false, true, true, true, false, true, false, false, false,
    true, false, true, false, true, true, false, true, true, true, false] = bytes [0x6E, 0x8A, 0xDC] := by decide

/-- The step that follows a fetched word runs the command: HUF_BUILD right after reset leaves 0x00010002. -/
theorem test_withFetchWord :
    after (step (State.reset.withFetchWord 32 2)) (fun t => t.statusWord == 0x00010002) = true := by decide +kernel

/-- P5's first lines: an illegal word, while the interrupt is enabled, raises IRQ. -/
theorem test_step_P5 : after (step (State.hostWrite { base with irqEn := true } 0x00C 32 0))
    (fun t => t.statusWord == 0x00000104 && t.irq) = true := by decide +kernel

/-! ## Witnesses: states and operands that meet the hypotheses of the statements, clause by clause -/

/-- A running HUF_COMPRESS of "ab". -/
def running : State := (source ab operands).issue (encode .hufCompress)

/-- A host write that lands while a command runs. -/
def earlyWrite : Input := { early := true, action := .write 0x014 32 1 }

theorem witness_StepRunsDecodedCommand :
    (running.engine = .busy ∧ hostMovesFirst running = false ∧ decode running.cmd = .ok .hufCompress) ∧
    ((base.issue 0x0A).engine = .busy ∧ hostMovesFirst (base.issue 0x0A) = false ∧
      decode (base.issue 0x0A).cmd = .error .unknownOpcode) ∧
    base.engine = .idle ∧ hostMovesFirst { running with inputs := [earlyWrite] } = true ∧ base.inputs = [] ∧
    State.irq { base with irqEn := true, done := true } = true ∧ base.irq = false := by decide +kernel

/-- R303's ranges at their ends, and the least word with RSVD set. -/
theorem witness_IllegalWordStops : base.engine = .idle ∧ hostMovesFirst base = false ∧
    ([(0x00 : Word), 0x0A, 0x0F, 0x12, 0xFF, 0x101].all fun w => decide (w.toNat / 256 ≠ 0 ∨
      w.toNat % 256 ∉ [0x01, 0x02, 0x03, 0x04, 0x05, 0x06, 0x07, 0x08, 0x09, 0x10, 0x11])) = true := by decide

theorem witness_CmdWriteIssues : base.engine = .idle ∧ running.engine = .busy := by decide

/-- Check 1; check 2 at 7 and 17; check 3; check 4 one byte past the end; check 5 by one shared byte; all passed with a
region that ends at the last byte and regions that touch. -/
theorem witness_PrechecksInOrder :
    ((0x110 : Word).toNat / 256 ≠ 0) ∧
    (¬ (8 ≤ (7 : BitVec 5).toNat ∧ (7 : BitVec 5).toNat ≤ 16) ∧
      ¬ (8 ≤ (17 : BitVec 5).toNat ∧ (17 : BitVec 5).toNat ≤ 16)) ∧
    (base.treeValid = false ∧ base.codeValid = false) ∧
    (0xFF0 + 0x11 > base.memTop.toNat + 1 ∧
      precheck .hufFreq { base with srcAddr := 0xFF0, srcLen := 0x11 } = some .busError ∧
      precheck .hufFreq { base with srcAddr := 0xFF0, srcLen := 0x10 } = none) ∧
    (precheck .lzwEncode { base with srcAddr := 0x100, srcLen := 0x10, dstAddr := 0x10F, dstCap := 1 } =
        some .regionOverlap ∧
      precheck .lzwEncode { base with srcAddr := 0x100, srcLen := 0x10, dstAddr := 0x110, dstCap := 1 } = none) := by
  decide +kernel

theorem witness_CommandFrame : ∃ t, exec .hufBuild base = .next t := ⟨_, rfl⟩

/-- One command of each group completes with DONE. -/
theorem witness_SuccessStoresOnlyOutput :
    (∃ t, exec .hufBuild base = .next t ∧ t.done = true) ∧
    (∃ t, exec .hufDecode (coded codeAB operands) = .next t ∧ t.done = true) ∧
    (∃ t, exec .hufMetaEmit operands = .next t ∧ t.done = true) ∧
    (∃ t, exec .hufCompress (source ab operands) = .next t ∧ t.done = true) :=
  ⟨exists_of_after (p := State.done) (by decide +kernel), exists_of_after (p := State.done) (by decide +kernel),
    exists_of_after (p := State.done) (by decide +kernel), exists_of_after (p := State.done) (by decide +kernel)⟩

/-- Errors after the pre-checks, in each group. -/
theorem witness_FailureZeroesResults :
    (precheck .hufEncode (source ab (coded codeT1 { operands with dstCap := 0 })) = none ∧
      ∃ t, exec .hufEncode (source ab (coded codeT1 { operands with dstCap := 0 })) = .next t ∧ t.error = true) ∧
    (precheck .hufMetaEmit { operands with metaLen := 2 } = none ∧
      ∃ t, exec .hufMetaEmit { operands with metaLen := 2 } = .next t ∧ t.error = true) ∧
    (precheck .lzwDecode { operands with srcLen := 8 } = none ∧
      ∃ t, exec .lzwDecode { operands with srcLen := 8 } = .next t ∧ t.error = true) :=
  ⟨⟨by decide +kernel, exists_of_after (p := State.error) (by decide +kernel)⟩,
    ⟨by decide +kernel, exists_of_after (p := State.error) (by decide +kernel)⟩,
    ⟨by decide +kernel, exists_of_after (p := State.error) (by decide +kernel)⟩⟩

theorem running_inv : running.Inv where
  memWf := by decide +kernel
  memInRange := by decide +kernel
  oneOutcome := by decide
  errCodeIff := by decide
  busyQuiet := by decide
  nsymCounts := by
    rw [← presentCount_eq]
    decide +kernel
  treeEmpty := fun _ => rfl
  treeBuilt := by decide
  codeAbsent := fun _ x => Table.lookup_replicate none x
  codeDerived := by intro h; cases h
  dstBitsFit := .inl rfl
  dictSizeBounds := .inl rfl

theorem witness_EveryStepKeepsInvariant : running.Inv ∧ ∃ t, step running = .next t ∧ t.done = true :=
  ⟨running_inv, exists_of_after (p := State.done) (by decide +kernel)⟩

/-- A reset of a running command, with and without IRQ_EN in the same write, and of an idle core. -/
theorem witness_ResetTakesCoreToResetState :
    (0x2 : Word).getLsbD 1 = true ∧ (0x3 : Word).getLsbD 1 = true ∧ base.engine = .idle ∧
    running.engine = .busy ∧ decode running.cmd = .ok .hufCompress ∧ ¬ inWriteRegion .hufCompress running 0x1FF := by
  refine ⟨by decide, by decide, by decide, by decide, by decide, ?_⟩
  rintro ⟨r, hr, hw, h₁, h₂⟩
  simp only [regions, List.mem_cons, List.not_mem_nil, or_false] at hr
  rcases hr with rfl | rfl | rfl
  · cases hw
  · exact absurd h₁ (by decide)
  · exact absurd h₁ (by decide)

theorem witness_StatusWriteOneToClear : base.engine = .idle ∧ running.engine = .busy := by decide

theorem witness_WindowReadsByOffset : base.engine = .idle := by decide

theorem witness_WindowWritesByOffset : base.engine = .idle ∧ (0x1 : Word).getLsbD 1 = false := by decide

/-- Both ends of both reserved ranges. -/
theorem witness_ReservedOffsetsInert :
    ([(0x06C : BitVec 12), 0x3FC, 0x800, 0xFFC].all fun off => decide (off.toNat % 4 = 0 ∧
      ((0x06C ≤ off.toNat ∧ off.toNat ≤ 0x3FC) ∨ (0x800 ≤ off.toNat ∧ off.toNat ≤ 0xFFC)))) = true := by decide

theorem witness_IrregularAccessRefused : (16 ≠ 32 ∨ (0x008 : BitVec 12).toNat % 4 ≠ 0) ∧
    ((32 : Nat) ≠ 32 ∨ (0x006 : BitVec 12).toNat % 4 ≠ 0) := by decide

/-- A running command; each clause at the ends of its range. -/
theorem witness_AccessWhileBusy : running.engine = .busy ∧ (0x008 : BitVec 12).toNat % 4 = 0 ∧
    (0x008 : BitVec 12) ≠ 0x004 ∧ (0x1 : Word).getLsbD 1 = false ∧ (0x2 : Word).getLsbD 1 = true ∧
    ([(0x048 : BitVec 12), 0x068, 0x400, 0x7FC].all fun off => decide (off.toNat % 4 = 0 ∧
      ((0x048 ≤ off.toNat ∧ off.toNat ≤ 0x068) ∨ (0x400 ≤ off.toNat ∧ off.toNat ≤ 0x7FC)))) = true := by decide

theorem witness_FreqWindowWrite : base.engine = .idle ∧ running.engine = .busy := by decide

/-- A symbol with a codeword, and one without. -/
theorem witness_CodeReadout : base.engine = .idle ∧
    codeT1.lookup 0x62 = some [true, true, false] ∧ codeT1.lookup 0x65 = none := by decide +kernel

theorem witness_InterruptLevel : (∃ t, exec .hufBuild base = .next t) ∧ base.engine = .idle ∧
    (0x6 : Word).getLsbD 1 = true ∧ (0x6 : Word).getLsbD 2 = true ∧
    State.done { base with done := true } = true := ⟨⟨_, rfl⟩, by decide⟩

/-- Outside data memory at the first missing address and at 2^32; in the running command's read region and write region; in
neither, at the first byte past DST. -/
theorem witness_HostMemoryAccess :
    (0x1000 > running.memTop.toNat ∧ 2 ^ 32 > running.memTop.toNat ∧ 0xFFF ≤ running.memTop.toNat) ∧
    (running.engine = .busy ∧ decode running.cmd = .ok .hufCompress ∧ running.mem.wf = true) ∧
    (∃ r ∈ regions .hufCompress running, r.addr ≤ 0x101 ∧ 0x101 < r.addr + r.len) ∧
    inWriteRegion .hufCompress running 0x20F ∧
    ¬ ∃ r ∈ regions .hufCompress running, r.addr ≤ 0x210 ∧ 0x210 < r.addr + r.len := by
  refine ⟨by decide, by decide +kernel, ⟨srcRegion running, by simp [regions], by decide⟩,
    ⟨dstRegion running, by simp [regions], by decide⟩, ?_⟩
  rintro ⟨r, hr, h₁, h₂⟩
  simp only [regions, List.mem_cons, List.not_mem_nil, or_false] at hr
  rcases hr with rfl | rfl | rfl
  · exact absurd h₂ (by decide)
  · exact absurd h₂ (by decide)
  · exact absurd h₁ (by decide)

/-- An empty SRC anywhere, a SRC that ends at the last byte, and one a byte longer. -/
theorem witness_HufFreqCountsBytes :
    State.srcLen { base with srcAddr := 0xFFFFFFFF } = 0 ∧ 0xFF0 + 0x10 ≤ base.memTop.toNat + 1 ∧
    ¬ ((0x11 : Word) = 0 ∨ 0xFF0 + (0x11 : Word).toNat ≤ base.memTop.toNat + 1) := by decide

theorem witness_HufCodegenDerivesCodes : State.treeValid { base with treeValid := true } = true ∧
    base.treeValid = false := by decide

/-- No, one and two present symbols. -/
theorem witness_TreeShape : (presentSymbols (Vector.replicate 256 0)).length = 0 ∧
    (presentSymbols (tableOf 0 [(0x61, 4)])).length = 1 ∧ (presentSymbols freqAB).length = 2 ∧
    isChildOf (buildTree freqAB).nodes 0 2 := by
  simp only [presentSymbols_eq]
  refine ⟨by decide +kernel, by decide +kernel, by decide +kernel, 2, 0, 1, 256, ?_, .inl rfl⟩
  decide +kernel

theorem witness_TreeFrequenciesAreSums : (presentSymbols freqAB)[1]? = some 0x62 ∧
    (buildTree freqAB).nodes[2]? = some (.internal 2 0 1 256) ∧ (buildTree freqAB).root = some 2 := by
  simp only [presentSymbols_eq]
  decide +kernel

/-- The first merge of T1: node 5 over c and d; 'a' is a node that exists then and is no child yet. -/
theorem witness_MergesTakeTheTwoLeast : (buildTree freqT1).nodes[5]? = some (.internal 2 2 3 256) ∧ 0 < 5 ∧
    (buildTree freqT1).nodes[0]? = some (.leaf 0x61 5 0x61) ∧
    (∀ p, p < 5 → ¬ isChildOf (buildTree freqT1).nodes 0 p) := by
  refine ⟨by decide +kernel, by decide, by decide +kernel, ?_⟩
  rintro p hp ⟨f, l, r, k, h, -⟩
  have hn : (buildTree freqT1).nodes.take 5 =
      [.leaf 0x61 5 0x61, .leaf 0x62 2 0x62, .leaf 0x63 1 0x63, .leaf 0x64 1 0x64, .leaf 0x72 2 0x72] := by
    decide +kernel
  rw [← List.getElem?_take_of_lt hp, hn] at h
  interval_cases p <;> simp at h

theorem witness_CodewordsArePaths : 2 ≤ (presentSymbols freqAB).length ∧
    presentSymbols (tableOf 0 [(0x61, 4)]) = [0x61] ∧ presentSymbols (Vector.replicate 256 0) = [] := by
  simp only [presentSymbols_eq]
  decide +kernel

theorem witness_CodeIsPrefixFree : 2 ≤ (presentSymbols freqAB).length ∧
    255 ≤ (List.replicate 255 true).length := by
  simp only [presentSymbols_eq]
  decide +kernel

theorem codeAB_lookup (x : Byte) :
    codeAB.lookup x = if x = 0x62 then some [true] else if x = 0x61 then some [false] else none := by
  simp [codeAB, tableOf, Table.lookup_update]

theorem codeAB_prefixFree : prefixFree codeAB := by
  intro x y c d hx hy h
  rw [codeAB_lookup] at hx hy
  split at hx <;> split at hy <;> (try split at hx) <;> (try split at hy) <;> simp_all <;> subst hx hy <;> simp at h

theorem codeAB_lengthsLegal : lengthsLegal codeAB := by
  intro x c hx
  rw [codeAB_lookup] at hx
  split at hx
  · cases hx; decide
  · split at hx
    · cases hx; decide
    · cases hx

/-- A stream that just fits DST. -/
theorem witness_HufEncodeWritesStream :
    precheck .hufEncode (source ab (coded codeAB { operands with dstCap := 1 })) = none ∧
    encodeBits codeAB ab = some [false, true] ∧
    srcBytes (source ab (coded codeAB { operands with dstCap := 1 })) = ab ∧ ceil8 2 ≤ 1 := by decide +kernel

/-- A byte without a codeword after one with; a codeword that no longer fits. -/
theorem witness_HufEncodeStopsAtFirstError :
    (precheck .hufEncode (source (bytes [0x61, 0x63]) (coded codeAB operands)) = none ∧
      srcBytes (source (bytes [0x61, 0x63]) (coded codeAB operands)) = [0x61] ++ 0x63 :: [] ∧
      encodeBits codeAB [0x61] = some [false] ∧ codeAB.lookup 0x63 = none) ∧
    (precheck .hufEncode (source ab (coded codeAB { operands with dstCap := 0 })) = none ∧
      srcBytes (source ab (coded codeAB { operands with dstCap := 0 })) = [] ++ 0x61 :: [0x62] ∧
      encodeBits codeAB [] = some [] ∧ codeAB.lookup 0x61 = some [false] ∧ ¬ ceil8 1 ≤ 0) := by decide +kernel

/-- The two bits 01 in the byte 0x40. -/
theorem witness_HufDecodeInvertsCode :
    precheck .hufDecode { source [0x40] (coded codeAB operands) with srcLen := 2 } = none ∧
    prefixFree codeAB ∧ lengthsLegal codeAB ∧
    encodeBits codeAB ab = some ((source [0x40] (coded codeAB operands)).mem.readBits 0x100 2) :=
  ⟨by decide +kernel, codeAB_prefixFree, codeAB_lengthsLegal, by decide +kernel⟩

/-- The code with the one codeword 0, of T2. -/
def codeA : Table (Option Codeword) := tableOf none [(0x61, some [false])]

theorem codeA_lookup (x : Byte) : codeA.lookup x = if x = 0x61 then some [false] else none := by
  simp [codeA, tableOf, Table.lookup_update]

/-- H19: the bits 01 leave the residual 1; with DST_CAP = 0 the first bit already overflows. -/
theorem witness_HufDecodeErrors :
    (precheck .hufDecode { source [0x40] (coded codeA operands) with srcLen := 2 } = none ∧
      (source [0x40] (coded codeA operands)).mem.readBits 0x100 2 = [false] ++ [true] ∧
      encodeBits codeA [0x61] = some [false]) ∧
    (prefixFree codeA ∧ lengthsLegal codeA ∧ ∀ x c, codeA.lookup x = some c → ¬ c <+: [true]) ∧
    precheck .hufDecode { source [0x40] (coded codeA { operands with dstCap := 0 }) with srcLen := 2 } = none := by
  refine ⟨by decide +kernel, ⟨?_, ?_, ?_⟩, by decide +kernel⟩
  · intro x y c d hx hy _
    rw [codeA_lookup] at hx hy
    split at hx <;> split at hy <;> simp_all
  · intro x c hx
    rw [codeA_lookup] at hx
    split at hx <;> cases hx
    decide
  · intro x c hx
    rw [codeA_lookup] at hx
    split at hx <;> cases hx
    decide

theorem witness_EmittedBlobsParseBack : 4294967295 ≤ 2 ^ 32 - 1 ∧ (dec 0).head? = some 0x30 := by decide

/-- A META of 3 bytes that ends at the last byte and that the 3-byte blob of an empty table just fits; one a byte
shorter; and one out of range by a byte. -/
theorem witness_HufMetaEmitWritesBlob : (emitBlob operands.freq operands.hbits.toNat).length = 3 ∧
    0xFFD + 3 ≤ operands.memTop.toNat + 1 ∧ 2 < 3 ∧
    ¬ ((3 : Word) = 0 ∨ 0xFFE + (3 : Word).toNat ≤ operands.memTop.toNat + 1) := by decide +kernel

theorem blobAB_parses : ∃ f, parseBlob blobAB = some (f, 2) := by
  have h : (parseBlob blobAB).map (·.2) = some 2 := by decide +kernel
  obtain ⟨⟨f, n⟩, hp, rfl⟩ := Option.map_eq_some_iff.1 h
  exact ⟨f, hp⟩

theorem witness_HufMetaParseInstallsTable :
    (0x300 + 9 ≤ operands.memTop.toNat + 1 ∧ metaBytes (blob blobAB operands) = blobAB ∧
      ∃ f len, parseBlob blobAB = some (f, len)) ∧
    ((blob [] operands).metaLen = 0 ∧ metaBytes (blob [] operands) = [] ∧ parseBlob [] = none) ∧
    ¬ ((2 : Word) = 0 ∨ 0xFFF + (2 : Word).toNat ≤ operands.memTop.toNat + 1) :=
  ⟨⟨by decide, by decide +kernel, let ⟨f, h⟩ := blobAB_parses; ⟨f, 2, h⟩⟩,
    ⟨by decide +kernel, by decide +kernel, by decide⟩, by decide⟩

/-- A DST and a META that the stream and the blob just fit. -/
theorem witness_HufCompressWritesBoth :
    precheck .hufCompress (source ab { operands with dstCap := 1, metaLen := 9 }) = none ∧
    srcBytes (source ab { operands with dstCap := 1, metaLen := 9 }) = ab ∧
    encodeBits (deriveCodes (buildTree (freqOf ab))) ab = some [false, true] ∧
    ceil8 [false, true].length ≤ 1 ∧ (emitBlob (freqOf ab) 2).length ≤ 9 := by decide +kernel

/-- A DST, and then a META, one byte too short. -/
theorem witness_HufCompressOverflows :
    precheck .hufCompress (source ab { operands with dstCap := 0 }) = none ∧
    precheck .hufCompress (source ab { operands with dstCap := 1, metaLen := 8 }) = none ∧
    encodeBits (deriveCodes (buildTree (freqOf ab))) ab = some [false, true] ∧
    ¬ ceil8 [false, true].length ≤ 0 ∧ 8 < (emitBlob (freqOf ab) 2).length := by decide +kernel

theorem witness_CompressFindsEverySymbol : ab.length ≤ 2 ^ 32 - 1 ∧
    ∃ t, exec .hufCompress (source ab operands) = .next t := ⟨by decide, _, rfl⟩

theorem witness_CompressIsTheSequence : ∃ t, exec .hufCompress (source ab operands) = .next t ∧ t.done = true :=
  exists_of_after (p := State.done) (by decide +kernel)

/-- The byte 0x40 and the blob "a1|b1|~2|", as a HUF_DECOMPRESS reads them. -/
def packed : State := blob blobAB (source [0x40] { operands with dstCap := 2 })

theorem witness_HufDecompressWritesBytes : precheck .hufDecompress packed = none ∧
    (∃ f, parseBlob (metaBytes packed) = some (f, 2) ∧ 2 ≤ 8 * packed.srcLen.toNat ∧
      encodeBits (deriveCodes (buildTree f)) ab = some (packed.mem.readBits packed.srcAddr.toNat 2)) ∧
    ab.length ≤ packed.dstCap.toNat := by
  refine ⟨by decide +kernel, ?_, by decide +kernel⟩
  have h : (parseBlob (metaBytes packed)).map (fun p => (p.2, encodeBits (deriveCodes (buildTree p.1)) ab)) =
      some (2, some (packed.mem.readBits packed.srcAddr.toNat 2)) := by decide +kernel
  obtain ⟨⟨f, n⟩, hp, he⟩ := Option.map_eq_some_iff.1 h
  obtain ⟨rfl, hb⟩ := Prod.mk.inj he
  exact ⟨f, hp, by decide +kernel, hb⟩

/-- A blob without its last byte; a SRC too short for the blob's 2 bits; a DST too short for the two bytes. -/
theorem witness_HufDecompressErrors :
    (precheck .hufDecompress { packed with metaLen := 8 } = none ∧
      parseBlob (metaBytes { packed with metaLen := 8 }) = none) ∧
    (precheck .hufDecompress { packed with dstCap := 1 } = none ∧ ∃ f e, parseBlob (metaBytes packed) = some (f, 2) ∧
      decodeLoop (deriveCodes (buildTree f)) 1 (packed.mem.readBits packed.srcAddr.toNat 2) [] [] = .error e) ∧
    (precheck .hufDecompress { packed with srcLen := 0 } = none ∧ 8 * (0 : Word).toNat < 2 ∧
      ∃ f, parseBlob (metaBytes { packed with srcLen := 0 }) = some (f, 2)) := by
  refine ⟨⟨by decide +kernel, by decide +kernel⟩, ⟨by decide +kernel, ?_⟩, by decide +kernel, by decide, ?_⟩
  · have h : (parseBlob (metaBytes packed)).map (fun p => (p.2, (decodeLoop (deriveCodes (buildTree p.1)) 1
        (packed.mem.readBits packed.srcAddr.toNat 2) [] []).toBool)) = some (2, false) := by decide +kernel
    obtain ⟨⟨f, n⟩, hp, he⟩ := Option.map_eq_some_iff.1 h
    obtain ⟨rfl, hb⟩ := Prod.mk.inj he
    cases hd : decodeLoop (deriveCodes (buildTree f)) 1 (packed.mem.readBits packed.srcAddr.toNat 2) [] [] with
    | error e => exact ⟨f, e, hp, hd⟩
    | ok r => rw [hd] at hb; cases hb
  rw [show metaBytes { packed with srcLen := 0 } = blobAB by decide +kernel]
  exact blobAB_parses

theorem witness_HuffmanRoundTrip :
    (source ab operands).mem.wf = true ∧ packed.mem.wf = true ∧
    (∃ t, exec .hufCompress (source ab operands) = .next t ∧ t.done = true ∧
      srcBytes packed = t.mem.readBytes t.dstAddr.toNat t.dstLen.toNat ∧
      metaBytes packed = t.mem.readBytes t.metaAddr.toNat t.metaOutLen.toNat) ∧
    (source ab operands).srcLen.toNat ≤ packed.dstCap.toNat ∧ precheck .hufDecompress packed = none := by
  refine ⟨by decide +kernel, by decide +kernel, ?_, by decide +kernel, by decide +kernel⟩
  obtain ⟨t, h, hp⟩ := exists_of_after (o := exec .hufCompress (source ab operands))
    (p := fun t => t.done && srcBytes packed == t.mem.readBytes t.dstAddr.toNat t.dstLen.toNat &&
      metaBytes packed == t.mem.readBytes t.metaAddr.toNat t.metaOutLen.toNat) (by decide +kernel)
  simp only [Bool.and_eq_true, beq_iff_eq] at hp
  exact ⟨t, h, hp.1.1, hp.1.2, hp.2⟩

theorem witness_BitLengthIsWeightedSum :
    (∃ t, exec .hufCompress (source ab operands) = .next t ∧ t.done = true) ∧
    ∃ s, s.code = deriveCodes (buildTree (freqOf (srcBytes s))) ∧ ∃ t, exec .hufEncode s = .next t ∧ t.done = true := by
  refine ⟨exists_of_after (p := State.done) (by decide +kernel),
    source ab (coded (deriveCodes (buildTree (freqOf ab))) operands), ?_,
    exists_of_after (p := State.done) (by decide +kernel)⟩
  rw [show srcBytes (source ab (coded (deriveCodes (buildTree (freqOf ab))) operands)) = ab by decide +kernel]
  rfl

/-- The encoder's run on "ab" at width 12, in a DST of 3 bytes. -/
theorem encode_ab : ∃ d, (lzwEncodeLoop 12 3 ab seedDict [] [] false).result =
    .ok (natToBits 12 97 ++ natToBits 12 98, d) := by
  have h : (match (lzwEncodeLoop 12 3 ab seedDict [] [] false).result with
      | .ok (b, _) => b == natToBits 12 97 ++ natToBits 12 98
      | .error _ => false) = true := by decide +kernel
  split at h
  · next b d he => exact ⟨d, by rw [he, beq_iff_eq.1 h]⟩
  · cases h

theorem witness_LzwEncodeWritesCodes :
    precheck .lzwEncode (source ab { operands with dstCap := 3 }) = none ∧
    srcBytes (source ab { operands with dstCap := 3 }) = ab ∧
    ∃ bits d, (lzwEncodeLoop 12 3 ab seedDict [] [] false).result = .ok (bits, d) :=
  ⟨by decide +kernel, by decide +kernel, let ⟨d, h⟩ := encode_ab; ⟨_, d, h⟩⟩

theorem witness_LzwEncodeIsGreedy : 8 ≤ 12 ∧ 12 ≤ 16 ∧
    ∃ bits d, (lzwEncodeLoop 12 3 ab seedDict [] [] false).result = .ok (bits, d) :=
  ⟨by decide, by decide, let ⟨d, h⟩ := encode_ab; ⟨_, d, h⟩⟩

/-- At width 8 a run of zero bytes gives eight bits a byte, so a run long enough does not fit any DST. -/
theorem zeros_overflow (cap n : Nat) (bits : Bits) (ovf : Bool) (h : 4294967295 < bits.length + 8 * (n + 1)) :
    ∃ e, (lzwEncodeLoop 8 cap (List.replicate n 0) seedDict [0] bits ovf).result = .error e := by
  have hlong : ([0, 0] : List Byte) ∉ seedDict := by simp [seedDict]
  have hfull : insertFragment (2 ^ 8) seedDict [0, 0] = seedDict := by simp [insertFragment, seedDict, allSymbols]
  induction n generalizing bits ovf with
  | zero =>
    have : streamTooLong (bits ++ natToBits 8 (seedDict.idxOf [0])).length cap = true := by
      simp only [streamTooLong, Config.maxStreamBits, List.length_append, natToBits, List.length_map, List.length_range,
        Bool.or_eq_true, decide_eq_true_eq]
      omega
    simp only [List.replicate, lzwEncodeLoop, emitCode, this]
    exact ⟨_, rfl⟩
  | succ n ih =>
    simp only [List.replicate_succ, lzwEncodeLoop, List.cons_append, List.nil_append, hlong, if_false, hfull, emitCode]
    split
    · next e he => exact ⟨_, rfl⟩
    · next b hb =>
      split at hb
      · cases hb
      · cases hb
        refine ih _ _ ?_
        simp only [List.length_append, natToBits, List.length_map, List.length_range]
        omega

/-- A source of 2^29 zero bytes at width 8: its codes need 2^32 bits. -/
def longSource : State :=
  { State.resetWith 0xFFFFFFFF#32 with srcLen := 0x20000000, dstAddr := 0x80000000, dstCap := 0x10, codeWidth := 8 }

theorem longSource_overflows : precheck .lzwEncode longSource = none ∧
    ∃ e, (lzwEncodeLoop 8 (2 ^ 32) (srcBytes longSource) seedDict [] [] false).result = .error e := by
  refine ⟨by decide +kernel, ?_⟩
  have hz : ∀ n, Memory.readBytes [] 0 n = List.replicate n 0 := by
    intro n
    apply List.ext_getElem <;> simp [Memory.readBytes, Memory.read, Memory.unlisted]
  have hs : srcBytes longSource = List.replicate (536870911 + 1) 0 := hz _
  have hseed : ([0] : List Byte) ∈ seedDict := by simp [seedDict, mem_allSymbols]
  rw [hs, List.replicate_succ, lzwEncodeLoop, List.nil_append, if_pos hseed]
  exact zeros_overflow _ _ _ _ (by decide)

/-- A DST one byte too short. A stream too long for any DST: `longSource_overflows`. -/
theorem witness_LzwEncodeOverflow :
    precheck .lzwEncode (source ab { operands with dstCap := 2 }) = none ∧
    (∃ e, (lzwEncodeLoop 12 2 ab seedDict [] [] false).result = .error e) ∧
    (∃ bits d, (lzwEncodeLoop 12 (2 ^ 32) ab seedDict [] [] false).result = .ok (bits, d)) := by
  refine ⟨by decide +kernel, ?_, ?_⟩
  · have h : (lzwEncodeLoop 12 2 ab seedDict [] [] false).result.toBool = false := by decide +kernel
    cases hr : (lzwEncodeLoop 12 2 ab seedDict [] [] false).result with
    | error e => exact ⟨e, rfl⟩
    | ok r => rw [hr] at h; cases h
  · have h : (lzwEncodeLoop 12 (2 ^ 32) ab seedDict [] [] false).result.toBool = true := by decide +kernel
    cases hr : (lzwEncodeLoop 12 (2 ^ 32) ab seedDict [] [] false).result with
    | error e => rw [hr] at h; cases h
    | ok r => exact ⟨r.1, r.2, rfl⟩

theorem witness_LzwWidthEightCopies : ab.length ≤ 2 ∧ ab.length ≤ 2 ^ 29 - 1 := by decide

/-- The codes 97, 98 at width 12, in a DST that "ab" just fits. -/
def codes12 : State := { source (bytes [0x06, 0x10, 0x62]) operands with srcLen := 24, dstCap := 2 }

/-- The two codes in a DST they just fit, and in one a byte shorter. -/
theorem witness_LzwDecodeWritesBytes : precheck .lzwDecode codes12 = none ∧
    (precheck .lzwDecode { codes12 with dstCap := 1 } = none ∧
      (lzwDecodeBits 12 1 (codes12.mem.readBits 0x100 24)).toBool = false) ∧
    ∃ d, lzwDecodeBits 12 2 (codes12.mem.readBits 0x100 24) = .ok (ab, d) := by
  refine ⟨by decide +kernel, by decide +kernel, ?_⟩
  have h : (match lzwDecodeBits 12 2 (codes12.mem.readBits 0x100 24) with
      | .ok (out, _) => out == ab
      | .error _ => false) = true := by decide +kernel
  split at h
  · next out d he => exact ⟨d, by rw [he, beq_iff_eq.1 h]⟩
  · cases h

/-- Eight bits left over; a bit set among those left over; and neither. -/
theorem witness_LzwDecodeLength :
    (precheck .lzwDecode { codes12 with srcLen := 20 } = none ∧ 7 < 20 % 12) ∧
    (precheck .lzwDecode { codes12 with srcLen := 19 } = none ∧
      (codes12.mem.readBits 0x100 19)[17]? = some true) ∧
    (precheck .lzwDecode codes12 = none ∧ 24 % 12 = 0 ∧ (codes12.mem.readBits 0x100 24).length = 24) := by
  decide +kernel

/-- After the one code 97 the output is "a" and the dictionary the seed: code 257 is above it, 255 in it, 256 the special
case. Their fragments of one and two bytes fit a DST of 3 bytes, and not one of 1. The code 256 alone is an error. -/
theorem witness_LzwDecodeCodeByCode :
    lzwDecodeCodes 9 3 [] = .ok ([], seedDict) ∧ lzwDecodeCodes 9 3 ([] ++ [97]) = .ok ([0x61], seedDict) ∧
    lzwDecodeCodes 9 1 ([] ++ [97]) = .ok ([0x61], seedDict) ∧
    seedDict.length = 256 ∧ seedDict[255]? = some [0xFF] ∧
    lzwDecodeCodes 9 3 [256] = .error .corruptLzwCode := by decide +kernel

theorem witness_LzwDecoderMirrorsEncoder : 8 ≤ 12 ∧ 12 ≤ 16 ∧ ab.length ≤ 2 ∧
    ∃ bits d, (lzwEncodeLoop 12 3 ab seedDict [] [] false).result = .ok (bits, d) :=
  ⟨by decide, by decide, by decide, let ⟨d, h⟩ := encode_ab; ⟨_, d, h⟩⟩

theorem witness_LzwRoundTrip :
    (source ab operands).mem.wf = true ∧ codes12.mem.wf = true ∧ codes12.codeWidth = (source ab operands).codeWidth ∧
    (∃ t, exec .lzwEncode (source ab operands) = .next t ∧ t.done = true ∧ codes12.srcLen = t.dstBits ∧
      codes12.mem.readBytes codes12.srcAddr.toNat t.dstLen.toNat =
        t.mem.readBytes t.dstAddr.toNat t.dstLen.toNat) ∧
    (source ab operands).srcLen.toNat ≤ codes12.dstCap.toNat ∧ precheck .lzwDecode codes12 = none := by
  refine ⟨by decide +kernel, by decide +kernel, by decide, ?_, by decide +kernel, by decide +kernel⟩
  obtain ⟨t, h, hp⟩ := exists_of_after (o := exec .lzwEncode (source ab operands))
    (p := fun t => t.done && codes12.srcLen == t.dstBits &&
      codes12.mem.readBytes codes12.srcAddr.toNat t.dstLen.toNat == t.mem.readBytes t.dstAddr.toNat t.dstLen.toNat)
    (by decide +kernel)
  simp only [Bool.and_eq_true, beq_iff_eq] at hp
  exact ⟨t, h, hp.1.1, hp.1.2, hp.2⟩

end Sys2Proof.Machine.Tests
end

section
/-! PROOF. Decimal spellings (R11), one record read back (R465, R467), and a blob of records in any order read back (R468).
O41 is assembled from them. -/

namespace Sys2Proof.Machine

/-! ## Decimal spellings (R11) -/

theorem digitByte_toNat {d : Nat} (h : d < 10) : (digitByte d).toNat = 0x30 + d := by
  simp only [digitByte, BitVec.toNat_ofNat]
  omega

theorem isDigit_digitByte {d : Nat} (h : d < 10) : isDigit (digitByte d) = true := by
  simp only [isDigit, digitByte_toNat h, Bool.and_eq_true, decide_eq_true_eq]
  omega

theorem digitByte_eq_zeroDigit {d : Nat} (h : d < 10) (he : digitByte d = 0x30) : d = 0 := by
  have := digitByte_toNat h
  rw [he] at this
  simpa using this

/-- Any fuel above the number gives the same digits. -/
theorem decimalDigits_fuel_irrelevant : ∀ (a b n : Nat), n < a → n < b → decimalDigits a n = decimalDigits b n
  | a + 1, b + 1, n, ha, hb => by
    simp only [decimalDigits]
    split
    · rfl
    · rw [decimalDigits_fuel_irrelevant a b (n / 10) (by omega) (by omega)]

theorem dec_of_lt {n : Nat} (h : n < 10) : dec n = [digitByte n] := by simp [dec, decimalDigits, h]

theorem dec_of_ge {n : Nat} (h : 10 ≤ n) : dec n = dec (n / 10) ++ [digitByte (n % 10)] := by
  rw [dec, decimalDigits, if_neg (by omega), decimalDigits_fuel_irrelevant n (n / 10 + 1) (n / 10) (by omega) (by omega),
    dec]

/-- Induction on the decimal spelling: one digit, or one digit more than the spelling of `n / 10`. -/
theorem decimal_induction {p : Nat → Prop} (digit : ∀ n, n < 10 → p n) (more : ∀ n, 10 ≤ n → p (n / 10) → p n) (n : Nat) :
    p n := by
  induction n using Nat.strongRecOn with
  | ind n ih =>
    obtain h | h := Nat.lt_or_ge n 10
    · exact digit n h
    · exact more n h (ih (n / 10) (by omega))

theorem decimalValue_append_singleton (ds : List Byte) (d : Byte) :
    decimalValue (ds ++ [d]) = 10 * decimalValue ds + (d.toNat - 0x30) := by
  simp [decimalValue]

@[simp] theorem decimalValue_dec (n : Nat) : decimalValue (dec n) = n := by
  induction n using decimal_induction with
  | digit n h => simp [dec_of_lt h, decimalValue, digitByte_toNat h]
  | more n h ih =>
    rw [dec_of_ge h, decimalValue_append_singleton, ih, digitByte_toNat (Nat.mod_lt n (by omega))]
    omega

theorem isDigit_of_mem_dec (n : Nat) : ∀ d ∈ dec n, isDigit d = true := by
  induction n using decimal_induction with
  | digit n h => simp [dec_of_lt h, isDigit_digitByte h]
  | more n h ih =>
    simp only [dec_of_ge h, List.mem_append, List.mem_singleton]
    rintro d (hd | rfl)
    · exact ih d hd
    · exact isDigit_digitByte (Nat.mod_lt n (by omega))

@[simp] theorem dec_ne_nil (n : Nat) : dec n ≠ [] := by
  obtain h | h := Nat.lt_or_ge n 10
  · simp [dec_of_lt h]
  · simp [dec_of_ge h]

/-- Only the number 0 has a spelling that begins with '0'. -/
theorem eq_zero_of_head_dec (n : Nat) : (dec n).head? = some 0x30 → n = 0 := by
  induction n using decimal_induction with
  | digit n h =>
    simp only [dec_of_lt h, List.head?_cons, Option.some.injEq]
    exact digitByte_eq_zeroDigit h
  | more n h ih =>
    rw [dec_of_ge h, List.head?_append_of_ne_nil _ (dec_ne_nil _)]
    intro h0
    have := ih h0
    omega

theorem dec_eq_of_head {n : Nat} (h : (dec n).head? = some 0x30) : dec n = [0x30] := by
  rw [eq_zero_of_head_dec n h]; rfl

/-! ## One record read back (R465, R467) -/

/-- A spelling is canonical, so the number of its record is read. -/
theorem recordNumber_dec {n : Nat} (h : n ≤ 4294967295) : recordNumber (dec n) = some n := by
  have hcanonical : 1 < (dec n).length → (dec n).head? ≠ some 0x30 := fun hl hh => by
    simp [dec_eq_of_head hh] at hl
  rw [recordNumber, if_neg (dec_ne_nil n), if_neg (by simpa using hcanonical), decimalValue_dec, if_neg (by omega)]

theorem record_append (c : Byte) (n : Nat) (tail : List Byte) : record c n ++ tail = c :: (dec n ++ barByte :: tail) := by
  simp [record]

theorem takeWhile_isDigit_dec (n : Nat) (tail : List Byte) :
    (dec n ++ barByte :: tail).takeWhile isDigit = dec n := by
  rw [List.takeWhile_append_of_pos (isDigit_of_mem_dec n), List.takeWhile_cons_of_neg (by decide), List.append_nil]

theorem dropWhile_isDigit_dec (n : Nat) (tail : List Byte) :
    (dec n ++ barByte :: tail).dropWhile isDigit = barByte :: tail := by
  rw [List.dropWhile_append_of_pos (isDigit_of_mem_dec n), List.dropWhile_cons_of_neg (by decide)]

/-- R467: one round of the parser on a record, the last one or not. -/
theorem parseLoop_record (fuel : Nat) (c : Byte) {n : Nat} (h : n ≤ 4294967295) (tail : List Byte) (g : Table Word) :
    parseLoop (fuel + 1) (record c n ++ tail) g =
      if tail = [] then (if c = tildeByte then some (g, n) else none)
      else if n = 0 ∨ g.lookup c ≠ 0 then none
      else parseLoop fuel tail (g.update c (BitVec.ofNat 32 n)) := by
  rw [record_append, parseLoop, takeWhile_isDigit_dec, dropWhile_isDigit_dec, recordNumber_dec h]
  simp

/-! ## A blob read back (R466, R468) -/

/-- R468: the records of the symbols of a table in the given order, then the terminator record. -/
def blobInOrder (order : List Byte) (f : Table Word) (len : Nat) : List Byte :=
  order.flatMap (fun x => record x (f.lookup x).toNat) ++ record tildeByte len

theorem blobInOrder_cons (x : Byte) (xs : List Byte) (f : Table Word) (len : Nat) :
    blobInOrder (x :: xs) f len = record x (f.lookup x).toNat ++ blobInOrder xs f len := by
  simp [blobInOrder]

theorem blobInOrder_ne_nil (order : List Byte) (f : Table Word) (len : Nat) : blobInOrder order f len ≠ [] := by
  simp [blobInOrder, record]

/-- R467: the parser with the table `g` read so far, which holds the entries of `f` but those of the symbols still to
come, reads the records of these symbols and ends with `f`. -/
theorem parseLoop_blobInOrder (f : Table Word) {len : Nat} (hlen : len ≤ 4294967295) (order : List Byte) :
    ∀ (fuel : Nat) (g : Table Word), order.Nodup → (∀ x ∈ order, f.lookup x ≠ 0) →
      (∀ x, g.lookup x = if x ∈ order then 0 else f.lookup x) → (blobInOrder order f len).length ≤ fuel →
      parseLoop fuel (blobInOrder order f len) g = some (f, len) := by
  induction order with
  | nil =>
    intro fuel g _ _ hg hfuel
    obtain ⟨fuel, rfl⟩ : ∃ k, fuel = k + 1 := ⟨fuel - 1, by simp [blobInOrder, record] at hfuel; omega⟩
    have hgf : g = f := Table.ext_lookup fun x => by simpa using hg x
    simpa [blobInOrder, hgf] using parseLoop_record fuel tildeByte hlen [] g
  | cons x xs ih =>
    intro fuel g hnodup hpresent hg hfuel
    obtain ⟨hx, hxs⟩ := List.nodup_cons.1 hnodup
    rw [blobInOrder_cons] at hfuel ⊢
    obtain ⟨fuel, rfl⟩ : ∃ k, fuel = k + 1 := ⟨fuel - 1, by simp [record] at hfuel; omega⟩
    have hcount : (f.lookup x).toNat ≠ 0 := fun h0 =>
      hpresent x List.mem_cons_self (BitVec.eq_of_toNat_eq h0)
    have hfresh : g.lookup x = 0 := by simp [hg x]
    rw [parseLoop_record fuel x (Nat.le_of_lt_succ (f.lookup x).isLt), if_neg (blobInOrder_ne_nil xs f len),
      if_neg (by simp [hcount, hfresh])]
    refine ih fuel _ hxs (fun y hy => hpresent y (List.mem_cons_of_mem x hy)) (fun y => ?_) ?_
    · rw [Table.lookup_update, hg y]
      by_cases hyx : y = x
      · simp [hyx, hx]
      · simp [hyx]
    · simp [record] at hfuel
      omega

/-- R468: the records of the present symbols, each once and in any order, parse back to the table and length. -/
theorem parseBlob_blobInOrder (f : Table Word) {len : Nat} (hlen : len ≤ 4294967295) {order : List Byte}
    (hnodup : order.Nodup) (hmem : ∀ x, x ∈ order ↔ f.lookup x ≠ 0) :
    parseBlob (blobInOrder order f len) = some (f, len) := by
  refine parseLoop_blobInOrder f hlen order _ _ hnodup (fun x hx => (hmem x).1 hx) (fun x => ?_) le_rfl
  split
  · simp
  · next hx => simpa [hmem, eq_comm] using hx

/-- R466: the emitted blob holds the present symbols in ascending order. -/
theorem emitBlob_eq_blobInOrder (f : Table Word) (len : Nat) :
    emitBlob f len = blobInOrder (presentSymbols f) f len := by
  simp only [emitBlob, blobInOrder, presentEntries_eq_map, List.flatMap_map]
  rfl

/-- Settles O41: the parser reads the records of the present symbols, in whatever order, back to the table, and the
emitted blob is their ascending order; the decimal spellings by induction on the number of digits. -/
theorem emittedBlobsParseBack : Obligations.EmittedBlobsParseBack := by
  refine ⟨fun f len hlen => ?_, emitBlob_eq_blobInOrder, fun n => ⟨decimalValue_dec n, fun d hd => ?_, dec_eq_of_head⟩⟩
  · rw [emitBlob_eq_blobInOrder]
    exact parseBlob_blobInOrder f hlen (presentSymbols_nodup f) fun _ => mem_presentSymbols
  · simpa [isDigit] using isDigit_of_mem_dec n d hd

end Sys2Proof.Machine
end

section
/-! PROOF. How the loops of the stream commands end: their output fits DST, their dictionary stays within its capacity,
and an error they raise is one of ERRCODE (R452, R460, R501, R520, R530). -/

namespace Sys2Proof.Machine

theorem streamTooLong_eq_false {n cap : Nat} :
    streamTooLong n cap = false ↔ n ≤ Config.maxStreamBits ∧ ceil8 n ≤ cap := by
  simp [streamTooLong]

@[simp] theorem streamTooLong_zero (cap : Nat) : streamTooLong 0 cap = false := by
  simp [streamTooLong_eq_false, ceil8_zero]

/-! ## Huffman streams -/

/-- R452: the stream the encoder's loop answers fits. -/
theorem encodeLoop_ok_fits {code : Table (Option Codeword)} {cap : Nat} {out : Bits} (bytes : List Byte) :
    ∀ pre : Bits, streamTooLong pre.length cap = false → encodeLoop code cap bytes pre = .ok out →
      streamTooLong out.length cap = false := by
  induction bytes with
  | nil =>
    intro pre hpre h
    obtain rfl : pre = out := by simpa [encodeLoop] using h
    exact hpre
  | cons b rest ih =>
    intro pre hpre h
    unfold encodeLoop at h
    split at h
    · cases h
    · split at h
      · cases h
      · next hfits => exact ih _ (by simpa using hfits) h

theorem encodeLoop_error_ne_none {code : Table (Option Codeword)} {cap : Nat} {bytes : List Byte} {pre : Bits}
    {e : ErrCode} (h : encodeLoop code cap bytes pre = .error e) : e ≠ .none := by
  rcases encodeLoop_error bytes pre e h with rfl | rfl <;> decide

theorem decodeLoop_error_ne_none {code : Table (Option Codeword)} {cap : Nat} {b buf : Bits} {out : List Byte}
    {e : ErrCode} (h : decodeLoop code cap b buf out = .error e) : e ≠ .none := by
  rcases decodeLoop_error b buf out e h with rfl | rfl <;> decide

/-! ## LZW -/

/-- R500, R501: the size of a dictionary of code width `width`. -/
def dictSizeLegal (width : Nat) (d : Dict) : Prop := 256 ≤ d.length ∧ d.length ≤ 2 ^ width

theorem dictSizeLegal_seed {width : Nat} (h : 8 ≤ width) : dictSizeLegal width seedDict := by
  rw [dictSizeLegal, seedDict_length]
  exact ⟨le_rfl, Nat.pow_le_pow_right (n := 2) (by omega) h⟩

theorem dictSizeLegal_insertFragment {width : Nat} {d : Dict} (f : List Byte) (h : dictSizeLegal width d) :
    dictSizeLegal width (insertFragment (2 ^ width) d f) := by
  obtain ⟨hge, hle⟩ := h
  rw [dictSizeLegal, insertFragment_length _ _ _ hle]
  omega

/-- R520 `emit`: the longer stream when it fits, OUTPUT_OVERFLOW otherwise. -/
theorem emitCode_cases (width cap : Nat) (d : Dict) (w : List Byte) (bits : Bits) :
    (∃ bits', emitCode width cap d w bits = .ok bits' ∧ streamTooLong bits'.length cap = false) ∨
      emitCode width cap d w bits = .error .outputOverflow := by
  simp only [emitCode]
  split
  · exact .inr rfl
  · next hfits => exact .inl ⟨_, rfl, by simpa using hfits⟩

/-- R520: how the encoder's loop ends: with a stream that fits and a dictionary of legal size, or with
OUTPUT_OVERFLOW. -/
theorem lzwEncodeLoop_cases {width cap : Nat} (bytes : List Byte) :
    ∀ (d : Dict) (w : List Byte) (bits : Bits) (ovf : Bool), dictSizeLegal width d →
      streamTooLong bits.length cap = false →
      (∃ bits' d', (lzwEncodeLoop width cap bytes d w bits ovf).result = .ok (bits', d') ∧ dictSizeLegal width d' ∧
          streamTooLong bits'.length cap = false) ∨
        (lzwEncodeLoop width cap bytes d w bits ovf).result = .error .outputOverflow := by
  induction bytes with
  | nil =>
    intro d w bits ovf hd hbits
    unfold lzwEncodeLoop
    split
    · exact .inl ⟨bits, d, rfl, hd, hbits⟩
    · obtain ⟨bits', he, hfits⟩ | he := emitCode_cases width cap d w bits
      · exact .inl ⟨bits', d, by rw [he], hd, hfits⟩
      · exact .inr (by rw [he])
  | cons c rest ih =>
    intro d w bits ovf hd hbits
    unfold lzwEncodeLoop
    split
    · exact ih _ _ _ _ hd hbits
    · obtain ⟨bits', he, hfits⟩ | he := emitCode_cases width cap d w bits
      · rw [he]
        exact ih _ _ _ _ (dictSizeLegal_insertFragment _ hd) hfits
      · exact .inr (by rw [he])

/-- R530 `put`: all of the fragment when it fits, OUTPUT_OVERFLOW otherwise. -/
theorem putBytes_cases {cap : Nat} {out : List Byte} (frag : List Byte) (h : out.length ≤ cap) :
    (∃ out', putBytes cap frag out = .ok out' ∧ out'.length ≤ cap) ∨
      putBytes cap frag out = .error .outputOverflow := by
  obtain hover | hfits := Nat.lt_or_ge cap (out ++ frag).length
  · exact .inr (putBytes_of_overflow frag out h hover)
  · exact .inl ⟨_, putBytes_of_fits frag out hfits, hfits⟩

/-- How the LZW decoder ends: with an output that fits and a dictionary of legal size, or with an error. -/
def LzwDecodeEnds (width cap : Nat) : Except ErrCode (List Byte × Dict) → Prop
  | .ok (out, d) => out.length ≤ cap ∧ dictSizeLegal width d
  | .error e => e ≠ .none

theorem lzwDecodeLoop_ends {width cap : Nat} (codes : List Nat) :
    ∀ (d : Dict) (prev out : List Byte), dictSizeLegal width d → out.length ≤ cap →
      LzwDecodeEnds width cap (lzwDecodeLoop width cap codes d prev out) := by
  induction codes with
  | nil => exact fun d prev out hd hout => ⟨hout, hd⟩
  | cons k rest ih =>
    have put (d : Dict) (prev cur out : List Byte) (hk : fragmentOf d prev k = .ok cur) (hd : dictSizeLegal width d)
        (hout : out.length ≤ cap) : LzwDecodeEnds width cap (lzwDecodeLoop width cap (k :: rest) d prev out) := by
      obtain ⟨out', hput, hfits⟩ | hput := putBytes_cases cur hout
      · simpa only [lzwDecodeLoop, hk, hput] using ih _ _ _ (dictSizeLegal_insertFragment _ hd) hfits
      · simp [lzwDecodeLoop, hk, hput, LzwDecodeEnds]
    intro d prev out hd hout
    obtain ⟨cur, -, hk⟩ | ⟨-, hk⟩ | ⟨-, hk⟩ := fragmentOf_cases d prev k
    · exact put d prev cur out hk hd hout
    · exact put d prev _ out hk hd hout
    · simp [lzwDecodeLoop, hk, LzwDecodeEnds]

theorem lzwDecodeCodes_ends {width : Nat} (cap : Nat) (codes : List Nat) (hw : 8 ≤ width) :
    LzwDecodeEnds width cap (lzwDecodeCodes width cap codes) := by
  unfold lzwDecodeCodes
  cases codes with
  | nil => exact ⟨Nat.zero_le _, dictSizeLegal_seed hw⟩
  | cons k rest =>
    simp only
    split
    · exact (by decide : ErrCode.corruptLzwCode ≠ .none)
    · split
      · exact (by decide : ErrCode.corruptLzwCode ≠ .none)
      · next f _ =>
        obtain ⟨out, hput, hfits⟩ | hput := putBytes_cases (cap := cap) (out := []) f (Nat.zero_le _)
        · simpa only [hput] using lzwDecodeLoop_ends rest seedDict f out (dictSizeLegal_seed hw) hfits
        · simp [hput, LzwDecodeEnds]

/-- R530, R531: how decoding a bit string ends. -/
theorem lzwDecodeBits_ends {width : Nat} (cap : Nat) (b : Bits) (hw : 8 ≤ width) :
    LzwDecodeEnds width cap (lzwDecodeBits width cap b) := by
  unfold lzwDecodeBits
  split
  · exact lzwDecodeCodes_ends cap _ hw
  · exact (by decide : ErrCode.corruptLzwLength ≠ .none)

end Sys2Proof.Machine
end

section
/-! PROOF. The invariant in four parts (data memory, the Huffman tables, the results, the flags), and what keeps each of
the three parts that a command works on while it runs. -/

namespace Sys2Proof.Machine

/-- R200, R205: data memory in canonical form, with no byte at or above `memSize`. -/
structure MemOk (m : Memory) (memSize : Nat) : Prop where
  wf : m.wf = true
  inRange : m.all (fun c => c.1 < memSize) = true

/-- R118, R146, R151, R155: NSYM, TREE and CODE are those of FREQ, or invalid and empty. -/
structure TablesOk (freq : Table Word) (nsym : BitVec 9) (treeValid : Bool) (tree : Tree) (codeValid : Bool)
    (code : Table (Option Codeword)) : Prop where
  nsymCounts : nsym.toNat = (presentSymbols freq).length
  treeEmpty : treeValid = false → tree = Tree.empty
  treeBuilt : treeValid = true → tree = buildTree freq
  codeAbsent : codeValid = false → ∀ x, code.lookup x = none
  codeDerived : codeValid = true → treeValid = true ∧ code = deriveCodes tree

/-- R113: a bit length shown is that of the bytes shown. R119, R160: DICT_SIZE is 0 or a dictionary's size. -/
structure ResultsOk (dstLen dstBits : Word) (dictSize : BitVec 17) : Prop where
  dstBitsFit : dstBits = 0 ∨ dstLen.toNat = ceil8 dstBits.toNat
  dictSizeBounds : dictSize = 0 ∨ 256 ≤ dictSize.toNat ∧ dictSize.toNat ≤ 65536

/-- The parts of the invariant that hold at every moment of a command. -/
def State.DataOk (s : State) : Prop :=
  MemOk s.mem s.memSize ∧ TablesOk s.freq s.nsym s.treeValid s.tree s.codeValid s.code ∧
    ResultsOk s.dstLen s.dstBits s.dictSize

/-- R104, R600: the flags between steps. -/
structure FlagsOk (engine : Engine) (done error dictOvf : Bool) (errCode : ErrCode) : Prop where
  oneOutcome : ¬ (done = true ∧ error = true)
  errCodeIff : errCode = .none ↔ error = false
  busyQuiet : engine = .busy → done = false ∧ error = false ∧ dictOvf = false

/-- The flags' part of the invariant. -/
def State.FlagsGood (s : State) : Prop := FlagsOk s.engine s.done s.error s.dictOvf s.errCode

/-- The invariant is its parts. -/
theorem State.inv_iff {s : State} : s.Inv ↔ s.DataOk ∧ s.FlagsGood :=
  ⟨fun h => ⟨⟨⟨h.memWf, h.memInRange⟩, ⟨h.nsymCounts, h.treeEmpty, h.treeBuilt, h.codeAbsent, h.codeDerived⟩,
      ⟨h.dstBitsFit, h.dictSizeBounds⟩⟩, h.oneOutcome, h.errCodeIff, h.busyQuiet⟩,
    fun ⟨⟨hm, ht, hr⟩, hf⟩ =>
      { memWf := hm.wf, memInRange := hm.inRange, nsymCounts := ht.nsymCounts, treeEmpty := ht.treeEmpty,
        treeBuilt := ht.treeBuilt, codeAbsent := ht.codeAbsent, codeDerived := ht.codeDerived,
        dstBitsFit := hr.dstBitsFit, dictSizeBounds := hr.dictSizeBounds, oneOutcome := hf.oneOutcome,
        errCodeIff := hf.errCodeIff, busyQuiet := hf.busyQuiet }⟩

/-! ## Data memory -/

theorem MemOk.write {m : Memory} {n a : Nat} (h : MemOk m n) (v : Byte) (ha : a < n) : MemOk (m.write a v) n :=
  ⟨Memory.wf_write _ _ h.wf, Memory.all_write h.inRange fun _ => decide_eq_true ha⟩

/-- A byte string written inside a region in range. -/
theorem MemOk.writeBytes {m : Memory} {n a len : Nat} {bs : List Byte} (h : MemOk m n)
    (hr : len = 0 ∨ a + len ≤ n) (hlen : bs.length ≤ len) : MemOk (m.writeBytes a bs) n :=
  ⟨Memory.wf_writeBytes _ _ h.wf,
    Memory.all_writeBytes (q := fun x => decide (x < n)) h.inRange fun i hi => decide_eq_true (by omega)⟩

/-! ## The Huffman tables -/

/-- NSYM counts up to 256 symbols, so its 9 bits hold the count. -/
theorem nsym_toNat (f : Table Word) : (BitVec.ofNat 9 (presentCount f)).toNat = (presentSymbols f).length := by
  have := presentCount_le f
  rw [BitVec.toNat_ofNat, presentSymbols_length]
  omega

/-- R155: the tables after a change of FREQ. -/
theorem TablesOk.of_freq (f : Table Word) :
    TablesOk f (BitVec.ofNat 9 (presentCount f)) false Tree.empty false (Vector.replicate 256 none) where
  nsymCounts := nsym_toNat f
  treeEmpty _ := rfl
  treeBuilt h := by cases h
  codeAbsent _ x := Table.lookup_replicate none x
  codeDerived h := by cases h

/-! ## Operations of the commands -/

namespace State.DataOk

variable {s : State}

theorem setFreq (h : s.DataOk) (f : Table Word) : (s.setFreq f).DataOk :=
  ⟨h.1, TablesOk.of_freq f, h.2.2⟩

theorem buildStage (h : s.DataOk) : (buildStage s).DataOk := by
  obtain ⟨hm, ht, hr⟩ := h
  exact ⟨hm, ⟨ht.nsymCounts, nofun, fun _ => rfl, fun _ x => Table.lookup_replicate none x, nofun⟩, hr⟩

theorem codegenStage (h : s.DataOk) (hv : s.treeValid = true) : (codegenStage s).DataOk := by
  obtain ⟨hm, ht, hr⟩ := h
  exact ⟨hm, ⟨ht.nsymCounts, ht.treeEmpty, ht.treeBuilt, nofun, fun _ => ⟨hv, rfl⟩⟩, hr⟩

/-- A byte string stored inside a region in range. -/
theorem store {a : Word} {len : Nat} {bs : List Byte} (h : s.DataOk) (hr : len = 0 ∨ a.toNat + len ≤ s.memSize)
    (hlen : bs.length ≤ len) : (s.store a bs).DataOk :=
  ⟨h.1.writeBytes hr hlen, h.2⟩

/-- R113: a byte output has no bit length. -/
theorem setDst_bytes (h : s.DataOk) (len : Nat) : (s.setDst len 0).DataOk :=
  ⟨h.1, h.2.1, .inl rfl, h.2.2.dictSizeBounds⟩

/-- R113: the lengths of a bit stream of at most 2^32 - 1 bits. -/
theorem setDst_bits (h : s.DataOk) {n : Nat} (hn : n ≤ Config.maxStreamBits) : (s.setDst (ceil8 n) n).DataOk := by
  refine ⟨h.1, h.2.1, .inr ?_, h.2.2.dictSizeBounds⟩
  simp only [Config.maxStreamBits] at hn
  simp only [State.setDst, BitVec.toNat_ofNat, ceil8]
  omega

theorem setDictSize (h : s.DataOk) {n : Nat} (hn : n = 0 ∨ 256 ≤ n ∧ n ≤ 65536) : (s.setDictSize n).DataOk := by
  refine ⟨h.1, h.2.1, h.2.2.dstBitsFit, ?_⟩
  simp only [State.setDictSize, BitVec.toNat_ofNat]
  obtain rfl | hn := hn
  · exact .inl rfl
  · exact .inr (by omega)

/-- R613 (c): cleared results. -/
theorem clearResults (h : s.DataOk) (i : Instr) : (clearResults i s).DataOk := by
  cases i with
  | hufEncode | hufDecode | hufDecompress => exact h.setDst_bytes 0
  | hufCompress => exact h.setDst_bytes 0
  | lzwEncode | lzwDecode => exact (h.setDst_bytes 0).setDictSize (.inl rfl)
  | hufMetaEmit | hufFreq | hufBuild | hufCodegen | hufMetaParse => exact h

/-- R613 (a): unspecified bytes in regions in range. -/
theorem scrambleRegions {rs : List Region} (h : s.DataOk) (hr : ∀ r ∈ rs, r.len = 0 ∨ r.addr + r.len ≤ s.memSize) :
    (scrambleRegions rs s).DataOk := by
  obtain ⟨hm, htr⟩ := h
  have hwf := scrambleRegions_wf rs s hm.wf
  have hin := scrambleRegions_inRange rs s s.memSize hm.inRange hr
  obtain ⟨m, n, heq⟩ := scrambleRegions_eq rs s
  rw [heq] at hwf hin ⊢
  exact ⟨⟨hwf, hin⟩, htr⟩

end State.DataOk

end Sys2Proof.Machine
end

section
/-! PROOF. How a command ends (R610, R611, R612): with BUSY = 0, exactly one of DONE and ERROR, and the invariant's data
parts kept. One lemma per command, then `exec_completes` for all. -/

namespace Sys2Proof.Machine

/-- What a command may have done before it ends: IRQ_EN is untouched, the data parts of the invariant are kept. -/
structure Prepares (s t : State) : Prop where
  irqEn : t.irqEn = s.irqEn
  data : s.DataOk → t.DataOk

/-- How a command started in `s` ends in `t`. -/
structure Completes (s t : State) : Prop extends Prepares s t where
  engine : t.engine = .idle
  outcome : (t.done = true ∧ t.error = false ∧ t.errCode = .none) ∨
    (t.done = false ∧ t.error = true ∧ t.errCode ≠ .none)

/-- Work, then a command's end. -/
theorem Prepares.then {s t u : State} (hp : Prepares s t) (h : Completes t u) : Completes s u :=
  { h with irqEn := h.irqEn.trans hp.irqEn, data := fun hs => h.data (hp.data hs) }

theorem Completes.flagsGood {s t : State} (h : Completes s t) : t.FlagsGood := by
  have hidle : t.engine = .busy → False := by simp [h.engine]
  obtain ⟨hd, he, hc⟩ | ⟨hd, he, hc⟩ := h.outcome
  · exact ⟨by simp [he], by simp [he, hc], fun hb => (hidle hb).elim⟩
  · exact ⟨by simp [hd], by simp [he, hc], fun hb => (hidle hb).elim⟩

/-- R611. -/
theorem complete_completes (s : State) : Completes s s.complete := ⟨⟨rfl, id⟩, rfl, .inl ⟨rfl, rfl, rfl⟩⟩

/-- R610. -/
theorem raiseError_completes (s : State) {e : ErrCode} (he : e ≠ .none) : Completes s (s.raiseError e) :=
  ⟨⟨rfl, id⟩, rfl, .inr ⟨rfl, rfl, he⟩⟩

/-- Work, then R611. -/
theorem Prepares.complete {s t : State} (h : Prepares s t) : Completes s t.complete := h.then (complete_completes t)

/-- R605 check 4: the regions of the command are in range. -/
def RegionsInRange (i : Instr) (s : State) : Prop := ∀ r ∈ regions i s, r.len = 0 ∨ r.addr + r.len ≤ s.memSize

theorem regionsInRange_of_precheck {i : Instr} {s : State} (h : precheck i s = none) : RegionsInRange i s :=
  fun _ hr => inRange_of_precheck h hr

/-- R613: an error after the pre-checks. -/
theorem failCommand_completes {i : Instr} {s : State} {e : ErrCode} (hr : RegionsInRange i s) (he : e ≠ .none) :
    Completes s (failCommand i e s) := by
  have hmem : (clearResults i s).memSize = s.memSize := by cases i <;> rfl
  have hclear : (clearResults i s).irqEn = s.irqEn := by cases i <;> rfl
  obtain ⟨m, n, heq⟩ := scrambleRegions_eq (writeRegions i s) (clearResults i s)
  refine Prepares.then ⟨by rw [heq]; exact hclear, fun hs => ?_⟩ (raiseError_completes _ he)
  refine (hs.clearResults i).scrambleRegions fun r hw => ?_
  rw [hmem]
  exact hr r (mem_writeRegions.1 hw).1

/-- R605: a command whose own rule ends well ends well. -/
theorem runChecked_completes {i : Instr} {body : State → State} {s : State}
    (h : precheck i s = none → Completes s (body s)) : Completes s (runChecked i body s) := by
  obtain ⟨e, he, heq⟩ | ⟨hnone, heq⟩ := runChecked_cases i body s
  · rw [heq]
    refine raiseError_completes s ?_
    rcases precheck_some he with rfl | rfl | rfl | rfl <;> decide
  · rw [heq]
    exact h hnone

/-! ## The Huffman table family -/

theorem hufFreqBody_completes (s : State) : Completes s (hufFreqBody s) :=
  Prepares.complete ⟨rfl, fun hs => hs.setFreq _⟩

theorem hufBuildBody_completes (s : State) : Completes s (hufBuildBody s) :=
  Prepares.complete ⟨rfl, State.DataOk.buildStage⟩

theorem hufCodegenBody_completes {s : State} (h : s.treeValid = true) : Completes s (hufCodegenBody s) :=
  Prepares.complete ⟨rfl, fun hs => hs.codegenStage h⟩

/-- R480, R482: the builder and the generator one after the other. -/
theorem prepares_build_codegen (s : State) : Prepares s (codegenStage (buildStage s)) :=
  ⟨rfl, fun hs => hs.buildStage.codegenStage rfl⟩

/-! ## The Huffman stream family -/

/-- A stream that fits DST, stored there. -/
theorem State.DataOk.storeStream {s : State} {bits : Bits} (h : s.DataOk)
    (hdst : s.dstCap.toNat = 0 ∨ s.dstAddr.toNat + s.dstCap.toNat ≤ s.memSize)
    (hfits : streamTooLong bits.length s.dstCap.toNat = false) : (storeStream bits s).DataOk :=
  h.store (bs := packBits bits) hdst (by simpa using (streamTooLong_eq_false.1 hfits).2)

theorem hufEncodeBody_completes {s : State} (hr : RegionsInRange .hufEncode s) : Completes s (hufEncodeBody s) := by
  unfold hufEncodeBody
  split
  · next e he => exact failCommand_completes hr (encodeLoop_error_ne_none he)
  · next bits hbits =>
    have hfits := encodeLoop_ok_fits _ [] (streamTooLong_zero _) hbits
    exact Prepares.complete ⟨rfl, fun hs => (hs.storeStream (hr (dstRegion s) (by simp [regions])) hfits).setDst_bits
      (streamTooLong_eq_false.1 hfits).1⟩

theorem decodeStage_completes {i : Instr} {s : State} (n : Nat) (hr : RegionsInRange i s)
    (hdst : dstRegion s ∈ regions i s) : Completes s (decodeStage i n s) := by
  unfold decodeStage
  split
  · next e he => exact failCommand_completes hr (decodeLoop_error_ne_none he)
  · next out hout =>
    have hlen := decodeLoop_length _ _ _ _ (Nat.zero_le _) hout
    exact Prepares.complete ⟨rfl, fun hs => (hs.store (hr _ hdst) hlen).setDst_bytes _⟩

theorem hufMetaEmitBody_completes {s : State} (hr : RegionsInRange .hufMetaEmit s) :
    Completes s (hufMetaEmitBody s) := by
  simp only [hufMetaEmitBody]
  split
  · exact failCommand_completes hr (by decide)
  · next hlen =>
    exact Prepares.complete ⟨rfl, fun hs =>
      hs.store (hr (metaRegion s true) (by simp [regions])) (Nat.le_of_not_gt hlen)⟩

theorem prepares_installBlob (f : Table Word) (len : Nat) (s : State) : Prepares s (installBlob f len s) :=
  ⟨rfl, fun hs => hs.setFreq f⟩

theorem hufMetaParseBody_completes {s : State} (hr : RegionsInRange .hufMetaParse s) :
    Completes s (hufMetaParseBody s) := by
  unfold hufMetaParseBody
  split
  · exact (prepares_installBlob _ _ s).then (failCommand_completes hr (by decide))
  · exact (prepares_installBlob _ _ s).complete

theorem compressBlobStage_completes {s : State} {n : Nat} (hr : RegionsInRange .hufCompress s)
    (hn : n ≤ Config.maxStreamBits) : Completes s (compressBlobStage n s) := by
  simp only [compressBlobStage]
  split
  · exact failCommand_completes hr (by decide)
  · next hlen =>
    exact Prepares.complete ⟨rfl, fun hs =>
      (hs.store (hr (metaRegion s true) (by simp [regions])) (Nat.le_of_not_gt hlen)).setDst_bits hn⟩

theorem compressStreamStage_completes {s : State} (bytes : List Byte) (hr : RegionsInRange .hufCompress s) :
    Completes s (compressStreamStage bytes s) := by
  unfold compressStreamStage
  split
  · exact failCommand_completes hr (by decide)
  · next bits _ =>
    split
    · exact failCommand_completes hr (by decide)
    · next hfits =>
      rw [Bool.not_eq_true] at hfits
      have hstore : Prepares s (storeStream bits s) :=
        ⟨rfl, fun hs => hs.storeStream (hr (dstRegion s) (by simp [regions])) hfits⟩
      exact hstore.then (compressBlobStage_completes hr (streamTooLong_eq_false.1 hfits).1)

theorem hufCompressBody_completes {s : State} (hr : RegionsInRange .hufCompress s) :
    Completes s (hufCompressBody s) := by
  have hfreq : Prepares s (s.setFreq (freqOf (srcBytes s))) := ⟨rfl, fun hs => hs.setFreq _⟩
  exact hfreq.then ((prepares_build_codegen _).then (compressStreamStage_completes _ hr))

theorem decompressStage_completes {s : State} (len : Nat) (hr : RegionsInRange .hufDecompress s) :
    Completes s (decompressStage len s) := by
  unfold decompressStage
  split
  · exact failCommand_completes hr (by decide)
  · exact (prepares_build_codegen s).then (decodeStage_completes len hr (by simp [regions]))

theorem hufDecompressBody_completes {s : State} (hr : RegionsInRange .hufDecompress s) :
    Completes s (hufDecompressBody s) := by
  unfold hufDecompressBody
  split
  · exact (prepares_installBlob _ _ s).then (failCommand_completes hr (by decide))
  · exact (prepares_installBlob _ _ s).then (decompressStage_completes _ hr)

/-! ## The LZW family -/

/-- R119: a legal dictionary size is one DICT_SIZE may show. -/
theorem dictSizeLegal_bounds {width : Nat} {d : Dict} (hw : width ≤ Config.codeWidthMax) (h : dictSizeLegal width d) :
    256 ≤ d.length ∧ d.length ≤ 65536 :=
  ⟨h.1, h.2.trans (Nat.pow_le_pow_right (n := 2) (by decide) hw)⟩

theorem lzwEncodeBody_completes {s : State} (hr : RegionsInRange .lzwEncode s)
    (hw : Config.codeWidthMin ≤ s.codeWidth.toNat ∧ s.codeWidth.toNat ≤ Config.codeWidthMax) :
    Completes s (lzwEncodeBody s) := by
  simp only [lzwEncodeBody]
  obtain ⟨bits, d, hrun, hd, hfits⟩ | hrun := lzwEncodeLoop_cases (cap := s.dstCap.toNat) (srcBytes s) seedDict [] []
    false (dictSizeLegal_seed hw.1) (streamTooLong_zero _)
  · rw [hrun]
    obtain ⟨hbits, hbytes⟩ := streamTooLong_eq_false.1 hfits
    exact Prepares.complete ⟨rfl, fun hs =>
      ((hs.store (bs := packBits bits) (hr (dstRegion s) (by simp [regions])) (by rwa [packBits_length])).setDst_bits
        hbits).setDictSize (.inr (dictSizeLegal_bounds hw.2 hd))⟩
  · rw [hrun]
    exact Prepares.then (t := s.noteOverflow _) ⟨rfl, id⟩ (failCommand_completes hr (by decide))

theorem lzwDecodeBody_completes {s : State} (hr : RegionsInRange .lzwDecode s)
    (hw : Config.codeWidthMin ≤ s.codeWidth.toNat ∧ s.codeWidth.toNat ≤ Config.codeWidthMax) :
    Completes s (lzwDecodeBody s) := by
  have hends := lzwDecodeBits_ends s.dstCap.toNat (s.mem.readBits s.srcAddr.toNat s.srcLen.toNat) hw.1
  unfold lzwDecodeBody
  split
  · next e he =>
    rw [he] at hends
    exact failCommand_completes hr hends
  · next out d hok =>
    rw [hok] at hends
    obtain ⟨hlen, hd⟩ := hends
    exact Prepares.complete ⟨rfl, fun hs =>
      ((hs.store (hr (dstRegion s) (by simp [regions])) hlen).setDst_bytes _).setDictSize
        (.inr (dictSizeLegal_bounds hw.2 hd))⟩

/-! ## Every command -/

/-- R605 check 2: an LZW command whose pre-checks pass has a legal code width. -/
theorem codeWidth_of_precheck {i : Instr} {s : State} (hi : i = .lzwEncode ∨ i = .lzwDecode)
    (h : precheck i s = none) :
    Config.codeWidthMin ≤ s.codeWidth.toNat ∧ s.codeWidth.toNat ≤ Config.codeWidthMax := by
  obtain ⟨hconfig, -⟩ := precheck_none_iff.1 h
  rcases hi with rfl | rfl <;> simpa [configOk] using hconfig

/-- R605 check 3: HUF_CODEGEN whose pre-checks pass has a valid tree. -/
theorem treeValid_of_precheck {s : State} (h : precheck .hufCodegen s = none) : s.treeValid = true :=
  (precheck_none_iff.1 h).2.1

/-- R612: how every command ends. -/
theorem exec_completes {i : Instr} {s t : State} (h : exec i s = .next t) : Completes s t := by
  cases i <;> cases h <;> refine runChecked_completes fun hp => ?_
  case hufFreq => exact hufFreqBody_completes s
  case hufBuild => exact hufBuildBody_completes s
  case hufCodegen => exact hufCodegenBody_completes (treeValid_of_precheck hp)
  case hufEncode => exact hufEncodeBody_completes (regionsInRange_of_precheck hp)
  case hufDecode => exact decodeStage_completes _ (regionsInRange_of_precheck hp) (by simp [regions])
  case hufMetaEmit => exact hufMetaEmitBody_completes (regionsInRange_of_precheck hp)
  case hufMetaParse => exact hufMetaParseBody_completes (regionsInRange_of_precheck hp)
  case hufCompress => exact hufCompressBody_completes (regionsInRange_of_precheck hp)
  case hufDecompress => exact hufDecompressBody_completes (regionsInRange_of_precheck hp)
  case lzwEncode =>
    exact lzwEncodeBody_completes (regionsInRange_of_precheck hp) (codeWidth_of_precheck (.inl rfl) hp)
  case lzwDecode =>
    exact lzwDecodeBody_completes (regionsInRange_of_precheck hp) (codeWidth_of_precheck (.inr rfl) hp)

end Sys2Proof.Machine
end

section
/-! PROOF. The host's and the platform's actions keep the invariant, and O12. -/

namespace Sys2Proof.Machine

/-! ## What the host's accesses can do -/

/-- R124, R125, R232: a write of the window is refused, ignored, or reaches a register. -/
theorem hostWrite_cases (s : State) (off : BitVec 12) (bits : Nat) (v : Word) :
    s.hostWrite off bits v = s.record .errorResponse ∨ s.hostWrite off bits v = s ∨
      ∃ r, s.hostWrite off bits v = s.writeReg r v := by
  cases ha : accessOk off bits with
  | false => exact .inl (hostWrite_refused ha)
  | true =>
    cases hr : regAt off with
    | none => exact .inr (.inl (hostWrite_reserved ha hr))
    | some r =>
      rw [hostWrite_of ha hr]
      split
      · exact .inr (.inl rfl)
      · exact .inr (.inr ⟨r, rfl⟩)

/-- A read of the window records what it gave back and moves at most the counter of free values. -/
theorem hostRead_eq (s : State) (off : BitVec 12) (bits : Nat) :
    ∃ o n, s.hostRead off bits = { s.record o with draws := n } := by
  cases ha : accessOk off bits with
  | false => exact ⟨_, s.draws, hostRead_refused ha⟩
  | true =>
    cases hr : regAt off with
    | none => exact ⟨_, s.draws, hostRead_reserved ha hr⟩
    | some r =>
      rw [hostRead_of ha hr]
      split
      · exact ⟨_, s.draws + 1, rfl⟩
      · exact ⟨_, s.draws, rfl⟩

/-- R200: a poke that takes effect writes one existing byte. -/
theorem hostPoke_next {a : Nat} {v : Byte} {s t : State} (h : hostPoke a v s = .next t) :
    a < s.memSize ∧ t = { s with mem := s.mem.write a v } := by
  unfold hostPoke at h
  split at h
  · cases h
  · split at h <;> cases h
    exact ⟨by omega, rfl⟩

/-- A peek that takes effect records a byte and moves at most the counter of free values. -/
theorem hostPeek_next {a : Nat} {s t : State} (h : hostPeek a s = .next t) :
    ∃ o n, t = { s.record o with draws := n } := by
  unfold hostPeek at h
  split at h
  · cases h
  · split at h <;> cases h
    · exact ⟨_, s.draws + 1, rfl⟩
    · exact ⟨_, s.draws, rfl⟩

/-- R700: a reset that cuts a command off changes only data memory and the counter of free values. -/
theorem abandon_cases (s : State) : s.abandon = s ∨ ∃ i, s.abandon = scrambleCutOff i s := by
  unfold State.abandon
  split
  · next i _ => exact .inr ⟨i, rfl⟩
  · exact .inl rfl

/-! ## The invariant under them -/

namespace State.Inv

variable {s : State}

theorem parts (h : s.Inv) : s.DataOk ∧ s.FlagsGood := inv_iff.1 h

/-- The invariant does not speak of the host's actions and records, nor of the counter of free values. -/
theorem host (h : s.Inv) (inputs : List Input) (recorded : List Observation) (draws : Nat) :
    ({ s with inputs := inputs, recorded := recorded, draws := draws } : State).Inv :=
  inv_iff.2 h.parts

/-- R105: the acknowledge clears a flag together with the code it shows. -/
theorem acknowledge (h : s.Inv) (v : Word) : (s.acknowledge v).Inv := by
  obtain ⟨hdata, hone, hcode, hquiet⟩ := h.parts
  refine inv_iff.2 ⟨hdata, ⟨fun ⟨hd, he⟩ => hone ⟨?_, ?_⟩, ?_, fun hb => ?_⟩⟩
  · simp_all [State.acknowledge]
  · simp_all [State.acknowledge]
  · simp only [State.acknowledge]
    split
    · simp
    · exact hcode
  · obtain ⟨hd, he, ho⟩ := hquiet hb
    simp [State.acknowledge, hd, he, ho]

/-- R600: the issue of a command clears every flag of the last one. -/
theorem issue (h : s.Inv) (w : Word) : (s.issue w).Inv :=
  inv_iff.2 ⟨h.parts.1, nofun, by simp, fun _ => ⟨rfl, rfl, rfl⟩⟩

theorem setFreq (h : s.Inv) (f : Table Word) : (s.setFreq f).Inv :=
  inv_iff.2 ⟨h.parts.1.setFreq f, h.parts.2⟩

/-- Data memory in a reset is as it was, or scrambled within its range. -/
theorem abandon_memOk (h : s.Inv) : MemOk s.abandon.mem s.abandon.memSize := by
  obtain heq | ⟨i, heq⟩ := abandon_cases s
  · rw [heq]
    exact ⟨h.memWf, h.memInRange⟩
  · rw [heq]
    have hsize : (scrambleCutOff i s).memSize = s.memSize := by
      obtain ⟨m, n, he⟩ := scrambleCutOff_eq i s
      rw [he]
      rfl
    rw [hsize]
    exact ⟨scrambleCutOff_wf i s h.memWf, scrambleCutOff_inRange i s h.memInRange⟩

/-- R700: the core's reset state over data memory in canonical form and range. -/
theorem coreReset (h : MemOk s.mem s.memSize) : s.coreReset.Inv := by
  have htables : TablesOk (Vector.replicate 256 0) 0 false Tree.empty false (Vector.replicate 256 none) :=
    ⟨by simp [presentSymbols], fun _ => rfl, nofun, fun _ x => Table.lookup_replicate none x, nofun⟩
  exact inv_iff.2 ⟨⟨h, htables, .inl rfl, .inl rfl⟩, nofun, ⟨fun _ => rfl, fun _ => rfl⟩, nofun⟩

theorem applyReset (h : s.Inv) : s.applyReset.Inv := coreReset h.abandon_memOk

theorem writeCtrl (h : s.Inv) (v : Word) : (s.writeCtrl v).Inv := by
  unfold State.writeCtrl
  split
  · exact h.applyReset
  · exact inv_iff.2 h.parts

theorem writeReg (h : s.Inv) (r : Reg) (v : Word) : (s.writeReg r v).Inv := by
  cases r with
  | ctrl => exact h.writeCtrl v
  | status => exact h.acknowledge v
  | cmd => exact h.issue v
  | freq x => exact h.setFreq _
  | config | srcAddr | srcLen | dstAddr | dstCap | metaAddr | metaLen | hbits | codeSel =>
    exact inv_iff.2 h.parts
  | id | dstLen | dstBits | metaOutLen | nsym | dictSize | codeLen | codeBits j => exact h

theorem hostWrite (h : s.Inv) (off : BitVec 12) (bits : Nat) (v : Word) : (s.hostWrite off bits v).Inv := by
  obtain heq | heq | ⟨r, heq⟩ := hostWrite_cases s off bits v <;> rw [heq]
  · exact h.host _ _ _
  · exact h
  · exact h.writeReg r v

theorem hostRead (h : s.Inv) (off : BitVec 12) (bits : Nat) : (s.hostRead off bits).Inv := by
  obtain ⟨o, n, heq⟩ := hostRead_eq s off bits
  rw [heq]
  exact h.host _ _ _

theorem hostPoke {t : State} {a : Nat} {v : Byte} (h : s.Inv) (ht : hostPoke a v s = .next t) : t.Inv := by
  obtain ⟨ha, rfl⟩ := hostPoke_next ht
  obtain ⟨⟨hm, hdata⟩, hflags⟩ := h.parts
  exact inv_iff.2 ⟨⟨hm.write v ha, hdata⟩, hflags⟩

theorem hostPeek {t : State} {a : Nat} (h : s.Inv) (ht : hostPeek a s = .next t) : t.Inv := by
  obtain ⟨o, n, rfl⟩ := hostPeek_next ht
  exact h.host _ _ _

/-- Every turn of the host or the platform keeps the invariant. -/
theorem hostTurn {t : State} (h : s.Inv) (ht : hostTurn s = .next t) : t.Inv := by
  cases hin : s.inputs with
  | nil =>
    simp only [Machine.hostTurn, hin, Host.Outcome.next.injEq] at ht
    exact ht ▸ h
  | cons inp rest =>
    obtain ⟨early, action⟩ := inp
    have hrest : ({ s with inputs := rest } : State).Inv := h.host rest s.recorded s.draws
    simp only [Machine.hostTurn, hin] at ht
    cases action with
    | write off bits v => cases ht; exact hrest.hostWrite off bits v
    | read off bits => cases ht; exact hrest.hostRead off bits
    | poke a v => exact hrest.hostPoke ht
    | peek a => exact hrest.hostPeek ht
    | wait polls => cases ht; exact h.host _ _ _
    | waitIrq =>
      simp only at ht
      split at ht <;> cases ht
      · exact h.host _ _ _
      · exact h
    | hardReset => cases ht; exact hrest.applyReset

/-- R301, R612: the engine's step keeps the invariant. -/
theorem runCommand {t : State} (h : s.Inv) (ht : runCommand s = .next t) : t.Inv := by
  have hends : Completes s t := by
    unfold Machine.runCommand at ht
    split at ht
    · cases ht
      exact raiseError_completes s (by decide)
    · exact exec_completes ht
  exact inv_iff.2 ⟨hends.data h.parts.1, hends.flagsGood⟩

end State.Inv

/-- Settles O12: an engine step ends in `complete` or `raiseError` with the data parts of the invariant kept, and each
action of the host or the platform keeps the whole invariant. -/
theorem everyStepKeepsInvariant : Obligations.EveryStepKeepsInvariant := by
  intro s t h ht
  cases hm : engineMoves s with
  | true => exact h.runCommand (step_engine hm ▸ ht)
  | false => exact h.hostTurn (step_host hm ▸ ht)

end Sys2Proof.Machine
end

section
/-! PROOF. The register window: the map read backwards, an access by the register's own offset, and the statements about
single registers (O5, O15, O17, O18, O19, O21, O22). -/

namespace Sys2Proof.Machine

/-! ## The register map (R101) -/

/-- The registers of the low part of the window stand in the order of their offsets. -/
theorem lowRegs_offset : ∀ n < 27, lowRegs[n]?.map (fun r => r.offset.toNat) = some (4 * n) := by decide

/-- A register of the map is at its own index only. -/
theorem offset_of_regAtIndex {n : Nat} {r : Reg} (h : regAtIndex n = some r) : r.offset.toNat = 4 * n := by
  unfold regAtIndex at h
  split at h
  · cases h
    simp only [Reg.offset, BitVec.toNat_ofNat]
    omega
  · have hn : n < 27 := (List.getElem?_eq_some_iff.1 h).1
    simpa [h] using lowRegs_offset n hn

/-- R101: at a multiple of 4 stands the register whose offset it is, and no other. -/
theorem regAt_eq_some_iff {off : BitVec 12} {r : Reg} (h : off.toNat % 4 = 0) :
    regAt off = some r ↔ off = r.offset := by
  refine ⟨fun hr => BitVec.eq_of_toNat_eq ?_, fun hr => hr ▸ regAt_offset r⟩
  rw [offset_of_regAtIndex hr]
  omega

/-- R232: a 32-bit access at a multiple of 4 is served. -/
theorem accessOk_of_aligned {off : BitVec 12} (h : off.toNat % 4 = 0) : accessOk off 32 = true := by
  simp [accessOk, h]

/-! ## Accesses at a register's own offset -/

section
variable {s : State}

theorem hostWrite_offset_idle (hi : s.engine = .idle) (r : Reg) (v : Word) :
    s.hostWrite r.offset 32 v = s.writeReg r v := hostWrite_idle (accessOk_offset r) (regAt_offset r) hi

theorem hostWrite_offset_busy (hb : s.engine = .busy) (v : Word) {r : Reg} (hr : r ≠ .ctrl) :
    s.hostWrite r.offset 32 v = s := hostWrite_busy (accessOk_offset r) (regAt_offset r) hb hr

theorem hostRead_offset_idle (hi : s.engine = .idle) (r : Reg) :
    s.hostRead r.offset 32 = s.record (.word (s.readReg r)) := hostRead_idle (accessOk_offset r) (regAt_offset r) hi

theorem hostRead_offset_stable (s : State) {r : Reg} (hr : r.stableWhileBusy = true) :
    s.hostRead r.offset 32 = s.record (.word (s.readReg r)) :=
  hostRead_stable (accessOk_offset r) (regAt_offset r) hr

theorem hostWrite_ctrl_offset (s : State) (v : Word) : s.hostWrite 0x004 32 v = s.writeCtrl v :=
  hostWrite_ctrl (accessOk_offset .ctrl) (regAt_offset .ctrl)

end

/-- R103: a CTRL write without SOFT_RESET sets IRQ_EN. -/
theorem writeCtrl_of_not_reset (s : State) {v : Word} (h : v.getLsbD 1 = false) :
    s.writeCtrl v = { s with irqEn := v.getLsbD 0 } := by
  simp only [State.writeCtrl, h, Bool.false_eq_true, if_false]

/-- R702: a CTRL write with SOFT_RESET is a reset. -/
theorem writeCtrl_of_reset (s : State) {v : Word} (h : v.getLsbD 1 = true) : s.writeCtrl v = s.applyReset := by
  simp only [State.writeCtrl, h, if_true]

theorem ctrlWord_eq (s : State) : s.ctrlWord = if s.irqEn then 1 else 0 := by
  cases h : s.irqEn <;> simp [State.ctrlWord, h]

/-! ## Single registers -/

/-- Settles O5: CMD stands at 0x00C, and its write is `issue`. -/
theorem cmdWriteIssues : Obligations.CmdWriteIssues :=
  ⟨fun _ w hi => hostWrite_offset_idle hi .cmd w, fun s => hostRead_offset_stable s (r := .cmd) rfl,
    fun _ w hb => hostWrite_offset_busy hb w (r := .cmd) (by decide), rfl⟩

/-- Settles O15: STATUS stands at 0x008, and its write is `acknowledge`. -/
theorem statusWriteOneToClear : Obligations.StatusWriteOneToClear := by
  refine fun s v => ⟨fun hi => ?_, fun hb => hostWrite_offset_busy hb v (r := .status) (by decide)⟩
  rw [show s.hostWrite 0x008 32 v = s.acknowledge v from hostWrite_offset_idle hi .status v]
  exact ⟨rfl, rfl, rfl, rfl, rfl⟩

/-- Settles O17: each offset is that of a register, and an idle core's register reads `readReg`. -/
theorem windowReadsByOffset : Obligations.WindowReadsByOffset := by
  intro s hi reads
  have hreg : ∀ r : Reg, reads r.offset (s.readReg r) := hostRead_offset_idle hi
  have hctrl : reads 0x004 (if s.irqEn then 1 else 0) := ctrlWord_eq s ▸ hreg .ctrl
  exact ⟨hreg .id, hctrl, hreg .status, hreg .cmd, hreg .config, hreg .srcAddr, hreg .srcLen, hreg .dstAddr,
    hreg .dstCap, hreg .dstLen, hreg .dstBits, hreg .metaAddr, hreg .metaLen, hreg .metaOutLen, hreg .hbits, hreg .nsym,
    hreg .dictSize, hreg .codeSel, fun x => hreg (.freq x)⟩

/-- R107, R120: a value cut to the `k` low bits of its field. -/
theorem setWidth_eq_ofNat_mod (v : Word) (k : Nat) : v.setWidth k = BitVec.ofNat k (v.toNat % 2 ^ k) :=
  BitVec.eq_of_toNat_eq (by simp)

/-- Settles O18: each offset is that of a register, and an idle core's register takes `writeReg`. -/
theorem windowWritesByOffset : Obligations.WindowWritesByOffset := by
  intro s v hi
  have hreg : ∀ r : Reg, s.hostWrite r.offset 32 v = s.writeReg r v := fun r => hostWrite_offset_idle hi r v
  have hconfig : s.hostWrite 0x010 32 v = { s with codeWidth := BitVec.ofNat 5 (v.toNat % 32) } :=
    setWidth_eq_ofNat_mod v 5 ▸ hreg .config
  have hcodeSel : s.hostWrite 0x044 32 v = { s with codeSel := BitVec.ofNat 8 (v.toNat % 256) } :=
    setWidth_eq_ofNat_mod v 8 ▸ hreg .codeSel
  refine ⟨fun h => (hreg .ctrl).trans (writeCtrl_of_not_reset s h), hconfig, hreg .srcAddr, hreg .srcLen,
    hreg .dstAddr, hreg .dstCap, hreg .metaAddr, hreg .metaLen, hreg .hbits, hcodeSel, ?_⟩
  simp only [List.forall_mem_cons, List.not_mem_nil, false_imp_iff, implies_true, and_true]
  exact ⟨hreg .id, hreg .dstLen, hreg .dstBits, hreg .metaOutLen, hreg .nsym, hreg .dictSize, hreg .codeLen,
    hreg (.codeBits 0), hreg (.codeBits 1), hreg (.codeBits 2), hreg (.codeBits 3), hreg (.codeBits 4),
    hreg (.codeBits 5), hreg (.codeBits 6), hreg (.codeBits 7)⟩

/-- Settles O19: no register stands at a reserved offset. -/
theorem reservedOffsetsInert : Obligations.ReservedOffsetsInert := by
  intro s off v haligned hrange
  have hnone : regAt off = none := regAtIndex_reserved (by omega)
  have hok := accessOk_of_aligned haligned
  exact ⟨hostRead_reserved hok hnone, hostWrite_reserved hok hnone⟩

/-! ## Accesses while a command runs -/

/-- R125: the readout registers of CODE are not stable while a command runs. -/
theorem lowRegs_readout_unstable : ∀ n < 27, 18 ≤ n → lowRegs[n]?.map Reg.stableWhileBusy = some false := by decide

theorem regAtIndex_low {n : Nat} (h : n < 256) : regAtIndex n = lowRegs[n]? := if_neg (by omega)

theorem regAtIndex_freq {n : Nat} (h : 256 ≤ n ∧ n < 512) : regAtIndex n = some (.freq (BitVec.ofNat 8 (n - 256))) :=
  if_pos h

/-- R125: at the offsets of result registers and FREQ stands a register whose read is unspecified. -/
theorem regAt_unstable {off : BitVec 12}
    (h : off ∈ ([0x024, 0x028, 0x034, 0x038, 0x03C, 0x040] : List (BitVec 12)) ∨
      (0x048 ≤ off.toNat ∧ off.toNat ≤ 0x068) ∨ (0x400 ≤ off.toNat ∧ off.toNat ≤ 0x7FC)) :
    ∃ r, regAt off = some r ∧ r.stableWhileBusy = false := by
  obtain hresult | hcode | hfreq := h
  · simp only [List.mem_cons, List.not_mem_nil, or_false] at hresult
    obtain rfl | rfl | rfl | rfl | rfl | rfl := hresult
    · exact ⟨.dstLen, rfl, rfl⟩
    · exact ⟨.dstBits, rfl, rfl⟩
    · exact ⟨.metaOutLen, rfl, rfl⟩
    · exact ⟨.hbits, rfl, rfl⟩
    · exact ⟨.nsym, rfl, rfl⟩
    · exact ⟨.dictSize, rfl, rfl⟩
  · obtain ⟨r, hr, hst⟩ := Option.map_eq_some_iff.1 (lowRegs_readout_unstable (off.toNat / 4) (by omega) (by omega))
    exact ⟨r, (regAtIndex_low (by omega)).trans hr, hst⟩
  · exact ⟨_, regAtIndex_freq (by omega), rfl⟩

/-- Settles O21: a busy core serves CTRL writes and stable reads, ignores the other writes, and answers the other reads
with a free word. -/
theorem accessWhileBusy : Obligations.AccessWhileBusy := by
  intro s hb
  refine ⟨fun off v haligned hne => ?_, fun v h => ?_, fun v h => ?_, ?_, fun off haligned hoff => ?_⟩
  · cases hr : regAt off with
    | none => exact hostWrite_reserved (accessOk_of_aligned haligned) hr
    | some r =>
      have hctrl : r ≠ .ctrl := fun h => hne ((regAt_eq_some_iff (r := .ctrl) haligned).1 (h ▸ hr))
      exact hostWrite_busy (accessOk_of_aligned haligned) hr hb hctrl
  · rw [hostWrite_ctrl_offset, writeCtrl_of_not_reset s h]
  · rw [hostWrite_ctrl_offset, writeCtrl_of_reset s h]
  · have hreg : ∀ r : Reg, r.stableWhileBusy = true → s.hostRead r.offset 32 = s.record (.word (s.readReg r)) :=
      fun r hr => hostRead_offset_stable s hr
    have hctrl : s.hostRead 0x004 32 = s.record (.word (if s.irqEn then 1 else 0)) := ctrlWord_eq s ▸ hreg .ctrl rfl
    simp only [List.forall_mem_cons, List.not_mem_nil, false_imp_iff, implies_true, and_true]
    exact ⟨hreg .id rfl, hctrl, hreg .status rfl, hreg .cmd rfl, hreg .config rfl, hreg .srcAddr rfl, hreg .srcLen rfl,
      hreg .dstAddr rfl, hreg .dstCap rfl, hreg .metaAddr rfl, hreg .metaLen rfl, hreg .codeSel rfl⟩
  · obtain ⟨r, hr, hst⟩ := regAt_unstable hoff
    exact ⟨_, _, hostRead_unstable (accessOk_of_aligned haligned) hr hb hst⟩

/-! ## FREQ -/

/-- Settles O22: the write of FREQ[x] is `setFreq` of the updated table. -/
theorem freqWindowWrite : Obligations.FreqWindowWrite := by
  refine ⟨fun x => Table.lookup_replicate 0 x, fun s x v => ⟨fun hi => ?_, fun hb => ?_⟩⟩
  · rw [show s.hostWrite (BitVec.ofNat 12 (0x400 + 4 * x.toNat)) 32 v = s.setFreq (s.freq.update x v) from
      hostWrite_offset_idle hi (.freq x) v]
    exact ⟨hostRead_offset_idle hi (.freq x), Table.lookup_update_same _ _ _,
      fun y hy => by simp [Table.lookup_update, hy], nsym_toNat _, fun y => Table.lookup_replicate none y, rfl⟩
  · exact hostWrite_offset_busy hb v (r := .freq x) (by simp)

end Sys2Proof.Machine
end

section
/-! PROOF. The words that show flags and codewords: STATUS (O16), the readout of CODE (O23), and the interrupt output
(O24). -/

namespace Sys2Proof.Machine

/-! ## STATUS (R104, R601) -/

/-- A bit of a word, from the number the word stands for. -/
theorem getLsbD_of_div_mod {w : Word} {k : Nat} {b : Bool} (h : w.toNat / 2 ^ k % 2 = b.toNat) : w.getLsbD k = b := by
  rw [BitVec.getLsbD, Nat.testBit_eq_decide_div_mod_eq, h]
  cases b <;> rfl

theorem ErrCode.number_le (e : ErrCode) : e.number ≤ 0x0C := by cases e <;> decide

/-- The flags of STATUS fit one bit each, its code the bits below bit 16. -/
theorem statusFields_le (s : State) : s.errCode.number ≤ 0x0C ∧ s.busy.toNat ≤ 1 ∧ s.done.toNat ≤ 1 ∧
    s.error.toNat ≤ 1 ∧ s.dictOvf.toNat ≤ 1 ∧ s.treeValid.toNat ≤ 1 ∧ s.codeValid.toNat ≤ 1 :=
  ⟨s.errCode.number_le, s.busy.toNat_le, s.done.toNat_le, s.error.toNat_le, s.dictOvf.toNat_le, s.treeValid.toNat_le,
    s.codeValid.toNat_le⟩

/-- The fields of STATUS do not overlap, so the word is their sum. -/
theorem statusWord_toNat (s : State) : s.statusWord.toNat =
    s.busy.toNat + 2 * s.done.toNat + 4 * s.error.toNat + 8 * s.dictOvf.toNat + 256 * s.errCode.number
      + 65536 * s.treeValid.toNat + 131072 * s.codeValid.toNat := by
  have hle := statusFields_le s
  rw [State.statusWord, BitVec.toNat_ofNat]
  omega

/-- Settles O16: every field of STATUS, cut out of the sum. -/
theorem statusWordFields : Obligations.StatusWordFields := by
  refine ⟨by decide, fun s => ?_⟩
  have hsum := statusWord_toNat s
  have hle := statusFields_le s
  have hbusy : s.statusWord.getLsbD 0 = s.busy := getLsbD_of_div_mod (by omega)
  refine ⟨hbusy, ?_, ?_, ?_, by omega, by omega, ?_, ?_, by omega⟩
  all_goals exact getLsbD_of_div_mod (by omega)

/-! ## The readout of CODE (R121, R122) -/

/-- R122: bit `31 - i` of a 32-bit piece of a codeword is its bit `i`, and 0 past the end. -/
theorem getLsbD_bitsToNat_padTo (b : Bits) {i : Nat} (h : i < 32) :
    (BitVec.ofNat 32 (bitsToNat (padTo 32 b))).getLsbD (31 - i) = b.getD i false := by
  rw [BitVec.getLsbD_ofNat, testBit_bitsToNat _ _ (by rw [padTo_length]; omega), padTo_getElem, padTo_length,
    show 32 - 1 - (31 - i) = i by omega]
  simp only [show 31 - i < 32 by omega, decide_true, Bool.true_and]

theorem codeBitsWord_getLsbD (s : State) (j : Nat) {i : Nat} (h : i < 32) :
    (s.codeBitsWord j).getLsbD (31 - i) = s.selectedCode.getD (32 * j + i) false := by
  rw [State.codeBitsWord, getLsbD_bitsToNat_padTo _ h]
  simp [List.getD_eq_getElem?_getD]

/-- Settles O23: CODE_LEN and CODE_BITSj read the words of the selected codeword. -/
theorem codeReadout : Obligations.CodeReadout := by
  intro s c hi hlen hc
  have hsel : s.selectedCode = c := by
    obtain hc | ⟨hc, rfl⟩ := hc <;> simp [State.selectedCode, hc]
  refine ⟨⟨s.codeLenWord, hostRead_offset_idle hi .codeLen, ?_⟩, fun j hj => ⟨s.codeBitsWord j, ?_, fun i h => ?_⟩⟩
  · rw [State.codeLenWord, hsel, BitVec.toNat_ofNat]
    omega
  · exact hostRead_offset_idle hi (.codeBits ⟨j, hj⟩)
  · rw [codeBitsWord_getLsbD s j h, hsel]

/-! ## The interrupt output (R170, R620) -/

/-- R611, R612: a command that has ended has raised the interrupt's condition. -/
theorem Completes.irq {s t : State} (h : Completes s t) : t.irq = s.irqEn := by
  obtain ⟨hd, he, -⟩ | ⟨hd, he, -⟩ := h.outcome <;> simp [State.irq, h.irqEn, hd, he]

/-- R700: a reset drops the interrupt. -/
theorem applyReset_irq (s : State) : s.applyReset.irq = false := rfl

/-- Settles O24: the level after a completion, an issue, an acknowledge, a reset and a CTRL write. -/
theorem interruptLevel : Obligations.InterruptLevel := by
  refine ⟨fun _ => rfl, fun i s t h => (exec_completes h).irq, fun s w hi => ?_, fun s v hi hdone herr => ?_,
    fun s v hv => ?_, applyReset_irq, rfl, fun s hs => ?_⟩
  · rw [show s.hostWrite 0x00C 32 w = s.issue w from hostWrite_offset_idle hi .cmd w]
    simp [State.irq]
  · rw [show s.hostWrite 0x008 32 v = s.acknowledge v from hostWrite_offset_idle hi .status v]
    simp [State.irq, State.acknowledge, hdone, herr]
  · rw [hostWrite_ctrl_offset, writeCtrl_of_reset s hv, applyReset_irq]
  · rw [hostWrite_ctrl_offset, writeCtrl_of_not_reset s (by decide)]
    simpa [State.irq] using hs

end Sys2Proof.Machine
end

section
/-! PROOF. The loop of the Huffman tree builder (R406): an induction over its rounds, what its result holds, and the sums
of frequencies along it. O31 is assembled from them. -/

namespace Sys2Proof.Machine

/-! ## One round (R405, R406) -/

theorem leastLive_mem {nodes : List Node} {live : List Nat} {i : Nat} (h : leastLive nodes live = some i) :
    i ∈ live := by
  induction live generalizing i with
  | nil => cases h
  | cons j rest ih =>
    unfold leastLive at h
    split at h
    · cases h
      exact List.mem_cons_self
    · next m hm =>
      split at h <;> cases h
      · exact List.mem_cons_of_mem j (ih hm)
      · exact List.mem_cons_self

theorem leastLive_eq_none {nodes : List Node} {live : List Nat} (h : leastLive nodes live = none) : live = [] := by
  cases live with
  | nil => rfl
  | cons j rest =>
    unfold leastLive at h
    split at h
    · cases h
    · split at h <;> cases h

/-- A node is taken from `live`. -/
theorem takeLeast_perm {nodes : List Node} {live rest : List Nat} {i : Nat}
    (h : takeLeast nodes live = some (i, rest)) : live.Perm (i :: rest) := by
  unfold takeLeast at h
  split at h
  · cases h
  · next j hj =>
    cases h
    exact List.perm_cons_erase (leastLive_mem hj)

theorem takeLeast_eq_none {nodes : List Node} {live : List Nat} (h : takeLeast nodes live = none) : live = [] := by
  unfold takeLeast at h
  split at h
  · next hnone => exact leastLive_eq_none hnone
  · cases h

/-! ## All rounds -/

/-- R406: what every round keeps holds when the loop ends. -/
theorem mergeLoop_induction {P : Nat → List Node → List Nat → Prop}
    (round : ∀ k nodes live a live₁ b live₂, takeLeast nodes live = some (a, live₁) →
      takeLeast nodes live₁ = some (b, live₂) → P k nodes live →
      P (k + 1) (nodes ++ [mergedNode nodes a b k]) (live₂ ++ [nodes.length])) (fuel : Nat) :
    ∀ (k : Nat) (nodes : List Node) (live : List Nat), P k nodes live →
      ∃ k', P k' (mergeLoop fuel k nodes live).1 (mergeLoop fuel k nodes live).2 := by
  induction fuel with
  | zero => exact fun k nodes live h => ⟨k, h⟩
  | succ fuel ih =>
    intro k nodes live h
    unfold mergeLoop
    split
    · exact ⟨k, h⟩
    · next a live₁ ha =>
      split
      · exact ⟨k, h⟩
      · next b live₂ hb => exact ih _ _ _ (round k nodes live a live₁ b live₂ ha hb h)

/-- R406: with fuel for every live node the loop ends with at most one. -/
theorem mergeLoop_live_length (fuel : Nat) :
    ∀ (k : Nat) (nodes : List Node) (live : List Nat), live.length ≤ fuel →
      (mergeLoop fuel k nodes live).2.length ≤ 1 := by
  induction fuel with
  | zero => exact fun k nodes live h => h.trans (Nat.zero_le 1)
  | succ fuel ih =>
    intro k nodes live h
    unfold mergeLoop
    split
    · next hnone => simp [takeLeast_eq_none hnone]
    · next a live₁ ha =>
      have hlive := (takeLeast_perm ha).length_eq
      split
      · next hnone => simp [hlive, takeLeast_eq_none hnone]
      · next b live₂ hb =>
        have hlive₁ := (takeLeast_perm hb).length_eq
        exact ih _ _ _ (by simp only [List.length_append, List.length_cons, List.length_nil] at *; omega)

/-! ## The sums of frequencies -/

theorem freqAt_of_getElem? {nodes : List Node} {i : Nat} {p : Node} (h : nodes[i]? = some p) :
    freqAt nodes i = p.freq := by simp [freqAt, h]

/-- An arena that grows keeps its nodes. -/
theorem getElem?_of_prefix {nodes nodes' : List Node} {i : Nat} {p : Node} (hp : nodes <+: nodes')
    (h : nodes[i]? = some p) : nodes'[i]? = some p := by
  obtain ⟨more, rfl⟩ := hp
  rw [List.getElem?_append_left (List.getElem?_eq_some_iff.1 h).1, h]

theorem freqAt_append_last (nodes : List Node) (p : Node) : freqAt (nodes ++ [p]) nodes.length = p.freq :=
  freqAt_of_getElem? (by simp)

theorem freqAt_append_left {nodes : List Node} (more : List Node) {i : Nat} (h : i < nodes.length) :
    freqAt (nodes ++ more) i = freqAt nodes i := by simp [freqAt, List.getElem?_append_left h]

/-- The sum of the frequencies of the live nodes. -/
def liveSum (nodes : List Node) (live : List Nat) : Nat := (live.map fun i => (freqAt nodes i).toNat).sum

theorem liveSum_perm {nodes : List Node} {live live' : List Nat} (h : live.Perm live') :
    liveSum nodes live = liveSum nodes live' := (h.map _).sum_eq

theorem liveSum_append (nodes : List Node) (live live' : List Nat) :
    liveSum nodes (live ++ live') = liveSum nodes live + liveSum nodes live' := by simp [liveSum]

/-- More nodes do not change the sum of those that are there. -/
theorem liveSum_append_nodes {nodes : List Node} (more : List Node) {live : List Nat}
    (h : ∀ i ∈ live, i < nodes.length) : liveSum (nodes ++ more) live = liveSum nodes live := by
  rw [liveSum, liveSum, List.map_congr_left fun i hi => by rw [freqAt_append_left more (h i hi)]]

/-- Over all nodes the sum is that of the node list. -/
theorem liveSum_range (nodes : List Node) :
    liveSum nodes (List.range nodes.length) = (nodes.map fun p => p.freq.toNat).sum := by
  rw [liveSum]
  congr 1
  apply List.ext_getElem
  · simp
  · intro i hi _
    have hi : i < nodes.length := by simpa using hi
    simp [freqAt, hi]

/-- R145: every internal node's children are in the arena and its frequency is their sum, without overflow. -/
def InternalSums (nodes : List Node) : Prop :=
  ∀ (i : Nat) (q : BitVec 40) (l r : Nat) (k : BitVec 9), nodes[i]? = some (.internal q l r k) →
    ∃ a b : Node, nodes[l]? = some a ∧ nodes[r]? = some b ∧ q.toNat = a.freq.toNat + b.freq.toNat

/-- A new last node whose frequency is its children's sum. -/
theorem InternalSums.append {nodes : List Node} (h : InternalSums nodes) {l r k : Nat} (hl : l < nodes.length)
    (hr : r < nodes.length) (hfits : (freqAt nodes l).toNat + (freqAt nodes r).toNat < 2 ^ 40) :
    InternalSums (nodes ++ [mergedNode nodes l r k]) := by
  have hprefix : nodes <+: nodes ++ [mergedNode nodes l r k] := List.prefix_append _ _
  intro i q l' r' key hi
  rw [List.getElem?_append] at hi
  split at hi
  · obtain ⟨a, b, ha, hb, hsum⟩ := h i q l' r' key hi
    exact ⟨a, b, getElem?_of_prefix hprefix ha, getElem?_of_prefix hprefix hb, hsum⟩
  · obtain ⟨_, hnew⟩ := List.getElem?_eq_some_iff.1 hi
    simp only [mergedNode, List.getElem_singleton, Node.internal.injEq] at hnew
    obtain ⟨rfl, rfl, rfl, -⟩ := hnew
    have ha := List.getElem?_eq_getElem hl
    have hb := List.getElem?_eq_getElem hr
    refine ⟨_, _, getElem?_of_prefix hprefix ha, getElem?_of_prefix hprefix hb, ?_⟩
    rw [freqAt_of_getElem? ha, freqAt_of_getElem? hb] at hfits
    rw [freqAt_of_getElem? ha, freqAt_of_getElem? hb, BitVec.toNat_add, Nat.mod_eq_of_lt hfits]

/-- What every round of the loop keeps: the leaves stay in front, the live nodes are in the arena and their frequencies
sum to `total`, and internal nodes hold sums. -/
structure MergeSums (leaves : List Node) (total : Nat) (nodes : List Node) (live : List Nat) : Prop where
  leavesFirst : leaves <+: nodes
  liveInArena : ∀ i ∈ live, i < nodes.length
  liveTotal : liveSum nodes live = total
  internalSums : InternalSums nodes

theorem MergeSums.round {leaves nodes : List Node} {total k a b : Nat} {live live₁ live₂ : List Nat}
    (htotal : total < 2 ^ 40) (ha : takeLeast nodes live = some (a, live₁))
    (hb : takeLeast nodes live₁ = some (b, live₂)) (h : MergeSums leaves total nodes live) :
    MergeSums leaves total (nodes ++ [mergedNode nodes a b k]) (live₂ ++ [nodes.length]) := by
  obtain ⟨hleaves, harena, hsum, hinternal⟩ := h
  have hperm : live.Perm (a :: b :: live₂) := (takeLeast_perm ha).trans ((takeLeast_perm hb).cons a)
  have ha' : a < nodes.length := harena a (hperm.mem_iff.2 (by simp))
  have hb' : b < nodes.length := harena b (hperm.mem_iff.2 (by simp))
  have hrest : ∀ i ∈ live₂, i < nodes.length := fun i hi => harena i (hperm.mem_iff.2 (by simp [hi]))
  have hsplit : (freqAt nodes a).toNat + ((freqAt nodes b).toNat + liveSum nodes live₂) = total := by
    rw [← hsum, liveSum_perm hperm]
    rfl
  have hfits : (freqAt nodes a).toNat + (freqAt nodes b).toNat < 2 ^ 40 := by omega
  refine ⟨hleaves.trans (List.prefix_append _ _), fun i hi => ?_, ?_, hinternal.append ha' hb' hfits⟩
  · rw [List.length_append, List.length_singleton]
    obtain hi | rfl := by simpa using hi
    · have := hrest i hi
      omega
    · omega
  · have hnew : liveSum (nodes ++ [mergedNode nodes a b k]) [nodes.length] =
        (freqAt nodes a).toNat + (freqAt nodes b).toNat := by
      simp only [liveSum, List.map_cons, List.map_nil, List.sum_singleton, freqAt_append_last]
      exact (BitVec.toNat_add _ _).trans (Nat.mod_eq_of_lt hfits)
    rw [liveSum_append, liveSum_append_nodes _ hrest, hnew]
    omega

/-! ## The tree of a table -/

/-- R406: the sum of all counts. -/
def totalCount (f : Table Word) : Nat := ((presentSymbols f).map fun x => (f.lookup x).toNat).sum

/-- R406: 256 counts of 32 bits do not overflow 40 bits. -/
theorem totalCount_lt (f : Table Word) : totalCount f < 2 ^ 40 := by
  have hcount : (presentSymbols f).length ≤ 256 := (presentSymbols_length f).trans_le (presentCount_le f)
  have hsum := List.sum_le_card_nsmul ((presentSymbols f).map fun x => (f.lookup x).toNat) (2 ^ 32 - 1) (by
    simp only [List.mem_map]
    rintro _ ⟨x, -, rfl⟩
    exact Nat.le_sub_one_of_lt (f.lookup x).isLt)
  simp only [List.length_map, smul_eq_mul] at hsum
  rw [totalCount]
  omega

/-- R406: the leaves are the present symbols in order. -/
theorem leavesOf_eq_map (f : Table Word) :
    leavesOf f = (presentSymbols f).map fun x => Node.leaf x ((f.lookup x).setWidth 40) (x.setWidth 9) := by
  simp only [leavesOf, presentEntries_eq_map, List.map_map]
  rfl

theorem mergeSums_leaves (f : Table Word) :
    MergeSums (leavesOf f) (totalCount f) (leavesOf f) (List.range (leavesOf f).length) := by
  refine ⟨List.prefix_rfl, fun i hi => List.mem_range.1 hi, ?_, fun i q l r k hi => ?_⟩
  · rw [liveSum_range, leavesOf_eq_map, totalCount, List.map_map]
    rfl
  · simp [leavesOf_eq_map] at hi

/-- R406: what the builder's loop ends with. -/
theorem buildTree_sums (f : Table Word) :
    ∃ live, (buildTree f).root = live.head? ∧ live.length ≤ 1 ∧
      MergeSums (leavesOf f) (totalCount f) (buildTree f).nodes live := by
  obtain ⟨-, h⟩ := mergeLoop_induction (P := fun _ => MergeSums (leavesOf f) (totalCount f))
    (fun _ _ _ _ _ _ _ ha hb h => h.round (totalCount_lt f) ha hb) (leavesOf f).length 0 _ _ (mergeSums_leaves f)
  exact ⟨_, rfl, mergeLoop_live_length _ _ _ _ (by rw [List.length_range]), h⟩

/-- Settles O31: the rounds of the loop keep the leaves in front, the sums in internal nodes, and the total over the
live nodes, of which the root is the last. -/
theorem treeFrequenciesAreSums : Obligations.TreeFrequenciesAreSums := by
  intro f
  obtain ⟨live, hroot, hlive, hleaves, -, htotal, hinternal⟩ := buildTree_sums f
  refine ⟨fun k x hk => ?_, hinternal, fun _ _ _ _ _ => ⟨rfl, rfl⟩, fun i p hi hp => ?_⟩
  · have hleaf : (leavesOf f)[k]? = some (.leaf x ((f.lookup x).setWidth 40) (x.setWidth 9)) := by
      simp [leavesOf_eq_map, hk]
    refine ⟨_, _, getElem?_of_prefix hleaves hleaf, ?_, ?_⟩
    · exact BitVec.toNat_setWidth_of_le (by decide)
    · exact BitVec.toNat_setWidth_of_le (by decide)
  · obtain rfl : live = [i] := by
      rw [hi] at hroot
      match live, hroot, hlive with
      | [j], hroot, _ => simpa using hroot.symm
    simpa [liveSum, totalCount, freqAt_of_getElem? hp] using htotal

end Sys2Proof.Machine
end

section
/-! PROOF. The host's data-memory accesses (O25), its irregular register accesses (O20), and the layout of packed bit
streams (O26). -/

namespace Sys2Proof.Machine

/-! ## The regions of the running command (R231) -/

theorem running_eq_some_iff {s : State} {i : Instr} :
    s.running = some i ↔ s.engine = .busy ∧ decode s.cmd = .ok i := by
  cases he : s.engine <;> cases hd : decode s.cmd <;> simp [State.running, State.busy, he, hd]

theorem runningRegions_any_iff {s : State} {p : Region → Bool} :
    (runningRegions s).any p = true ↔
      ∃ i, (s.engine = .busy ∧ decode s.cmd = .ok i) ∧ ∃ r ∈ regions i s, p r = true := by
  simp only [← running_eq_some_iff, runningRegions]
  cases s.running <;> simp

/-! ## Pokes and peeks (R200, R231) -/

section
variable {s : State} {a : Nat}

theorem hostPoke_outside (v : Byte) (h : s.memSize ≤ a) : hostPoke a v s = .fault (.hostAddressOutsideMemory a) :=
  if_pos h

theorem hostPoke_running (v : Byte) (h : a < s.memSize) (hr : (runningRegions s).any (·.holds a) = true) :
    hostPoke a v s = .refused (.hostWritesRunningRegion a) := by
  rw [hostPoke, if_neg (Nat.not_le.2 h), if_pos hr]

theorem hostPoke_free (v : Byte) (h : a < s.memSize) (hr : ¬ (runningRegions s).any (·.holds a) = true) :
    hostPoke a v s = .next { s with mem := s.mem.write a v } := by
  rw [hostPoke, if_neg (Nat.not_le.2 h), if_neg hr]

theorem hostPeek_outside (h : s.memSize ≤ a) : hostPeek a s = .fault (.hostAddressOutsideMemory a) := if_pos h

theorem hostPeek_running (h : a < s.memSize)
    (hr : (runningRegions s).any (fun r => r.isWrite && r.holds a) = true) :
    hostPeek a s = .next { s.record (.byte (Config.freeByte s.draws)) with draws := s.draws + 1 } := by
  rw [hostPeek, if_neg (Nat.not_le.2 h), if_pos hr]

theorem hostPeek_free (h : a < s.memSize)
    (hr : ¬ (runningRegions s).any (fun r => r.isWrite && r.holds a) = true) :
    hostPeek a s = .next (s.record (.byte (s.mem.read a))) := by
  rw [hostPeek, if_neg (Nat.not_le.2 h), if_neg hr]

end

/-- Settles O25: the model's tests are the statement's conditions, and a write of a canonical memory changes the one
byte. -/
theorem hostMemoryAccess : Obligations.HostMemoryAccess := by
  intro s a v runs touched written
  have htouched : (runningRegions s).any (·.holds a) = true ↔ touched := by
    simp only [runningRegions_any_iff, Region.holds_iff]
    rfl
  have hwritten : (runningRegions s).any (fun r => r.isWrite && r.holds a) = true ↔ written := by
    simp only [runningRegions_any_iff, Bool.and_eq_true, Region.holds_iff]
    rfl
  refine ⟨fun h => ⟨hostPoke_outside v h, hostPeek_outside h⟩, fun h ht => ?_, fun h ht hwf => ?_, fun h hw => ?_,
    fun h hw => ?_⟩
  · exact hostPoke_running v (Nat.lt_succ_of_le h) (htouched.2 ht)
  · exact ⟨s.mem.write a v, hostPoke_free v (Nat.lt_succ_of_le h) (mt htouched.1 ht), Memory.read_write_same a v hwf,
      fun b hb => Memory.read_write_ne _ _ _ _ hb⟩
  · exact hostPeek_free (Nat.lt_succ_of_le h) (mt hwritten.1 hw)
  · exact ⟨_, _, hostPeek_running (Nat.lt_succ_of_le h) (hwritten.2 hw)⟩

/-! ## Irregular register accesses (R232) -/

theorem accessOk_eq_false_iff {off : BitVec 12} {bits : Nat} :
    accessOk off bits = false ↔ bits ≠ 32 ∨ off.toNat % 4 ≠ 0 := by
  simp [accessOk, imp_iff_not_or]

/-- Settles O20: such an access fails the window's check, for a write and for a read. -/
theorem irregularAccessRefused : Obligations.IrregularAccessRefused := fun _ _ _ _ h =>
  ⟨hostWrite_refused (accessOk_eq_false_iff.2 h), hostRead_refused (accessOk_eq_false_iff.2 h)⟩

/-! ## Packed bit streams (R210, R211) -/

/-- R210: bit `i` of byte `k` of a packed stream, counted from the most significant. -/
theorem packBits_getLsbD (b : Bits) {k i : Nat} (hi : i < 8) (h : k < (packBits b).length) :
    ((packBits b)[k]).getLsbD (7 - i) = b.getD (8 * k + i) false := by
  have hbyte : (packBits b)[k] = packByte ((b.drop (8 * k)).take 8) := packBytes_getElem _ _ _ h
  rw [hbyte, packByte_getLsbD _ _ hi]
  simp [List.getD_eq_getElem?_getD, hi]

/-- R211: bit `j` of the bits read from memory. -/
theorem readBits_getElem (m : Memory) (a n : Nat) {j : Nat} (h : j < (m.readBits a n).length) :
    (m.readBits a n)[j] = (m.read (a + j / 8)).getLsbD (7 - j % 8) := by
  have hj : j < n := by rwa [readBits_length] at h
  have hbyte : j / 8 < (m.readBytes a (ceil8 n)).length := by
    rw [Memory.readBytes_length, ceil8]
    omega
  simp only [Memory.readBits, List.getElem_take]
  rw [unpackBytes_getElem _ _ _ hbyte, Memory.readBytes_getElem]

/-- Settles O26. -/
theorem packedStreamLayout : Obligations.PackedStreamLayout :=
  ⟨fun b => ⟨packBits_length b, fun _ _ hi h => packBits_getLsbD b hi h⟩,
    fun m a n => ⟨readBits_length m a n, fun _ h => readBits_getElem m a n h⟩⟩

end Sys2Proof.Machine
end

section
/-! PROOF. What a command that succeeds has stored (O9): the outputs it reports, and memory outside them. -/

namespace Sys2Proof.Machine

/-- From `s` to `t`, memory changed only in the given outputs, each an address and a length in bytes. -/
def StoresOnly (s t : State) (outputs : List (Word × Word)) : Prop :=
  ∀ a, (∀ o ∈ outputs, ¬ (o.1.toNat ≤ a ∧ a < o.1.toNat + o.2.toNat)) → t.mem.read a = s.mem.read a

/-- The outputs command `i` reports in `t` when it succeeds from `s`. -/
def reportedOutputs (i : Instr) (s t : State) : List (Word × Word) :=
  match i with
  | .hufFreq | .hufBuild | .hufCodegen | .hufMetaParse => []
  | .hufEncode | .hufDecode | .hufDecompress | .lzwEncode | .lzwDecode => [(s.dstAddr, t.dstLen)]
  | .hufMetaEmit => [(s.metaAddr, t.metaOutLen)]
  | .hufCompress => [(s.dstAddr, t.dstLen), (s.metaAddr, t.metaOutLen)]

theorem StoresOnly.trans {s t u : State} {xs ys : List (Word × Word)} (h : StoresOnly s t xs)
    (h' : StoresOnly t u ys) : StoresOnly s u (xs ++ ys) := fun a ha =>
  (h' a fun o ho => ha o (List.mem_append_right _ ho)).trans (h a fun o ho => ha o (List.mem_append_left _ ho))

/-- A stored byte string whose length a capacity register bounds is the output its length register reports. -/
theorem store_storesOnly (s : State) (a : Word) {bs : List Byte} {n : Nat} {cap : Word} (hn : bs.length = n)
    (h : n ≤ cap.toNat) : StoresOnly s (s.store a bs) [(a, BitVec.ofNat 32 n)] := fun b hb => by
  have hout : ¬ (a.toNat ≤ b ∧ b < a.toNat + n) := by
    simpa [Nat.mod_eq_of_lt (h.trans_lt cap.isLt)] using hb
  exact Memory.read_writeBytes_outside _ _ _ _ (by omega)

/-- R210: a stream that fits DST, stored there. -/
theorem storeStream_storesOnly {bits : Bits} {s : State} (h : streamTooLong bits.length s.dstCap.toNat = false) :
    StoresOnly s (storeStream bits s) [(s.dstAddr, BitVec.ofNat 32 (ceil8 bits.length))] :=
  store_storesOnly s s.dstAddr (packBits_length bits) (streamTooLong_eq_false.1 h).2

/-! ## No success after an error -/

theorem failCommand_not_done {i : Instr} {e : ErrCode} {s : State} : ¬ (failCommand i e s).done = true := by
  simp [failCommand]

/-- R605: a command that succeeds passed its pre-checks and ran its own rule. -/
theorem runChecked_of_done {i : Instr} {body : State → State} {s : State} (h : (runChecked i body s).done = true) :
    precheck i s = none ∧ runChecked i body s = body s := by
  obtain ⟨e, -, heq⟩ | hran := runChecked_cases i body s
  · simp [heq] at h
  · exact hran

/-! ## The commands -/

section
variable {s : State}

@[simp] theorem buildStage_mem : (buildStage s).mem = s.mem := by simp [buildStage]
@[simp] theorem buildStage_dstAddr : (buildStage s).dstAddr = s.dstAddr := by simp [buildStage]
@[simp] theorem buildStage_metaAddr : (buildStage s).metaAddr = s.metaAddr := by simp [buildStage]
@[simp] theorem codegenStage_mem : (codegenStage s).mem = s.mem := by simp [codegenStage]
@[simp] theorem codegenStage_dstAddr : (codegenStage s).dstAddr = s.dstAddr := by simp [codegenStage]
@[simp] theorem codegenStage_metaAddr : (codegenStage s).metaAddr = s.metaAddr := by simp [codegenStage]
@[simp] theorem installBlob_mem (f : Table Word) (len : Nat) : (installBlob f len s).mem = s.mem := by
  simp [installBlob]
@[simp] theorem installBlob_dstAddr (f : Table Word) (len : Nat) : (installBlob f len s).dstAddr = s.dstAddr := by
  simp [installBlob]

theorem hufEncodeBody_storesOnly (h : (hufEncodeBody s).done = true) :
    StoresOnly s (hufEncodeBody s) [(s.dstAddr, (hufEncodeBody s).dstLen)] := by
  unfold hufEncodeBody at h ⊢
  split at h
  · exact (failCommand_not_done h).elim
  · next hbits => exact storeStream_storesOnly (encodeLoop_ok_fits _ [] (streamTooLong_zero _) hbits)

theorem decodeStage_storesOnly {i : Instr} {n : Nat} (h : (decodeStage i n s).done = true) :
    StoresOnly s (decodeStage i n s) [(s.dstAddr, (decodeStage i n s).dstLen)] := by
  unfold decodeStage at h ⊢
  split at h
  · exact (failCommand_not_done h).elim
  · next hout => exact store_storesOnly s s.dstAddr rfl (decodeLoop_length _ _ _ _ (Nat.zero_le _) hout)

theorem hufMetaEmitBody_storesOnly (h : (hufMetaEmitBody s).done = true) :
    StoresOnly s (hufMetaEmitBody s) [(s.metaAddr, (hufMetaEmitBody s).metaOutLen)] := by
  simp only [hufMetaEmitBody] at h ⊢
  split at h
  · exact (failCommand_not_done h).elim
  · next hlen =>
    rw [if_neg hlen]
    exact store_storesOnly s s.metaAddr rfl (Nat.le_of_not_gt hlen)

/-- R480: the stream in DST, then the blob in META. -/
theorem compressStreamStage_storesOnly {bytes : List Byte} (h : (compressStreamStage bytes s).done = true) :
    StoresOnly s (compressStreamStage bytes s)
      [(s.dstAddr, (compressStreamStage bytes s).dstLen), (s.metaAddr, (compressStreamStage bytes s).metaOutLen)] := by
  simp only [compressStreamStage, compressBlobStage] at h ⊢
  split at h
  · exact (failCommand_not_done h).elim
  · split at h
    · exact (failCommand_not_done h).elim
    · next bits _ hfits =>
      split at h
      · exact (failCommand_not_done h).elim
      · next hlen =>
        rw [if_neg hfits, if_neg hlen]
        exact (storeStream_storesOnly (Bool.not_eq_true _ ▸ hfits)).trans
          (store_storesOnly (storeStream bits s) s.metaAddr rfl (Nat.le_of_not_gt hlen))

theorem hufCompressBody_storesOnly (h : (hufCompressBody s).done = true) :
    StoresOnly s (hufCompressBody s)
      [(s.dstAddr, (hufCompressBody s).dstLen), (s.metaAddr, (hufCompressBody s).metaOutLen)] := by
  simpa [StoresOnly, hufCompressBody] using compressStreamStage_storesOnly h

theorem hufDecompressBody_storesOnly (h : (hufDecompressBody s).done = true) :
    StoresOnly s (hufDecompressBody s) [(s.dstAddr, (hufDecompressBody s).dstLen)] := by
  simp only [hufDecompressBody, decompressStage] at h ⊢
  split at h
  · exact (failCommand_not_done h).elim
  · split at h
    · exact (failCommand_not_done h).elim
    · next hlen =>
      rw [if_neg hlen]
      simpa [StoresOnly] using decodeStage_storesOnly h

theorem lzwEncodeBody_storesOnly (hw : Config.codeWidthMin ≤ s.codeWidth.toNat) (h : (lzwEncodeBody s).done = true) :
    StoresOnly s (lzwEncodeBody s) [(s.dstAddr, (lzwEncodeBody s).dstLen)] := by
  simp only [lzwEncodeBody] at h ⊢
  obtain ⟨bits, d, hrun, -, hfits⟩ | hrun := lzwEncodeLoop_cases (cap := s.dstCap.toNat) (srcBytes s) seedDict [] []
    false (dictSizeLegal_seed hw) (streamTooLong_zero _)
  · rw [hrun]
    exact store_storesOnly s s.dstAddr (packBits_length bits) (streamTooLong_eq_false.1 hfits).2
  · rw [hrun] at h
    exact (failCommand_not_done h).elim

theorem lzwDecodeBody_storesOnly (hw : Config.codeWidthMin ≤ s.codeWidth.toNat) (h : (lzwDecodeBody s).done = true) :
    StoresOnly s (lzwDecodeBody s) [(s.dstAddr, (lzwDecodeBody s).dstLen)] := by
  have hends := lzwDecodeBits_ends s.dstCap.toNat (s.mem.readBits s.srcAddr.toNat s.srcLen.toNat) hw
  unfold lzwDecodeBody at h ⊢
  split at h
  · exact (failCommand_not_done h).elim
  · next out d hok =>
    rw [hok] at hends
    exact store_storesOnly s s.dstAddr rfl hends.1

theorem hufMetaParseBody_storesOnly (h : (hufMetaParseBody s).done = true) :
    StoresOnly s (hufMetaParseBody s) [] := by
  unfold hufMetaParseBody at h ⊢
  split at h
  · exact (failCommand_not_done h).elim
  · exact fun _ _ => rfl

end

/-! ## Every command -/

/-- R206: a command that succeeds stores only the outputs it reports. -/
theorem exec_storesOnly {i : Instr} {s t : State} (h : exec i s = .next t) (hd : t.done = true) :
    StoresOnly s t (reportedOutputs i s t) := by
  cases i <;> cases h <;> obtain ⟨hp, heq⟩ := runChecked_of_done hd <;> rw [heq] at hd ⊢
  case hufFreq | hufBuild | hufCodegen => exact fun _ _ => rfl
  case hufEncode => exact hufEncodeBody_storesOnly hd
  case hufDecode => exact decodeStage_storesOnly hd
  case hufMetaEmit => exact hufMetaEmitBody_storesOnly hd
  case hufMetaParse => exact hufMetaParseBody_storesOnly hd
  case hufCompress => exact hufCompressBody_storesOnly hd
  case hufDecompress => exact hufDecompressBody_storesOnly hd
  case lzwEncode => exact lzwEncodeBody_storesOnly (codeWidth_of_precheck (.inl rfl) hp).1 hd
  case lzwDecode => exact lzwDecodeBody_storesOnly (codeWidth_of_precheck (.inr rfl) hp).1 hd

/-- Settles O9: `exec_storesOnly`, with the outputs of each form written out. -/
theorem successStoresOnlyOutput : Obligations.SuccessStoresOnlyOutput := by
  intro i s t h hd
  have hstores := exec_storesOnly h hd
  refine ⟨fun hi a => ?_, fun hi a hdst => ?_, fun hi a hmeta => ?_, fun hi a hdst hmeta => ?_⟩
  · have houts : reportedOutputs i s t = [] := by fin_cases hi <;> rfl
    exact hstores a (houts ▸ List.forall_mem_nil _)
  · have houts : reportedOutputs i s t = [(s.dstAddr, t.dstLen)] := by fin_cases hi <;> rfl
    exact hstores a (houts ▸ List.forall_mem_singleton.2 hdst)
  · subst hi
    exact hstores a (List.forall_mem_singleton.2 hmeta)
  · subst hi
    exact hstores a (List.forall_mem_cons.2 ⟨hdst, List.forall_mem_singleton.2 hmeta⟩)

end Sys2Proof.Machine
end

section
/-! PROOF. The command word: the decoder and the encoder are inverse, and the words the decoder rejects (O1, O2). -/

namespace Sys2Proof

/-! ## Decoding and encoding (R301, R302) -/

theorem decode_encode (i : Instr) : decode (encode i) = .ok i := by cases i <;> rfl

/-- R302: an OPCODE maps to the command whose word it is. -/
theorem eq_encode_of_ofOpcode {op : Nat} {i : Instr} (h : ofOpcode op = .ok i) : op = (encode i).toNat := by
  unfold ofOpcode at h
  split at h <;> cases h <;> rfl

/-- R302: an OPCODE maps to no command exactly when it is not listed: each arm of the map but the last is one of the
list. -/
theorem ofOpcode_eq_error_iff {op : Nat} : (∃ e, ofOpcode op = .error e) ↔ op ∉ opcodes := by
  unfold ofOpcode
  split <;> simp_all [opcodes]

/-- R300, R301: a word that decodes has no reserved bit set and a listed OPCODE, so it is its command's word. -/
theorem decode_eq_ok_iff {w : Word} {i : Instr} : decode w = .ok i ↔ w = encode i := by
  refine ⟨fun h => ?_, fun h => h ▸ decode_encode i⟩
  unfold decode at h
  split at h
  · next hrsvd =>
    have hop : w.toNat % 256 = (encode i).toNat := eq_encode_of_ofOpcode h
    have hzero : w.toNat / 256 = 0 := hrsvd
    exact BitVec.eq_of_toNat_eq (by omega)
  · cases h

/-- R301, R303: the illegal words. -/
theorem decode_eq_error_iff {w : Word} :
    (∃ e, decode w = .error e) ↔ w.toNat / 256 ≠ 0 ∨ w.toNat % 256 ∉ opcodes := by
  unfold decode
  by_cases hrsvd : reservedField w = 0
  · rw [if_pos hrsvd, ofOpcode_eq_error_iff]
    exact (or_iff_right (not_not_intro hrsvd)).symm
  · rw [if_neg hrsvd]
    exact ⟨fun _ => .inl hrsvd, fun _ => ⟨_, rfl⟩⟩

/-- Settles O1: eleven of the words are `encode`'s, and the three others are run through `decode`. -/
theorem opcodeMapWordsDecode : Obligations.OpcodeMapWordsDecode :=
  ⟨decode_encode .hufFreq, decode_encode .hufBuild, decode_encode .hufCodegen, decode_encode .hufEncode,
    decode_encode .hufDecode, decode_encode .hufMetaEmit, decode_encode .hufMetaParse, decode_encode .hufCompress,
    decode_encode .hufDecompress, decode_encode .lzwEncode, decode_encode .lzwDecode, rfl, rfl, rfl⟩

/-- Settles O2: the map read in both directions, and the two ways a word is rejected. -/
theorem decodeAndEncodeAgree : Obligations.DecodeAndEncodeAgree :=
  ⟨fun _ _ => decode_eq_ok_iff, fun _ => decode_eq_error_iff⟩

end Sys2Proof
end

section
/-! PROOF. The step: the engine's, which runs the command CMD decodes to or reports the word illegal, or the host's, which
does its next action (O3, O4). -/

namespace Sys2Proof.Machine

/-! ## Whose step it is (R731) -/

section
variable {s : State}

theorem engineMoves_iff : engineMoves s = true ↔ s.engine = .busy ∧ hostMovesFirst s = false := by
  simp [engineMoves, State.busy]

theorem runCommand_of_ok {i : Instr} (h : decode s.cmd = .ok i) : runCommand s = exec i s := by
  simp only [runCommand, h]

/-- R303, R605 check 1. -/
theorem runCommand_of_error {e : DecodeError} (h : decode s.cmd = .error e) :
    runCommand s = .next (s.raiseError .illegalCmd) := by
  simp only [runCommand, h]

theorem step_eq_hostTurn (h : s.engine = .idle ∨ hostMovesFirst s = true) : step s = hostTurn s := by
  refine step_host (Bool.eq_false_iff.2 fun hm => ?_)
  obtain ⟨hbusy, hfirst⟩ := engineMoves_iff.1 hm
  simp [hbusy, hfirst] at h

/-- R703: a host without actions waits, and does not come first. -/
theorem hostTurn_nil (h : s.inputs = []) : hostTurn s = .next s ∧ hostMovesFirst s = false := by
  simp [hostTurn, hostMovesFirst, h]

end

/-! ## The host's next action (R230, R341, R700) -/

section
variable {s : State} {inp : Input} {rest : List Input}

/-- R341: a poll of an idle core ends the wait. -/
theorem hostTurn_wait_idle {polls : Nat} (h : s.inputs = inp :: rest) (ha : inp.action = .wait polls)
    (hi : s.engine = .idle) : hostTurn s = .next (s.poll rest) := by
  simp [hostTurn, h, ha, State.busy, hi]

/-- R341: a poll of a busy core goes on with one poll less. -/
theorem hostTurn_wait_busy {polls : Nat} (h : s.inputs = inp :: rest) (ha : inp.action = .wait polls)
    (hb : s.engine = .busy) :
    hostTurn s = .next (s.poll ({ inp with action := .wait (polls - 1) } :: rest)) := by
  simp [hostTurn, h, ha, State.busy, hb]

/-- R341: STATUS is read once IRQ = 1. -/
theorem hostTurn_waitIrq_raised (h : s.inputs = inp :: rest) (ha : inp.action = .waitIrq) (hirq : s.irq = true) :
    hostTurn s = .next (s.poll rest) := by
  simp [hostTurn, h, ha, hirq]

/-- R341: the wait goes on while IRQ = 0. -/
theorem hostTurn_waitIrq_low (h : s.inputs = inp :: rest) (ha : inp.action = .waitIrq) (hirq : s.irq = false) :
    hostTurn s = .next s := by
  simp [hostTurn, h, ha, hirq]

theorem hostMovesFirst_wait_iff {polls : Nat} (h : s.inputs = inp :: rest) (ha : inp.action = .wait polls) :
    hostMovesFirst s = true ↔ polls ≠ 0 := by
  simp [hostMovesFirst, h, ha]

end

/-- Settles O3: `engineMoves` decides between the engine's step, by what CMD decodes to, and the host's, by its next
action. -/
theorem stepRunsDecodedCommand : Obligations.StepRunsDecodedCommand := by
  refine ⟨fun s => ⟨fun i hb hf hd => ?_, fun e hb hf hd => ?_, step_eq_hostTurn, hostTurn_nil⟩, ?_⟩
  · exact (step_engine (engineMoves_iff.2 ⟨hb, hf⟩)).trans (runCommand_of_ok hd)
  · exact (step_engine (engineMoves_iff.2 ⟨hb, hf⟩)).trans (runCommand_of_error hd)
  · intro s early rest before s' polled
    refine ⟨fun _ _ _ => ⟨rfl, rfl⟩, fun _ _ => ⟨rfl, rfl⟩, fun _ _ => ⟨rfl, rfl⟩, fun _ => ⟨rfl, rfl⟩, ⟨rfl, rfl⟩,
      fun polls => ⟨?_, ?_, ?_⟩, ?_, ?_, rfl⟩
    · exact hostTurn_wait_idle (s := before (.wait polls)) rfl rfl
    · exact hostTurn_wait_busy (s := before (.wait polls)) rfl rfl
    · exact hostMovesFirst_wait_iff (s := before (.wait polls)) rfl rfl
    · exact hostTurn_waitIrq_raised (s := before .waitIrq) rfl rfl
    · exact hostTurn_waitIrq_low (s := before .waitIrq) rfl rfl

/-- Settles O4: the CMD write issues the word, the engine moves next, and the word decodes to no command. -/
theorem illegalWordStops : Obligations.IllegalWordStops := by
  intro s w hi hf hw
  obtain ⟨e, he⟩ := decode_eq_error_iff.2 hw
  have hissue : s.hostWrite 0x00C 32 w = s.issue w := hostWrite_offset_idle hi .cmd w
  have hmoves : engineMoves (s.issue w) = true :=
    engineMoves_iff.2 ⟨rfl, (hostMovesFirst_congr (State.issue_inputs s w)).trans hf⟩
  rw [hissue, step_engine hmoves, runCommand_of_error (s := s.issue w) he]
  rfl

end Sys2Proof.Machine
end

section
/-! PROOF. The frame of every command (O8): what may change in which command (R310), one rule per operation of the
commands, chained along each command on success and on error. -/

namespace Sys2Proof.Machine

/-! ## The frame -/

/-- R310: what no command changes: the host's registers, MEM_SIZE, and the host's actions and records. -/
def State.hostSide (s : State) :=
  (s.irqEn, s.cmd, s.codeWidth, s.srcAddr, s.srcLen, s.dstAddr, s.dstCap, s.metaAddr, s.metaLen, s.codeSel, s.memTop,
    s.inputs, s.recorded)

/-- R310: the commands that write FREQ and NSYM. -/
def freqWriters : List Instr := [.hufFreq, .hufMetaParse, .hufCompress, .hufDecompress]

/-- R310, R155: the commands that write TREE. -/
def treeWriters : List Instr := [.hufFreq, .hufBuild, .hufMetaParse, .hufCompress, .hufDecompress]

/-- R310, R155: the commands that write CODE. -/
def codeWriters : List Instr := [.hufFreq, .hufBuild, .hufCodegen, .hufMetaParse, .hufCompress, .hufDecompress]

/-- R310: the commands that write DST_LEN and DST_BITS. -/
def dstWriters : List Instr := [.hufEncode, .hufDecode, .hufCompress, .hufDecompress, .lzwEncode, .lzwDecode]

/-- R310: the commands that write META_OUT_LEN. -/
def metaOutWriters : List Instr := [.hufMetaEmit, .hufCompress]

/-- R310: the commands that write HBITS. -/
def hbitsWriters : List Instr := [.hufEncode, .hufMetaParse, .hufCompress, .hufDecompress]

/-- R310: the commands that write DICT_SIZE. -/
def dictSizeWriters : List Instr := [.lzwEncode, .lzwDecode]

/-- R310, R206: from `s` to `t` nothing changed that command `i` leaves alone. A part that an operation does not touch
is kept by `rfl`. -/
structure CommandKeeps (i : Instr) (s t : State) : Prop where
  hostSide : t.hostSide = s.hostSide := by rfl
  freq : i ∉ freqWriters → (t.freq, t.nsym) = (s.freq, s.nsym) := by exact fun _ => rfl
  tree : i ∉ treeWriters → (t.tree, t.treeValid) = (s.tree, s.treeValid) := by exact fun _ => rfl
  code : i ∉ codeWriters → (t.code, t.codeValid) = (s.code, s.codeValid) := by exact fun _ => rfl
  dst : i ∉ dstWriters → (t.dstLen, t.dstBits) = (s.dstLen, s.dstBits) := by exact fun _ => rfl
  metaOut : i ∉ metaOutWriters → t.metaOutLen = s.metaOutLen := by exact fun _ => rfl
  hbits : i ∉ hbitsWriters → t.hbits = s.hbits := by exact fun _ => rfl
  dictSize : i ∉ dictSizeWriters → t.dictSize = s.dictSize := by exact fun _ => rfl
  dictOvf : i ≠ .lzwEncode → t.dictOvf = s.dictOvf := by exact fun _ => rfl
  mem : ∀ a, ¬ inWriteRegion i s a → t.mem.read a = s.mem.read a := by exact fun _ _ => rfl

/-- R310: a command's regions are made of the host's registers. -/
theorem regions_congr (i : Instr) {s t : State} (h : t.hostSide = s.hostSide) : regions i t = regions i s := by
  simp only [State.hostSide, Prod.mk.injEq] at h
  obtain ⟨-, -, -, hsrcAddr, hsrcLen, hdstAddr, hdstCap, hmetaAddr, hmetaLen, -⟩ := h
  cases i <;> simp only [regions, srcRegion, srcBitsRegion, dstRegion, metaRegion, hsrcAddr, hsrcLen, hdstAddr, hdstCap,
    hmetaAddr, hmetaLen]

namespace CommandKeeps

variable {i : Instr} {s t u : State}

theorem trans (h : CommandKeeps i s t) (h' : CommandKeeps i t u) : CommandKeeps i s u where
  hostSide := h'.hostSide.trans h.hostSide
  freq hi := (h'.freq hi).trans (h.freq hi)
  tree hi := (h'.tree hi).trans (h.tree hi)
  code hi := (h'.code hi).trans (h.code hi)
  dst hi := (h'.dst hi).trans (h.dst hi)
  metaOut hi := (h'.metaOut hi).trans (h.metaOut hi)
  hbits hi := (h'.hbits hi).trans (h.hbits hi)
  dictSize hi := (h'.dictSize hi).trans (h.dictSize hi)
  dictOvf hi := (h'.dictOvf hi).trans (h.dictOvf hi)
  mem a ha := (h'.mem a (by rwa [inWriteRegion, regions_congr i h.hostSide])).trans (h.mem a ha)

/-! ## The ends of a command (R610, R611) -/

theorem complete : CommandKeeps i s s.complete := {}

theorem raiseError (e : ErrCode) : CommandKeeps i s (s.raiseError e) := {}

/-! ## Result registers -/

theorem setDst (hi : i ∈ dstWriters) (len bits : Nat) : CommandKeeps i s (s.setDst len bits) := { dst := absurd hi }

theorem setMetaOut (hi : i ∈ metaOutWriters) (n : Nat) : CommandKeeps i s (s.setMetaOut n) := { metaOut := absurd hi }

theorem setHbits (hi : i ∈ hbitsWriters) (n : Nat) : CommandKeeps i s (s.setHbits n) := { hbits := absurd hi }

theorem setDictSize (hi : i ∈ dictSizeWriters) (n : Nat) : CommandKeeps i s (s.setDictSize n) :=
  { dictSize := absurd hi }

theorem noteOverflow (ovf : Bool) : CommandKeeps .lzwEncode s (s.noteOverflow ovf) := { dictOvf := absurd rfl }

/-! ## The Huffman tables -/

theorem treeWriters_subset_codeWriters : treeWriters ⊆ codeWriters := by decide

theorem freqWriters_subset_treeWriters : freqWriters ⊆ treeWriters := by decide

/-- R155: who writes FREQ invalidates TREE and CODE. -/
theorem setFreq (hi : i ∈ freqWriters) (f : Table Word) : CommandKeeps i s (s.setFreq f) where
  freq := absurd hi
  tree := absurd (freqWriters_subset_treeWriters hi)
  code := absurd (treeWriters_subset_codeWriters (freqWriters_subset_treeWriters hi))

/-- R412: who builds TREE clears CODE. -/
theorem buildStage (hi : i ∈ treeWriters) : CommandKeeps i s (buildStage s) where
  tree := absurd hi
  code := absurd (treeWriters_subset_codeWriters hi)

theorem codegenStage (hi : i ∈ codeWriters) : CommandKeeps i s (codegenStage s) := { code := absurd hi }

theorem installBlob (hf : i ∈ freqWriters) (hh : i ∈ hbitsWriters) (f : Table Word) (len : Nat) :
    CommandKeeps i s (installBlob f len s) := (setFreq hf f).trans (setHbits hh len)

/-! ## Data memory -/

/-- R206: a byte string stored inside a write region. -/
theorem store {r : Region} {bs : List Byte} (hr : r ∈ regions i s) (hw : r.isWrite = true) (hlen : bs.length ≤ r.len)
    {a : Word} (ha : a.toNat = r.addr) : CommandKeeps i s (s.store a bs) where
  mem b hb := by
    have hout : ¬ (r.addr ≤ b ∧ b < r.addr + r.len) := fun hin => hb ⟨r, hr, hw, hin⟩
    exact Memory.read_writeBytes_outside _ _ _ _ (by omega)

theorem store_dst {bs : List Byte} (hr : dstRegion s ∈ regions i s) (hlen : bs.length ≤ s.dstCap.toNat) :
    CommandKeeps i s (s.store s.dstAddr bs) := store hr rfl hlen rfl

theorem store_meta {bs : List Byte} (hr : metaRegion s true ∈ regions i s) (hlen : bs.length ≤ s.metaLen.toNat) :
    CommandKeeps i s (s.store s.metaAddr bs) := store hr rfl hlen rfl

/-- R210: a packed stream that fits DST, stored there. -/
theorem store_packBits {bits : Bits} (hr : dstRegion s ∈ regions i s)
    (hfits : streamTooLong bits.length s.dstCap.toNat = false) :
    CommandKeeps i s (s.store s.dstAddr (packBits bits)) :=
  store_dst hr ((packBits_length bits).trans_le (streamTooLong_eq_false.1 hfits).2)

/-- R452: such a stream with its length in HBITS. -/
theorem storeStream {bits : Bits} (hi : i ∈ hbitsWriters) (hr : dstRegion s ∈ regions i s)
    (hfits : streamTooLong bits.length s.dstCap.toNat = false) : CommandKeeps i s (storeStream bits s) :=
  (store_packBits hr hfits).trans (setHbits hi _)

/-- R613 (a): unspecified bytes in write regions. -/
theorem scrambleRegions {rs : List Region} (h : ∀ r ∈ rs, r ∈ regions i s ∧ r.isWrite = true) :
    CommandKeeps i s (scrambleRegions rs s) := by
  have hmem : ∀ a, ¬ inWriteRegion i s a → (Machine.scrambleRegions rs s).mem.read a = s.mem.read a := fun a ha =>
    scrambleRegions_read rs s a fun r hr hin => ha ⟨r, (h r hr).1, (h r hr).2, hin⟩
  obtain ⟨m, n, heq⟩ := scrambleRegions_eq rs s
  rw [heq] at hmem ⊢
  exact { mem := hmem }

/-! ## Errors after the pre-checks (R613) -/

theorem clearResults (i : Instr) (s : State) : CommandKeeps i s (clearResults i s) := by
  cases i with
  | hufEncode | hufDecode | hufDecompress => exact setDst (by decide) 0 0
  | hufCompress => exact (setDst (by decide) 0 0).trans (setMetaOut (by decide) 0)
  | hufMetaEmit => exact setMetaOut (by decide) 0
  | lzwEncode | lzwDecode => exact (setDst (by decide) 0 0).trans (setDictSize (by decide) 0)
  | hufFreq | hufBuild | hufCodegen | hufMetaParse => exact {}

theorem failCommand (e : ErrCode) : CommandKeeps i s (failCommand i e s) := by
  have hclear := clearResults i s
  refine hclear.trans ((scrambleRegions fun r hr => ?_).trans (raiseError e))
  rw [regions_congr i hclear.hostSide]
  exact mem_writeRegions.1 hr

/-! ## The Huffman commands -/

theorem hufFreqBody : CommandKeeps .hufFreq s (hufFreqBody s) := (setFreq (by decide) _).trans complete

theorem hufBuildBody : CommandKeeps .hufBuild s (hufBuildBody s) := (buildStage (by decide)).trans complete

theorem hufCodegenBody : CommandKeeps .hufCodegen s (hufCodegenBody s) := (codegenStage (by decide)).trans complete

theorem hufEncodeBody : CommandKeeps .hufEncode s (hufEncodeBody s) := by
  unfold Machine.hufEncodeBody
  split
  · exact failCommand _
  · next hbits =>
    have hfits := encodeLoop_ok_fits _ [] (streamTooLong_zero _) hbits
    exact (storeStream (by decide) (by simp [regions]) hfits).trans <| (setDst (by decide) _ _).trans complete

theorem decodeStage (n : Nat) (hi : i ∈ dstWriters) (hr : dstRegion s ∈ regions i s) :
    CommandKeeps i s (decodeStage i n s) := by
  unfold Machine.decodeStage
  split
  · exact failCommand _
  · next hout =>
    have hlen := decodeLoop_length _ _ _ _ (Nat.zero_le _) hout
    exact (store_dst hr hlen).trans <| (setDst hi _ _).trans complete

theorem hufMetaEmitBody : CommandKeeps .hufMetaEmit s (hufMetaEmitBody s) := by
  simp only [Machine.hufMetaEmitBody]
  split
  · exact failCommand _
  · next hlen =>
    exact (store_meta (by simp [regions]) (Nat.le_of_not_gt hlen)).trans <|
      (setMetaOut (by decide) _).trans complete

theorem hufMetaParseBody : CommandKeeps .hufMetaParse s (hufMetaParseBody s) := by
  unfold Machine.hufMetaParseBody
  split
  · exact (installBlob (by decide) (by decide) _ _).trans (failCommand _)
  · exact (installBlob (by decide) (by decide) _ _).trans complete

theorem compressBlobStage (n : Nat) : CommandKeeps .hufCompress s (compressBlobStage n s) := by
  simp only [Machine.compressBlobStage]
  split
  · exact failCommand _
  · next hlen =>
    exact (store_meta (by simp [regions]) (Nat.le_of_not_gt hlen)).trans <| (setDst (by decide) _ _).trans <|
      (setMetaOut (by decide) _).trans complete

theorem compressStreamStage (bytes : List Byte) : CommandKeeps .hufCompress s (compressStreamStage bytes s) := by
  unfold Machine.compressStreamStage
  split
  · exact failCommand _
  · split
    · exact failCommand _
    · next hfits =>
      exact (storeStream (by decide) (by simp [regions]) (Bool.not_eq_true _ ▸ hfits)).trans (compressBlobStage _)

theorem hufCompressBody : CommandKeeps .hufCompress s (hufCompressBody s) :=
  (setFreq (by decide) _).trans <| (buildStage (by decide)).trans <| (codegenStage (by decide)).trans <|
    compressStreamStage _

theorem decompressStage (len : Nat) : CommandKeeps .hufDecompress s (decompressStage len s) := by
  unfold Machine.decompressStage
  split
  · exact failCommand _
  · exact (buildStage (by decide)).trans <| (codegenStage (by decide)).trans <|
      decodeStage len (by decide) (by simp [regions])

theorem hufDecompressBody : CommandKeeps .hufDecompress s (hufDecompressBody s) := by
  unfold Machine.hufDecompressBody
  split
  · exact (installBlob (by decide) (by decide) _ _).trans (failCommand _)
  · exact (installBlob (by decide) (by decide) _ _).trans (decompressStage _)

/-! ## The LZW commands -/

theorem lzwEncodeBody (hw : Config.codeWidthMin ≤ s.codeWidth.toNat) :
    CommandKeeps .lzwEncode s (lzwEncodeBody s) := by
  simp only [Machine.lzwEncodeBody]
  obtain ⟨bits, d, hrun, -, hfits⟩ | hrun := lzwEncodeLoop_cases (cap := s.dstCap.toNat) (srcBytes s) seedDict [] []
    false (dictSizeLegal_seed hw) (streamTooLong_zero _)
  · rw [hrun]
    exact (noteOverflow _).trans <| (store_packBits (s := s.noteOverflow _) (by simp [regions]) hfits).trans <|
      (setDst (by decide) _ _).trans <| (setDictSize (by decide) _).trans complete
  · rw [hrun]
    exact (noteOverflow _).trans (failCommand _)

theorem lzwDecodeBody (hw : Config.codeWidthMin ≤ s.codeWidth.toNat) :
    CommandKeeps .lzwDecode s (lzwDecodeBody s) := by
  have hends := lzwDecodeBits_ends s.dstCap.toNat (s.mem.readBits s.srcAddr.toNat s.srcLen.toNat) hw
  unfold Machine.lzwDecodeBody
  split
  · exact failCommand _
  · next out d hok =>
    rw [hok] at hends
    exact (store_dst (by simp [regions]) hends.1).trans <| (setDst (by decide) _ _).trans <|
      (setDictSize (by decide) _).trans complete

/-! ## Every command -/

/-- R605: a pre-check error keeps more than the frame, so the command's own rule decides. -/
theorem runChecked {body : State → State} (h : precheck i s = none → CommandKeeps i s (body s)) :
    CommandKeeps i s (runChecked i body s) := by
  obtain ⟨e, -, heq⟩ | ⟨hnone, heq⟩ := runChecked_cases i body s <;> rw [heq]
  · exact raiseError e
  · exact h hnone

/-- R310, R206: the frame, by the command's own rule. -/
theorem exec (h : Machine.exec i s = .next t) : CommandKeeps i s t := by
  cases i <;> cases h <;> refine runChecked fun hp => ?_
  case hufFreq => exact hufFreqBody
  case hufBuild => exact hufBuildBody
  case hufCodegen => exact hufCodegenBody
  case hufEncode => exact hufEncodeBody
  case hufDecode => exact decodeStage _ (by decide) (by simp [regions])
  case hufMetaEmit => exact hufMetaEmitBody
  case hufMetaParse => exact hufMetaParseBody
  case hufCompress => exact hufCompressBody
  case hufDecompress => exact hufDecompressBody
  case lzwEncode => exact lzwEncodeBody (codeWidth_of_precheck (.inl rfl) hp).1
  case lzwDecode => exact lzwDecodeBody (codeWidth_of_precheck (.inr rfl) hp).1

end CommandKeeps

/-- Settles O8: every operation of every command keeps the command's frame, and frames chain. -/
theorem commandFrame : Obligations.CommandFrame := by
  intro i s t h
  have hkeeps := CommandKeeps.exec h
  exact ⟨by simpa only [State.hostSide, Prod.mk.injEq] using hkeeps.hostSide, fun hi => Prod.mk.inj (hkeeps.freq hi),
    fun hi => Prod.mk.inj (hkeeps.tree hi), fun hi => Prod.mk.inj (hkeeps.code hi),
    fun hi => Prod.mk.inj (hkeeps.dst hi), hkeeps.metaOut, hkeeps.hbits, hkeeps.dictSize, hkeeps.dictOvf, hkeeps.mem⟩

end Sys2Proof.Machine
end

section
/-! PROOF. The shape of the Huffman tree (R408) and the order of its merges (R405): what every round of the builder's loop
keeps. O30 and O32 are assembled from them. -/

namespace Sys2Proof.Machine

/-! ## The least live node (R405) -/

/-- R405: the pair that orders the nodes, lexicographically. -/
def Node.rank (p : Node) : ℕ ×ₗ ℕ := toLex (p.freq.toNat, p.key.toNat)

/-- R405: no two nodes of an arena have the same key. -/
def KeysDistinct (nodes : List Node) : Prop := (nodes.map Node.key).Nodup

theorem Node.rank_lt_iff {p q : Node} : p.rank < q.rank ↔
    p.freq.toNat < q.freq.toNat ∨ (p.freq.toNat = q.freq.toNat ∧ p.key.toNat < q.key.toNat) :=
  Prod.Lex.toLex_lt_toLex

theorem Node.key_eq_of_rank_eq {p q : Node} (h : p.rank = q.rank) : p.key = q.key :=
  BitVec.eq_of_toNat_eq (Prod.mk.inj (toLex_inj.1 h)).2

theorem KeysDistinct.index_eq {nodes : List Node} (h : KeysDistinct nodes) {i j : Nat} {p q : Node}
    (hi : nodes[i]? = some p) (hj : nodes[j]? = some q) (hkey : p.key = q.key) : i = j := by
  have hlt : i < (nodes.map Node.key).length := by simpa using (List.getElem?_eq_some_iff.1 hi).1
  exact (List.getElem?_inj hlt h).1 (by simp [hi, hj, hkey])

theorem indexBefore_iff {nodes : List Node} {i j : Nat} {p q : Node} (hi : nodes[i]? = some p)
    (hj : nodes[j]? = some q) : indexBefore nodes i j = true ↔ p.rank < q.rank := by
  simp [indexBefore, hi, hj, nodeBefore, Node.rank_lt_iff]

/-- No live node comes before the least one. -/
theorem leastLive_rank_le {nodes : List Node} {live : List Nat} (harena : ∀ c ∈ live, c < nodes.length) {i j : Nat}
    {p q : Node} (h : leastLive nodes live = some i) (hi : nodes[i]? = some p) (hj : j ∈ live)
    (hq : nodes[j]? = some q) : p.rank ≤ q.rank := by
  induction live generalizing i p with
  | nil => cases h
  | cons c rest ih =>
    have hself : ∀ {p' : Node}, nodes[j]? = some p' → p'.rank = q.rank := fun hp' => by
      rw [Option.some.inj (hp'.symm.trans hq)]
    unfold leastLive at h
    split at h
    · next hnone =>
      obtain rfl : c = i := by simpa using h
      obtain rfl : j = c := by simpa [leastLive_eq_none hnone] using hj
      exact (hself hi).le
    · next m hm =>
      obtain ⟨pm, hpm⟩ : ∃ pm, nodes[m]? = some pm :=
        ⟨_, List.getElem?_eq_getElem (harena m (List.mem_cons_of_mem c (leastLive_mem hm)))⟩
      have hrest (hjr : j ∈ rest) : pm.rank ≤ q.rank :=
        ih (fun c' hc' => harena c' (List.mem_cons_of_mem c hc')) hm hpm hjr
      split at h <;> cases h
      · next hbefore =>
        obtain rfl := Option.some.inj (hpm.symm.trans hi)
        obtain rfl | hjr := List.mem_cons.1 hj
        · exact ((indexBefore_iff hi hq).1 hbefore).le
        · exact hrest hjr
      · next hbefore =>
        obtain rfl | hjr := List.mem_cons.1 hj
        · exact (hself hi).le
        · exact (not_lt.1 (mt (indexBefore_iff hpm hi).2 hbefore)).trans (hrest hjr)

/-- The node taken comes before every node left. -/
theorem takeLeast_rank_lt {nodes : List Node} {live rest : List Nat} (harena : ∀ c ∈ live, c < nodes.length)
    (hkeys : KeysDistinct nodes) (hnodup : live.Nodup) {i j : Nat} {p q : Node}
    (h : takeLeast nodes live = some (i, rest)) (hi : nodes[i]? = some p) (hj : j ∈ rest) (hq : nodes[j]? = some q) :
    p.rank < q.rank := by
  have hperm := takeLeast_perm h
  have hne : i ≠ j := fun he => (List.nodup_cons.1 (hperm.nodup_iff.1 hnodup)).1 (he ▸ hj)
  unfold takeLeast at h
  split at h
  · cases h
  · next m hm =>
    cases h
    have hle := leastLive_rank_le harena hm hi (hperm.mem_iff.2 (List.mem_cons_of_mem i hj)) hq
    exact lt_of_le_of_ne hle fun he => hne (hkeys.index_eq hi hq (Node.key_eq_of_rank_eq he))

/-! ## One more internal node (R406) -/

section
variable {nodes : List Node} {a b k : Nat}

/-- The internal nodes of an arena with one more. -/
theorem getElem?_merge_internal {i : Nat} {q : BitVec 40} {l r : Nat} {key : BitVec 9} :
    (nodes ++ [mergedNode nodes a b k])[i]? = some (.internal q l r key) ↔
      nodes[i]? = some (.internal q l r key) ∨
        i = nodes.length ∧ mergedNode nodes a b k = .internal q l r key := by
  rcases lt_trichotomy i nodes.length with hi | rfl | hi
  · rw [List.getElem?_append_left hi]
    exact ⟨.inl, fun h => h.resolve_right fun h => hi.ne h.1⟩
  · simp
  · rw [List.getElem?_eq_none (by simpa using hi), List.getElem?_eq_none hi.le]
    exact ⟨nofun, fun h => absurd (h.resolve_left nofun).1 hi.ne'⟩

/-- The children of an arena with one more internal node. -/
theorem isChildOf_merge_iff {c p : Nat} :
    isChildOf (nodes ++ [mergedNode nodes a b k]) c p ↔
      isChildOf nodes c p ∨ p = nodes.length ∧ (c = a ∨ c = b) := by
  simp only [isChildOf, getElem?_merge_internal]
  constructor
  · rintro ⟨q, l, r, key, hp | ⟨hp, hnew⟩, hc⟩
    · exact .inl ⟨q, l, r, key, hp, hc⟩
    · obtain ⟨-, rfl, rfl, -⟩ := Node.internal.inj hnew
      exact .inr ⟨hp, hc⟩
  · rintro (⟨q, l, r, key, hp, hc⟩ | ⟨hp, hc⟩)
    · exact ⟨q, l, r, key, .inl hp, hc⟩
    · exact ⟨_, a, b, _, .inr ⟨hp, rfl⟩, hc⟩

end

/-- Either edge of an internal node leads to a child. -/
theorem isChildOf_edge {nodes : List Node} {p : Nat} {q : BitVec 40} {l r : Nat} {key : BitVec 9}
    (hp : nodes[p]? = some (.internal q l r key)) (e : Bool) : isChildOf nodes (if e then r else l) p := by
  cases e
  · exact ⟨q, l, r, key, hp, .inl rfl⟩
  · exact ⟨q, l, r, key, hp, .inr rfl⟩

theorem isChildOf_lt_length {nodes : List Node} {c p : Nat} (h : isChildOf nodes c p) : p < nodes.length := by
  obtain ⟨q, l, r, key, hp, -⟩ := h
  exact (List.getElem?_eq_some_iff.1 hp).1

/-! ## The shape (R407, R408) -/

theorem leavesOf_length (f : Table Word) : (leavesOf f).length = (presentSymbols f).length := by
  simp [leavesOf_eq_map]

theorem presentSymbols_length_le (f : Table Word) : (presentSymbols f).length ≤ 256 :=
  (presentSymbols_length f).trans_le (presentCount_le f)

/-- R408: what every round keeps of the arena's shape, after `k` rounds: the leaves come first, then `k` internal nodes
with two distinct children made before each, the live nodes are those without a parent, and no node has two. -/
structure MergeShape (f : Table Word) (k : Nat) (nodes : List Node) (live : List Nat) : Prop where
  size : nodes.length = (presentSymbols f).length + k
  rounds : live.length + k = (presentSymbols f).length
  leavesFirst : leavesOf f <+: nodes
  internals : ∀ i, (presentSymbols f).length ≤ i → i < nodes.length → ∃ q l r key,
    nodes[i]? = some (Node.internal q l r key) ∧ l < i ∧ r < i ∧ l ≠ r ∧
      key.toNat = 256 + (i - (presentSymbols f).length)
  liveNodup : live.Nodup
  mem_live : ∀ c, c ∈ live ↔ c < nodes.length ∧ ∀ p, ¬ isChildOf nodes c p
  oneParent : ∀ c p p', isChildOf nodes c p → isChildOf nodes c p' → p = p'

theorem leavesOf_not_internal (f : Table Word) (i : Nat) (q : BitVec 40) (l r : Nat) (key : BitVec 9) :
    (leavesOf f)[i]? ≠ some (.internal q l r key) := by simp [leavesOf_eq_map]

theorem leavesOf_no_children (f : Table Word) (c p : Nat) : ¬ isChildOf (leavesOf f) c p := by
  rintro ⟨q, l, r, key, hp, -⟩
  exact leavesOf_not_internal f p q l r key hp

theorem mergeShape_leaves (f : Table Word) : MergeShape f 0 (leavesOf f) (List.range (leavesOf f).length) where
  size := leavesOf_length f
  rounds := by rw [List.length_range, leavesOf_length, Nat.add_zero]
  leavesFirst := List.prefix_rfl
  internals i hn hi := absurd hi (by rw [leavesOf_length]; omega)
  liveNodup := List.nodup_range
  mem_live c := by simp [leavesOf_no_children]
  oneParent c p p' h := absurd h (leavesOf_no_children f c p)

theorem takeLeast_twice_perm {nodes : List Node} {live live₁ live₂ : List Nat} {a b : Nat}
    (ha : takeLeast nodes live = some (a, live₁)) (hb : takeLeast nodes live₁ = some (b, live₂)) :
    live.Perm (a :: b :: live₂) := (takeLeast_perm ha).trans ((takeLeast_perm hb).cons a)

namespace MergeShape

variable {f : Table Word} {k : Nat} {nodes : List Node} {live : List Nat}

/-- The leaves stand at the first indices, in the order of their symbols. -/
theorem leaf_of_symbol (h : MergeShape f k nodes live) {i : Nat} {x : Byte} (hx : (presentSymbols f)[i]? = some x) :
    ∃ q key, nodes[i]? = some (.leaf x q key) :=
  ⟨_, _, getElem?_of_prefix h.leavesFirst (by rw [leavesOf_eq_map, List.getElem?_map, hx]; rfl)⟩

/-- An internal node stands behind the leaves, its children before it. -/
theorem internal_spec (h : MergeShape f k nodes live) {i : Nat} {q : BitVec 40} {l r : Nat} {key : BitVec 9}
    (hi : nodes[i]? = some (.internal q l r key)) :
    (presentSymbols f).length ≤ i ∧ l < i ∧ r < i ∧ l ≠ r := by
  have hn : (presentSymbols f).length ≤ i := by
    by_contra hlt
    obtain ⟨q', key', hleaf⟩ := h.leaf_of_symbol (List.getElem?_eq_getElem (not_le.1 hlt))
    simp [hi] at hleaf
  obtain ⟨q', l', r', key', hi', hl, hr, hne, -⟩ := h.internals i hn (List.getElem?_eq_some_iff.1 hi).1
  obtain ⟨-, rfl, rfl, -⟩ := Node.internal.inj (Option.some.inj (hi.symm.trans hi'))
  exact ⟨hn, hl, hr, hne⟩

/-- A leaf is one of the first nodes, for the symbol at its index. -/
theorem symbol_of_leaf (h : MergeShape f k nodes live) {i : Nat} {x : Byte} {q : BitVec 40} {key : BitVec 9}
    (hi : nodes[i]? = some (.leaf x q key)) : (presentSymbols f)[i]? = some x := by
  have hlt : i < (presentSymbols f).length := by
    by_contra hn
    obtain ⟨q', l, r, key', hi', -⟩ := h.internals i (not_lt.1 hn) (List.getElem?_eq_some_iff.1 hi).1
    simp [hi] at hi'
  obtain ⟨q', key', hi'⟩ := h.leaf_of_symbol (List.getElem?_eq_getElem hlt)
  obtain ⟨rfl, -⟩ := Node.leaf.inj (Option.some.inj (hi.symm.trans hi'))
  exact List.getElem?_eq_getElem hlt

/-- A child is made before its parent. -/
theorem child_lt (h : MergeShape f k nodes live) {c p : Nat} (hc : isChildOf nodes c p) : c < p := by
  obtain ⟨q, l, r, key, hp, hc⟩ := hc
  obtain ⟨-, hl, hr, -⟩ := h.internal_spec hp
  obtain rfl | rfl := hc <;> assumption

theorem live_lt (h : MergeShape f k nodes live) : ∀ c ∈ live, c < nodes.length := fun c hc => ((h.mem_live c).1 hc).1

section
variable {a b : Nat} {live₂ : List Nat}

/-- The two nodes taken are in the arena, differ, and are live no more. -/
theorem taken (h : MergeShape f k nodes live) (hperm : live.Perm (a :: b :: live₂)) :
    (a < nodes.length ∧ b < nodes.length) ∧ (a ≠ b ∧ a ∉ live₂) ∧ b ∉ live₂ ∧ live₂.Nodup :=
  ⟨⟨h.live_lt a (hperm.mem_iff.2 (by simp)), h.live_lt b (hperm.mem_iff.2 (by simp))⟩,
    by simpa using hperm.nodup_iff.1 h.liveNodup⟩

/-- After a round the live nodes are still those without a parent. -/
theorem mem_live_round (h : MergeShape f k nodes live) (hperm : live.Perm (a :: b :: live₂)) (c : Nat) :
    c ∈ live₂ ++ [nodes.length] ↔ c < (nodes ++ [mergedNode nodes a b k]).length ∧
      ∀ p, ¬ isChildOf (nodes ++ [mergedNode nodes a b k]) c p := by
  obtain ⟨⟨ha, hb⟩, ⟨-, ha₂⟩, hb₂, -⟩ := h.taken hperm
  simp only [List.mem_append, List.mem_singleton, List.length_append, List.length_singleton, isChildOf_merge_iff]
  constructor
  · rintro (hc | rfl)
    · obtain ⟨hlt, hno⟩ := (h.mem_live c).1 (hperm.mem_iff.2 (by simp [hc]))
      refine ⟨by omega, fun p => ?_⟩
      rintro (hold | ⟨-, rfl | rfl⟩)
      exacts [hno p hold, ha₂ hc, hb₂ hc]
    · refine ⟨by omega, fun p => ?_⟩
      rintro (hold | ⟨-, rfl | rfl⟩)
      exacts [((h.child_lt hold).trans (isChildOf_lt_length hold)).ne rfl, ha.ne rfl, hb.ne rfl]
  · rintro ⟨hlt, hno⟩
    rcases Nat.lt_succ_iff_lt_or_eq.1 hlt with hlt | rfl
    · have hlive := hperm.mem_iff.1 ((h.mem_live c).2 ⟨hlt, fun p hp => hno p (.inl hp)⟩)
      have hnot : ¬ (c = a ∨ c = b) := fun hc => hno nodes.length (.inr ⟨rfl, hc⟩)
      simp only [List.mem_cons, ← or_assoc] at hlive
      exact .inl (hlive.resolve_left hnot)
    · exact .inr rfl

/-- After a round no node has two parents: the two nodes taken had none. -/
theorem oneParent_round (h : MergeShape f k nodes live) (hperm : live.Perm (a :: b :: live₂)) (c p p' : Nat)
    (hp : isChildOf (nodes ++ [mergedNode nodes a b k]) c p)
    (hp' : isChildOf (nodes ++ [mergedNode nodes a b k]) c p') : p = p' := by
  have horphan : ∀ c p, c = a ∨ c = b → ¬ isChildOf nodes c p := fun c p hc =>
    ((h.mem_live c).1 (hperm.mem_iff.2 (by obtain rfl | rfl := hc <;> simp))).2 p
  rw [isChildOf_merge_iff] at hp hp'
  rcases hp with hp | ⟨rfl, hc⟩ <;> rcases hp' with hp' | ⟨rfl, hc'⟩
  · exact h.oneParent c p p' hp hp'
  · exact absurd hp (horphan c p hc')
  · exact absurd hp' (horphan c p' hc)
  · rfl

theorem round (h : MergeShape f k nodes live) (hperm : live.Perm (a :: b :: live₂)) :
    MergeShape f (k + 1) (nodes ++ [mergedNode nodes a b k]) (live₂ ++ [nodes.length]) := by
  have hlength := hperm.length_eq
  have hrounds := h.rounds
  have hn := presentSymbols_length_le f
  obtain ⟨⟨ha, hb⟩, ⟨hab, -⟩, -, hnodup₂⟩ := h.taken hperm
  have hnew : nodes.length ∉ live₂ := fun hin => (h.live_lt _ (hperm.mem_iff.2 (by simp [hin]))).ne rfl
  simp only [List.length_cons] at hlength
  refine ⟨?_, ?_, h.leavesFirst.trans (List.prefix_append _ _), fun i hi hlt => ?_, ?_, h.mem_live_round hperm,
    h.oneParent_round hperm⟩
  · rw [List.length_append, List.length_singleton, h.size, Nat.add_assoc]
  · rw [List.length_append, List.length_singleton]
    omega
  · simp only [getElem?_merge_internal]
    rcases Nat.lt_succ_iff_lt_or_eq.1 (by simpa using hlt) with hlt | rfl
    · obtain ⟨q, l, r, key, hold, hrest⟩ := h.internals i hi hlt
      exact ⟨q, l, r, key, .inl hold, hrest⟩
    · refine ⟨_, a, b, _, .inr ⟨rfl, rfl⟩, ha, hb, hab, ?_⟩
      rw [BitVec.toNat_ofNat, h.size]
      omega
  · exact (List.perm_append_singleton _ _).nodup_iff.2 (List.nodup_cons.2 ⟨hnew, hnodup₂⟩)

end

end MergeShape

/-! ## The order of the merges (R405, R406) -/

/-- R405, R406: `l` comes before `r`, and `r` before every other node that exists before `m` and is no child by then. -/
def LeastPair (nodes : List Node) (m l r : Nat) : Prop :=
  ∃ left right, nodes[l]? = some left ∧ nodes[r]? = some right ∧ left.rank < right.rank ∧
    ∀ j other, j < m → j ≠ l → j ≠ r → (∀ p, p < m → ¬ isChildOf nodes j p) → nodes[j]? = some other →
      right.rank < other.rank

/-- What every round keeps of the order, after `k` rounds: the keys are distinct and below the next one, and every merge
took the two least nodes. -/
structure MergeOrder (k : Nat) (nodes : List Node) : Prop where
  keysBelow : ∀ p ∈ nodes, p.key.toNat < 256 + k
  keysDistinct : KeysDistinct nodes
  merges : ∀ m q l r key, nodes[m]? = some (.internal q l r key) → LeastPair nodes m l r

theorem mergeOrder_leaves (f : Table Word) : MergeOrder 0 (leavesOf f) := by
  have hkeys : (leavesOf f).map Node.key = (presentSymbols f).map fun x => x.setWidth 9 := by
    rw [leavesOf_eq_map, List.map_map]
    rfl
  have hkey : ∀ x : Byte, (x.setWidth 9).toNat = x.toNat := fun x => BitVec.toNat_setWidth_of_le (by decide)
  refine ⟨fun p hp => ?_, ?_, fun m q l r key hm => absurd hm (leavesOf_not_internal f m q l r key)⟩
  · obtain ⟨x, -, hx⟩ := List.mem_map.1 (hkeys ▸ List.mem_map_of_mem hp)
    rw [← hx, hkey]
    exact x.isLt
  · rw [KeysDistinct, hkeys]
    refine (presentSymbols_nodup f).map fun x y hxy => BitVec.eq_of_toNat_eq ?_
    rw [← hkey x, ← hkey y, hxy]

/-- A merge made before stays one of the two least nodes of its time. -/
theorem LeastPair.append {nodes : List Node} {a b k m l r : Nat} (h : LeastPair nodes m l r) (hm : m < nodes.length) :
    LeastPair (nodes ++ [mergedNode nodes a b k]) m l r := by
  have hprefix : nodes <+: nodes ++ [mergedNode nodes a b k] := List.prefix_append _ _
  obtain ⟨left, right, hl, hr, hlr, hleast⟩ := h
  refine ⟨left, right, getElem?_of_prefix hprefix hl, getElem?_of_prefix hprefix hr, hlr,
    fun j other hj hjl hjr hno hother => hleast j other hj hjl hjr (fun p hp hc => ?_) ?_⟩
  · exact hno p hp (isChildOf_merge_iff.2 (.inl hc))
  · rwa [List.getElem?_append_left (hj.trans hm)] at hother

section
variable {f : Table Word} {k a b : Nat} {nodes : List Node} {live live₁ live₂ : List Nat}

/-- R406: the two nodes a round takes are the two least without a parent. -/
theorem leastPair_merge (hs : MergeShape f k nodes live) (hkeys : KeysDistinct nodes)
    (ha : takeLeast nodes live = some (a, live₁)) (hb : takeLeast nodes live₁ = some (b, live₂)) :
    LeastPair (nodes ++ [mergedNode nodes a b k]) nodes.length a b := by
  have hprefix : nodes <+: nodes ++ [mergedNode nodes a b k] := List.prefix_append _ _
  have hperm₁ := takeLeast_perm ha
  have hperm₂ := takeLeast_perm hb
  have hnodup₁ : live₁.Nodup := (List.nodup_cons.1 (hperm₁.nodup_iff.1 hs.liveNodup)).2
  have harena₁ : ∀ c ∈ live₁, c < nodes.length := fun c hc =>
    hs.live_lt c (hperm₁.mem_iff.2 (List.mem_cons_of_mem a hc))
  have hb₁ : b ∈ live₁ := hperm₂.mem_iff.2 List.mem_cons_self
  have hleft := List.getElem?_eq_getElem (hs.live_lt a (hperm₁.mem_iff.2 List.mem_cons_self))
  have hright := List.getElem?_eq_getElem (harena₁ b hb₁)
  refine ⟨_, _, getElem?_of_prefix hprefix hleft, getElem?_of_prefix hprefix hright,
    takeLeast_rank_lt hs.live_lt hkeys hs.liveNodup ha hleft hb₁ hright, fun j other hj hja hjb hno hother => ?_⟩
  rw [List.getElem?_append_left hj] at hother
  have hlive : j ∈ live := (hs.mem_live j).2
    ⟨hj, fun p hc => hno p (isChildOf_lt_length hc) (isChildOf_merge_iff.2 (.inl hc))⟩
  have hj₁ := (List.mem_cons.1 (hperm₁.mem_iff.1 hlive)).resolve_left hja
  have hj₂ := (List.mem_cons.1 (hperm₂.mem_iff.1 hj₁)).resolve_left hjb
  exact takeLeast_rank_lt harena₁ hkeys hnodup₁ hb hright hj₂ hother

theorem MergeOrder.round (ho : MergeOrder k nodes) (hs : MergeShape f k nodes live)
    (ha : takeLeast nodes live = some (a, live₁)) (hb : takeLeast nodes live₁ = some (b, live₂)) :
    MergeOrder (k + 1) (nodes ++ [mergedNode nodes a b k]) := by
  have hrounds := hs.rounds
  have hn := presentSymbols_length_le f
  have hlength := (takeLeast_twice_perm ha hb).length_eq
  have hkey : (mergedNode nodes a b k).key.toNat = 256 + k := by
    rw [mergedNode, Node.key, BitVec.toNat_ofNat]
    simp only [List.length_cons] at hlength
    omega
  refine ⟨fun p hp => ?_, ?_, fun m q l r key hm => ?_⟩
  · obtain hp | rfl := by simpa using hp
    · have := ho.keysBelow p hp
      omega
    · omega
  · rw [KeysDistinct, List.map_append, List.map_singleton]
    refine ho.keysDistinct.append (List.nodup_singleton _) fun key hold hnew => ?_
    obtain ⟨p, hp, rfl⟩ := List.mem_map.1 hold
    have := ho.keysBelow p hp
    rw [List.mem_singleton.1 hnew] at this
    omega
  · obtain hold | ⟨rfl, hnew⟩ := getElem?_merge_internal.1 hm
    · exact (ho.merges m q l r key hold).append (List.getElem?_eq_some_iff.1 hold).1
    · obtain ⟨-, rfl, rfl, -⟩ := Node.internal.inj hnew
      exact leastPair_merge hs ho.keysDistinct ha hb

end

/-! ## The tree of a table -/

/-- What the builder's loop ends with. -/
theorem buildTree_merged (f : Table Word) : ∃ k live, (buildTree f).root = live.head? ∧ live.length ≤ 1 ∧
    MergeShape f k (buildTree f).nodes live ∧ MergeOrder k (buildTree f).nodes := by
  obtain ⟨k, h⟩ := mergeLoop_induction (P := fun k nodes live => MergeShape f k nodes live ∧ MergeOrder k nodes)
    (fun _ _ _ _ _ _ _ ha hb h => ⟨h.1.round (takeLeast_twice_perm ha hb), h.2.round h.1 ha hb⟩)
    (leavesOf f).length 0 _ _ ⟨mergeShape_leaves f, mergeOrder_leaves f⟩
  exact ⟨k, _, rfl, mergeLoop_live_length _ _ _ _ (by rw [List.length_range]), h⟩

/-- R408: with `n` present symbols, `n` not 0, the loop makes `n - 1` internal nodes, and the only node without a parent
is the last one. -/
theorem buildTree_shape {f : Table Word} (hn : 0 < (presentSymbols f).length) :
    (buildTree f).root = some (2 * (presentSymbols f).length - 2) ∧
      MergeShape f ((presentSymbols f).length - 1) (buildTree f).nodes [2 * (presentSymbols f).length - 2] := by
  obtain ⟨k, live, hroot, hlive, hs, -⟩ := buildTree_merged f
  have hsize := hs.size
  have hrounds := hs.rounds
  have hlast : (buildTree f).nodes.length - 1 ∈ live := (hs.mem_live _).2 ⟨by omega, fun p hp => by
    have := hs.child_lt hp
    have := isChildOf_lt_length hp
    omega⟩
  obtain ⟨i, rfl⟩ : ∃ i, live = [i] := List.length_eq_one_iff.1 (by
    have := List.length_pos_of_mem hlast
    omega)
  rw [List.mem_singleton] at hlast
  rw [List.length_singleton] at hrounds
  obtain rfl : i = 2 * (presentSymbols f).length - 2 := by omega
  obtain rfl : k = (presentSymbols f).length - 1 := by omega
  exact ⟨hroot, hs⟩

/-- R407: no present symbol, no node. -/
theorem buildTree_of_no_symbol {f : Table Word} (h : presentSymbols f = []) : buildTree f = Tree.empty := by
  rw [buildTree, show leavesOf f = [] by simp [leavesOf_eq_map, h]]
  rfl

/-- Settles O30: the shape every round keeps, at the end of the loop. -/
theorem treeShape : Obligations.TreeShape := by
  refine fun f => ⟨fun hn => ?_, fun hn => ?_, fun hn => ?_⟩
  · have htree := buildTree_of_no_symbol (List.length_eq_zero_iff.1 hn)
    exact ⟨congrArg Tree.nodes htree, congrArg Tree.root htree⟩
  · obtain ⟨hroot, hs⟩ := buildTree_shape (f := f) (by omega)
    rw [hn] at hroot
    obtain ⟨x, hx⟩ : ∃ x, (presentSymbols f)[0]? = some x := ⟨_, List.getElem?_eq_getElem (by omega)⟩
    exact ⟨hs.size.trans (by omega), hroot, x, hs.leaf_of_symbol hx⟩
  · obtain ⟨hroot, hs⟩ := buildTree_shape (f := f) (by omega)
    have hsize := hs.size
    exact ⟨by omega, hroot, fun i hi => ⟨_, hs.leaf_of_symbol (List.getElem?_eq_getElem hi)⟩,
      fun i hi hlt => hs.internals i hi (by omega), hs.oneParent⟩

/-- Settles O32: every round of the loop takes the two least nodes, and later rounds leave that so. -/
theorem mergesTakeTheTwoLeast : Obligations.MergesTakeTheTwoLeast := by
  intro f m q l r k nodes freq key before hm
  obtain ⟨k', -, -, -, -, ho⟩ := buildTree_merged f
  have hbefore : ∀ p p' : Node, p.rank < p'.rank → before p p' := by
    rintro (_ | _) (_ | _) h <;> exact Node.rank_lt_iff.1 h
  obtain ⟨left, right, hl, hr, hlr, hleast⟩ := ho.merges m q l r k hm
  exact ⟨left, right, hl, hr, hbefore _ _ hlr,
    fun j other hj hjl hjr hno hother => hbefore _ _ (hleast j other hj hjl hjr hno hother)⟩

end Sys2Proof.Machine
end

section
/-! PROOF. Walks in the Huffman tree (R420), and the codewords as walks from the root to the leaves (R421, R425, R426).
O33, O34 and O35 are assembled from them. -/

namespace Sys2Proof.Machine

/-! ## Walks (R420) -/

section
variable {nodes : List Node} {i j : Nat} {x : Byte} {q : BitVec 40} {l r : Nat} {key : BitVec 9}

/-- R420: the edges `c` lead from node `i` to the leaf of symbol `x`. -/
def LeafWalk (nodes : List Node) (i : Nat) (c : Bits) (x : Byte) : Prop :=
  ∃ j q key, walkTree nodes i c = some j ∧ nodes[j]? = some (.leaf x q key)

@[simp] theorem walkTree_nil (nodes : List Node) (i : Nat) : walkTree nodes i [] = some i := rfl

theorem walkTree_cons_iff {b : Bool} {rest : Bits} : walkTree nodes i (b :: rest) = some j ↔
    ∃ q l r key, nodes[i]? = some (.internal q l r key) ∧ walkTree nodes (if b then r else l) rest = some j := by
  rw [walkTree]
  split
  · next hi => simp [hi]
  · next hno => exact ⟨nofun, fun ⟨q, l, r, key, hi, _⟩ => absurd hi (hno q l r key)⟩

theorem walkTree_append (b c : Bits) (i : Nat) :
    walkTree nodes i (b ++ c) = (walkTree nodes i b).bind fun p => walkTree nodes p c := by
  induction b generalizing i with
  | nil => rfl
  | cons x rest ih =>
    rw [List.cons_append, walkTree, walkTree]
    split
    · exact ih _
    · rfl

/-- A walk that is not empty ends at a child of the node before. -/
theorem walkTree_concat_iff {b : Bool} {init : Bits} : walkTree nodes i (init ++ [b]) = some j ↔
    ∃ p q l r key, walkTree nodes i init = some p ∧ nodes[p]? = some (.internal q l r key) ∧
      j = if b then r else l := by
  simp only [walkTree_append, Option.bind_eq_some_iff, walkTree_cons_iff, walkTree_nil,
    Option.some.injEq]
  constructor
  · rintro ⟨p, hp, q, l, r, key, hi, rfl⟩
    exact ⟨p, q, l, r, key, hp, hi, rfl⟩
  · rintro ⟨p, q, l, r, key, hp, hi, rfl⟩
    exact ⟨p, hp, q, l, r, key, hi, rfl⟩

/-- No edge leaves a leaf. -/
theorem leafWalk_leaf (hi : nodes[i]? = some (.leaf x q key)) {c : Bits} {y : Byte} :
    LeafWalk nodes i c y ↔ c = [] ∧ y = x := by
  cases c with
  | nil => simp [LeafWalk, walkTree, hi, eq_comm]
  | cons b rest => simp [LeafWalk, walkTree_cons_iff, hi]

/-- From an internal node the first edge leads to a child. -/
theorem leafWalk_internal (hi : nodes[i]? = some (.internal q l r key)) {c : Bits} {y : Byte} :
    LeafWalk nodes i c y ↔ ∃ b rest, c = b :: rest ∧ LeafWalk nodes (if b then r else l) rest y := by
  cases c with
  | nil => simp [LeafWalk, walkTree, hi]
  | cons b rest => simp [LeafWalk, walkTree_cons_iff, hi]

/-- R425: a walk to a leaf goes no further. -/
theorem LeafWalk.eq_of_prefix {c d : Bits} {y : Byte} (hc : LeafWalk nodes i c x) (hd : LeafWalk nodes i d y)
    (h : c <+: d) : x = y := by
  obtain ⟨j, q, key, hj, hleaf⟩ := hc
  obtain ⟨j', q', key', hj', hleaf'⟩ := hd
  obtain ⟨more, rfl⟩ := h
  rw [walkTree_append, hj, Option.bind_some] at hj'
  exact ((leafWalk_leaf hleaf).1 ⟨j', q', key', hj', hleaf'⟩).2.symm

end

/-! ## Walks in a tree the builder made (R408) -/

namespace MergeShape

variable {f : Table Word} {k : Nat} {nodes : List Node} {live : List Nat}

theorem node_cases (h : MergeShape f k nodes live) {i : Nat} (hi : i < nodes.length) :
    (∃ x q key, nodes[i]? = some (.leaf x q key)) ∨
      (presentSymbols f).length ≤ i ∧ ∃ q l r key, nodes[i]? = some (.internal q l r key) := by
  rcases lt_or_ge i (presentSymbols f).length with hlt | hn
  · exact .inl ⟨_, h.leaf_of_symbol (List.getElem?_eq_getElem hlt)⟩
  · obtain ⟨q, l, r, key, hnode, -⟩ := h.internals i hn hi
    exact .inr ⟨hn, q, l, r, key, hnode⟩

/-- The two edges of an internal node lead to different children. -/
theorem edge_inj (h : MergeShape f k nodes live) {i : Nat} {q : BitVec 40} {l r : Nat} {key : BitVec 9} {e e' : Bool}
    (hi : nodes[i]? = some (.internal q l r key)) (hsame : (if e then r else l) = if e' then r else l) : e = e' := by
  obtain ⟨-, -, -, hne⟩ := h.internal_spec hi
  cases e <;> cases e'
  · rfl
  · exact absurd hsame hne
  · exact absurd hsame.symm hne
  · rfl

/-- R426: a walk passes a smaller internal node with each edge. -/
theorem walk_length_le (h : MergeShape f k nodes live) (b : Bits) {i j : Nat} (hw : walkTree nodes i b = some j) :
    b.length ≤ i + 1 - (presentSymbols f).length := by
  induction b generalizing i with
  | nil => exact Nat.zero_le _
  | cons x rest ih =>
    obtain ⟨q, l, r, key, hi, hrest⟩ := walkTree_cons_iff.1 hw
    obtain ⟨hn, -⟩ := h.internal_spec hi
    have hlen := ih hrest
    have hchild := h.child_lt (isChildOf_edge hi x)
    rw [List.length_cons]
    omega

/-- R425: a bit string with a bit for every internal node up to `i` begins with a walk from `i` to a leaf. -/
theorem leafWalk_of_long (h : MergeShape f k nodes live) (i : Nat) (b : Bits) (hi : i < nodes.length)
    (hb : i + 1 - (presentSymbols f).length ≤ b.length) : ∃ x c, LeafWalk nodes i c x ∧ c <+: b := by
  induction i using Nat.strong_induction_on generalizing b with
  | _ i ih =>
    obtain ⟨x, q, key, hleaf⟩ | ⟨hn, q, l, r, key, hnode⟩ := h.node_cases hi
    · exact ⟨x, [], (leafWalk_leaf hleaf).2 ⟨rfl, rfl⟩, List.nil_prefix⟩
    · cases b with
      | nil => simp only [List.length_nil] at hb; omega
      | cons e rest =>
        have hchild := h.child_lt (isChildOf_edge hnode e)
        rw [List.length_cons] at hb
        obtain ⟨x, c, hc, hprefix⟩ := ih _ hchild rest (hchild.trans hi) (by omega)
        exact ⟨x, e :: c, (leafWalk_internal hnode).2 ⟨e, c, rfl, hc⟩, (List.prefix_cons_inj e).2 hprefix⟩

/-- R420: the generator lists the walks to the leaves. -/
theorem mem_leafPaths_iff (h : MergeShape f k nodes live) {x : Byte} {c : Codeword} (fuel : Nat) {i : Nat}
    (path : Bits) (hfuel : i < fuel) (hi : i < nodes.length) :
    (x, c) ∈ leafPaths nodes fuel i path ↔ ∃ b, c = path ++ b ∧ LeafWalk nodes i b x := by
  induction fuel generalizing i path with
  | zero => omega
  | succ fuel ih =>
    obtain ⟨y, q, key, hleaf⟩ | ⟨-, q, l, r, key, hnode⟩ := h.node_cases hi
    · simp [leafPaths, hleaf, leafWalk_leaf hleaf, and_comm]
    · obtain ⟨-, hl, hr, -⟩ := h.internal_spec hnode
      simp only [leafPaths, hnode, List.mem_append, leafWalk_internal hnode, List.append_assoc,
        ih _ (hl.trans_le (Nat.le_of_lt_succ hfuel)) (hl.trans hi),
        ih _ (hr.trans_le (Nat.le_of_lt_succ hfuel)) (hr.trans hi)]
      constructor
      · rintro (⟨b, hc, hb⟩ | ⟨b, hc, hb⟩)
        · exact ⟨_, hc, false, b, rfl, hb⟩
        · exact ⟨_, hc, true, b, rfl, hb⟩
      · rintro ⟨_, hc, _ | _, b, rfl, hb⟩
        · exact .inl ⟨b, hc, hb⟩
        · exact .inr ⟨b, hc, hb⟩

variable {root : Nat}

/-- R408: every node is reached from the only one without a parent. -/
theorem exists_walk (h : MergeShape f k nodes [root]) {i : Nat} (hi : i < nodes.length) :
    ∃ b, walkTree nodes root b = some i := by
  induction hd : nodes.length - i using Nat.strong_induction_on generalizing i with
  | _ d ih =>
    by_cases hroot : i = root
    · exact ⟨[], congrArg some hroot.symm⟩
    · obtain ⟨p, hp⟩ : ∃ p, isChildOf nodes i p := by
        by_contra hno
        exact hroot (List.mem_singleton.1 ((h.mem_live i).2 ⟨hi, not_exists.1 hno⟩))
      have hlt := h.child_lt hp
      have hlen := isChildOf_lt_length hp
      obtain ⟨b, hb⟩ := ih (nodes.length - p) (by omega) hlen rfl
      obtain ⟨q, l, r, key, hnode, rfl | rfl⟩ := hp
      · exact ⟨b ++ [false], walkTree_concat_iff.2 ⟨p, q, _, r, key, hb, hnode, rfl⟩⟩
      · exact ⟨b ++ [true], walkTree_concat_iff.2 ⟨p, q, l, _, key, hb, hnode, rfl⟩⟩

/-- The root is no node's child. -/
theorem walk_concat_ne_root (h : MergeShape f k nodes [root]) (init : Bits) (e : Bool) :
    walkTree nodes root (init ++ [e]) ≠ some root := fun hw => by
  obtain ⟨p, q, l, r, key, -, hnode, hchild⟩ := walkTree_concat_iff.1 hw
  exact ((h.mem_live root).1 (List.mem_singleton_self root)).2 p (hchild ▸ isChildOf_edge hnode e)

/-- R408: a node is reached from the root in one way. -/
theorem walk_unique (h : MergeShape f k nodes [root]) (b b' : Bits) {i : Nat} (hb : walkTree nodes root b = some i)
    (hb' : walkTree nodes root b' = some i) : b = b' := by
  induction b using List.reverseRecOn generalizing b' i with
  | nil =>
    obtain rfl | ⟨init', e', rfl⟩ := List.eq_nil_or_concat' b'
    · rfl
    · cases hb
      exact absurd hb' (h.walk_concat_ne_root init' e')
  | append_singleton init e ih =>
    obtain rfl | ⟨init', e', rfl⟩ := List.eq_nil_or_concat' b'
    · cases hb'
      exact absurd hb (h.walk_concat_ne_root init e)
    · obtain ⟨p, q, l, r, key, hp, hnode, rfl⟩ := walkTree_concat_iff.1 hb
      obtain ⟨p', q', l', r', key', hp', hnode', hsame⟩ := walkTree_concat_iff.1 hb'
      obtain rfl : p = p' := h.oneParent _ p p' (isChildOf_edge hnode e) (hsame ▸ isChildOf_edge hnode' e')
      obtain ⟨-, rfl, rfl, -⟩ := Node.internal.inj (Option.some.inj (hnode.symm.trans hnode'))
      obtain rfl : e = e' := h.edge_inj hnode hsame
      rw [ih init' hp hp']

/-- R420: a symbol's leaf is reached from the root in one way. -/
theorem leafWalk_unique (h : MergeShape f k nodes [root]) {c d : Bits} {x : Byte} (hc : LeafWalk nodes root c x)
    (hd : LeafWalk nodes root d x) : c = d := by
  obtain ⟨i, q, key, hi, hleaf⟩ := hc
  obtain ⟨i', q', key', hi', hleaf'⟩ := hd
  have hx := h.symbol_of_leaf hleaf
  obtain rfl : i = i' := (List.getElem?_inj (List.getElem?_eq_some_iff.1 hx).1 (presentSymbols_nodup f)).1
    (hx.trans (h.symbol_of_leaf hleaf').symm)
  exact h.walk_unique c d hi hi'

/-- R420: the symbols with a leaf below the root are the present ones. -/
theorem exists_leafWalk_iff (h : MergeShape f k nodes [root]) {x : Byte} :
    (∃ c, LeafWalk nodes root c x) ↔ x ∈ presentSymbols f := by
  constructor
  · rintro ⟨c, i, q, key, -, hleaf⟩
    exact List.mem_of_getElem? (h.symbol_of_leaf hleaf)
  · intro hx
    obtain ⟨i, hi⟩ := List.mem_iff_getElem?.1 hx
    obtain ⟨q, key, hleaf⟩ := h.leaf_of_symbol hi
    obtain ⟨c, hc⟩ := h.exists_walk (List.getElem?_eq_some_iff.1 hleaf).1
    exact ⟨c, i, q, key, hc, hleaf⟩

end MergeShape

/-! ## The code table (R420, R421) -/

/-- A key with one value only is looked up as that value. -/
theorem lookup_eq_some_iff_mem {l : List (Byte × Codeword)} {x : Byte} {c : Codeword}
    (hunique : ∀ c d, (x, c) ∈ l → (x, d) ∈ l → c = d) : l.lookup x = some c ↔ (x, c) ∈ l := by
  have hmem : ∀ {d}, l.lookup x = some d → (x, d) ∈ l := fun hd => by
    obtain ⟨l₁, l₂, rfl, -⟩ := List.lookup_eq_some_iff.1 hd
    simp
  refine ⟨hmem, fun hc => ?_⟩
  cases hlookup : l.lookup x with
  | none => simpa using List.lookup_eq_none_iff.1 hlookup _ hc
  | some d => rw [hunique d c (hmem hlookup) hc]

/-- R421: with no present symbol there is no codeword. -/
theorem deriveCodes_of_no_symbol {f : Table Word} (h : presentSymbols f = []) (x : Byte) :
    (deriveCodes (buildTree f)).lookup x = none := by
  rw [buildTree_of_no_symbol h]
  exact Table.lookup_replicate none x

/-- R421: the only present symbol has the codeword `0`. -/
theorem deriveCodes_of_one_symbol {f : Table Word} {y : Byte} (h : presentSymbols f = [y]) (x : Byte) :
    (deriveCodes (buildTree f)).lookup x = if x = y then some [false] else none := by
  obtain ⟨hroot, hs⟩ := buildTree_shape (f := f) (by simp [h])
  obtain ⟨q, key, hleaf⟩ := hs.leaf_of_symbol (i := 0) (x := y) (by simp [h])
  rw [h] at hroot
  simp [deriveCodes, hroot, hleaf, Table.lookup_update]

/-- R408: with two or more present symbols the root is an internal node. -/
theorem buildTree_root_internal {f : Table Word} (hn : 2 ≤ (presentSymbols f).length) :
    ∃ q l r key, (buildTree f).nodes[2 * (presentSymbols f).length - 2]? = some (.internal q l r key) := by
  obtain ⟨-, hs⟩ := buildTree_shape (f := f) (by omega)
  have hsize := hs.size
  obtain ⟨q, l, r, key, hnode, -⟩ := hs.internals (2 * (presentSymbols f).length - 2) (by omega) (by omega)
  exact ⟨q, l, r, key, hnode⟩

/-- R420: with two or more present symbols the codewords are the walks from the root to the leaves. -/
theorem deriveCodes_lookup_iff {f : Table Word} (hn : 2 ≤ (presentSymbols f).length) {x : Byte} {c : Codeword} :
    (deriveCodes (buildTree f)).lookup x = some c ↔
      LeafWalk (buildTree f).nodes (2 * (presentSymbols f).length - 2) c x := by
  obtain ⟨hroot, hs⟩ := buildTree_shape (f := f) (by omega)
  have hsize := hs.size
  obtain ⟨q, l, r, key, hnode⟩ := buildTree_root_internal hn
  have hpaths (d : Codeword) := hs.mem_leafPaths_iff (x := x) (c := d) (buildTree f).nodes.length
    (i := 2 * (presentSymbols f).length - 2) [] (by omega) (by omega)
  simp only [List.nil_append, exists_eq_left'] at hpaths
  simp only [deriveCodes, hroot, hnode, codesFromPaths, Table.lookup_tabulate]
  rw [lookup_eq_some_iff_mem, hpaths]
  exact fun c d hc hd => hs.leafWalk_unique ((hpaths c).1 hc) ((hpaths d).1 hd)

/-- The three cases of R407 and R408. -/
theorem symbols_cases (f : Table Word) :
    presentSymbols f = [] ∨ (∃ y, presentSymbols f = [y]) ∨ 2 ≤ (presentSymbols f).length := by
  match presentSymbols f with
  | [] => exact .inl rfl
  | [y] => exact .inr (.inl ⟨y, rfl⟩)
  | _ :: _ :: _ => exact .inr (.inr (by simp))

/-- Settles O33: the codewords are the walks to the leaves, and the small tables have their own entries. -/
theorem codewordsArePaths : Obligations.CodewordsArePaths := by
  refine fun f => ⟨fun hn x c => ?_, fun y => deriveCodes_of_one_symbol, deriveCodes_of_no_symbol⟩
  obtain ⟨hroot, -⟩ := buildTree_shape (f := f) (by omega)
  rw [deriveCodes_lookup_iff hn]
  constructor
  · rintro ⟨i, q, key, hwalk, hleaf⟩
    exact ⟨_, i, q, key, hroot, hwalk, hleaf⟩
  · rintro ⟨r, i, q, key, hr, hwalk, hleaf⟩
    obtain rfl := Option.some.inj (hroot.symm.trans hr)
    exact ⟨i, q, key, hwalk, hleaf⟩

/-- R425: no codeword begins another, since no walk to a leaf goes on. -/
theorem deriveCodes_prefixFree (f : Table Word) : prefixFree (deriveCodes (buildTree f)) := by
  intro x y c d hc hd hprefix
  obtain h | ⟨z, h⟩ | hn := symbols_cases f
  · simp [deriveCodes_of_no_symbol h] at hc
  · simp only [deriveCodes_of_one_symbol h, Option.ite_none_right_eq_some] at hc hd
    exact hc.1.trans hd.1.symm
  · exact ((deriveCodes_lookup_iff hn).1 hc).eq_of_prefix ((deriveCodes_lookup_iff hn).1 hd) hprefix

/-- Settles O34: a bit string with a bit for every internal node begins with a walk to a leaf, and no codeword
begins another. -/
theorem codeIsPrefixFree : Obligations.CodeIsPrefixFree := by
  refine fun f => ⟨deriveCodes_prefixFree f, fun hn b hb => ?_⟩
  obtain ⟨-, hs⟩ := buildTree_shape (f := f) (by omega)
  have hsize := hs.size
  have hcount := presentSymbols_length_le f
  obtain ⟨x, c, hc, hcb⟩ := hs.leafWalk_of_long (2 * (presentSymbols f).length - 2) b (by omega) (by omega)
  have hx := (deriveCodes_lookup_iff hn).2 hc
  refine ⟨x, c, hx, hcb, fun y d hy hdb => ?_⟩
  obtain hcd | hdc := List.prefix_or_prefix_of_prefix hcb hdb
  · exact (deriveCodes_prefixFree f x y c d hx hy hcd).symm
  · exact deriveCodes_prefixFree f y x d c hy hx hdc

/-- R426: a codeword has at least one bit, and at most one for every internal node. -/
theorem deriveCodes_lengthsLegal (f : Table Word) : lengthsLegal (deriveCodes (buildTree f)) := by
  intro x c hc
  obtain h | ⟨z, h⟩ | hn := symbols_cases f
  · simp [deriveCodes_of_no_symbol h] at hc
  · simp only [deriveCodes_of_one_symbol h, Option.ite_none_right_eq_some] at hc
    obtain rfl := Option.some.inj hc.2
    decide
  · obtain ⟨-, hs⟩ := buildTree_shape (f := f) (by omega)
    have hcount := presentSymbols_length_le f
    have hwalk := (deriveCodes_lookup_iff hn).1 hc
    obtain ⟨q, l, r, key, hnode⟩ := buildTree_root_internal hn
    obtain ⟨b, rest, rfl, -⟩ := (leafWalk_internal hnode).1 hwalk
    obtain ⟨i, -, -, hi, -⟩ := hwalk
    have hle := hs.walk_length_le _ hi
    rw [List.length_cons] at hle ⊢
    omega

/-- Settles O35: the lengths of walks to leaves, and a leaf for each present symbol. -/
theorem codewordLengths : Obligations.CodewordLengths := by
  refine fun f => ⟨deriveCodes_lengthsLegal f, fun x => ?_⟩
  rw [← mem_presentSymbols]
  obtain h | ⟨z, h⟩ | hn := symbols_cases f
  · simp [deriveCodes_of_no_symbol h, h]
  · simp [deriveCodes_of_one_symbol h, h]
  · obtain ⟨-, hs⟩ := buildTree_shape (f := f) (by omega)
    simp only [deriveCodes_lookup_iff hn]
    exact hs.exists_leafWalk_iff

end Sys2Proof.Machine
end

section
/-! PROOF. The commands HUF_FREQ, HUF_BUILD and HUF_CODEGEN (R402, R412, R422): O27, O28 and O29. -/

namespace Sys2Proof.Machine

section
variable {s : State}

/-- R202: the source of HUF_FREQ is in range when it is empty or ends inside data memory. -/
theorem rangesOk_hufFreq_iff : rangesOk .hufFreq s = true ↔
    s.srcLen = 0 ∨ s.srcAddr.toNat + s.srcLen.toNat ≤ s.memTop.toNat + 1 := by
  simp [rangesOk, regions, Region.inRange_iff, srcRegion, State.memSize, BitVec.toNat_eq]

/-- R605: HUF_FREQ needs its source in range, and nothing else. -/
theorem precheck_hufFreq : precheck .hufFreq s = if rangesOk .hufFreq s = true then none else some .busError := by
  cases h : rangesOk .hufFreq s <;> simp [precheck, configOk, readyOk, regions, disjointOk, h]

/-- R605: HUF_BUILD has no pre-check to fail. -/
theorem precheck_hufBuild : precheck .hufBuild s = none := rfl

/-- R605: HUF_CODEGEN needs a valid tree, and nothing else. -/
theorem precheck_hufCodegen : precheck .hufCodegen s = if s.treeValid = true then none else some .notReady := by
  cases h : s.treeValid <;> simp [precheck, configOk, readyOk, rangesOk, regions, disjointOk, h]

end

/-- R401, R402: the counts of the source bytes are the occurrences in memory, since they do not exceed 2^32 - 1. -/
theorem freqOf_srcBytes (s : State) (x : Byte) :
    ((freqOf (srcBytes s)).lookup x).toNat = occurrences s.mem s.srcAddr.toNat s.srcLen.toNat x := by
  have hcount : (srcBytes s).count x = occurrences s.mem s.srcAddr.toNat s.srcLen.toNat x := by
    rw [srcBytes, Memory.readBytes, List.count, List.countP_map]
    rfl
  have hle : occurrences s.mem s.srcAddr.toNat s.srcLen.toNat x ≤ s.srcLen.toNat :=
    List.countP_le_length.trans_eq List.length_range
  rw [freqOf, Table.lookup_tabulate, hcount, BitVec.toNat_ofNat, Nat.mod_eq_of_lt (hle.trans_lt s.srcLen.isLt)]

/-- Settles O27: the byte counts go to FREQ, with all that a change of FREQ entails. -/
theorem hufFreqCountsBytes : Obligations.HufFreqCountsBytes := by
  refine ⟨decode_encode .hufFreq, fun s => ⟨fun hsrc => ?_, fun hsrc => ?_⟩⟩
  · refine ⟨hufFreqBody s, congrArg Host.Outcome.next (runChecked_of_none ?_), freqOf_srcBytes s, nsym_toNat _,
      fun x => Table.lookup_replicate none x, rfl⟩
    rw [precheck_hufFreq, if_pos (rangesOk_hufFreq_iff.2 hsrc)]
  · refine congrArg Host.Outcome.next (runChecked_of_some ?_)
    rw [precheck_hufFreq, if_neg (mt rangesOk_hufFreq_iff.1 hsrc)]

/-- Settles O28: the builder's stage, without a pre-check to fail. -/
theorem hufBuildBuildsTree : Obligations.HufBuildBuildsTree :=
  ⟨decode_encode .hufBuild, fun s => ⟨hufBuildBody s, congrArg Host.Outcome.next (runChecked_of_none precheck_hufBuild),
    rfl, fun x => Table.lookup_replicate none x, rfl⟩⟩

/-- Settles O29: the generator's stage, behind the readiness check. -/
theorem hufCodegenDerivesCodes : Obligations.HufCodegenDerivesCodes := by
  refine ⟨decode_encode .hufCodegen, fun s => ⟨fun hv => ?_, fun hv => ?_⟩⟩
  · refine congrArg Host.Outcome.next (runChecked_of_none (body := hufCodegenBody) ?_)
    rw [precheck_hufCodegen, if_pos hv]
  · refine congrArg Host.Outcome.next (runChecked_of_some ?_)
    rw [precheck_hufCodegen, if_neg (by simp [hv])]

end Sys2Proof.Machine
end

section
/-! PROOF. A blob the parser accepts is one of records in some order (R467, R468): an accepted digit string is the
spelling of its value, an accepted round has read a record, and the rounds together a blob. O40 is assembled from
them. -/

namespace Sys2Proof.Machine

/-! ## Accepted digit strings (R467, R11) -/

theorem digitByte_of_isDigit {d : Byte} (h : isDigit d = true) :
    d.toNat - 0x30 < 10 ∧ digitByte (d.toNat - 0x30) = d := by
  simp only [isDigit, Bool.and_eq_true, decide_eq_true_eq] at h
  refine ⟨by omega, ?_⟩
  rw [digitByte, Nat.add_sub_cancel' h.1, BitVec.ofNat_toNat, BitVec.setWidth_eq]

/-- A digit string without a leading zero is the spelling of its value. -/
theorem dec_decimalValue {ds : List Byte} (hdigits : ∀ d ∈ ds, isDigit d = true) (hne : ds ≠ [])
    (hzero : 1 < ds.length → ds.head? ≠ some 0x30) : dec (decimalValue ds) = ds := by
  induction ds using List.reverseRecOn with
  | nil => exact (hne rfl).elim
  | append_singleton init d ih =>
    obtain ⟨hlt, hd⟩ := digitByte_of_isDigit (hdigits d (by simp))
    rw [decimalValue_append_singleton]
    cases init with
    | nil => simpa [decimalValue, dec_of_lt hlt] using hd
    | cons c cs =>
      have hc : c ≠ 0x30 := by simpa using hzero
      have hinit : dec (decimalValue (c :: cs)) = c :: cs :=
        ih (fun x hx => hdigits x (List.mem_append_left _ hx)) (by simp) fun _ => by simpa using hc
      have hpos : decimalValue (c :: cs) ≠ 0 := fun h0 => by
        rw [h0] at hinit
        exact hc (List.cons.inj hinit).1.symm
      rw [dec_of_ge (by omega), Nat.mul_add_div (by decide), Nat.div_eq_of_lt hlt, Nat.mul_add_mod,
        Nat.mod_eq_of_lt hlt, Nat.add_zero, hinit, hd]

/-- R467: the number of a record is read from its spelling alone. -/
theorem eq_dec_of_recordNumber {ds : List Byte} {n : Nat} (hdigits : ∀ d ∈ ds, isDigit d = true)
    (h : recordNumber ds = some n) : ds = dec n ∧ n ≤ 4294967295 := by
  simp only [recordNumber, Option.ite_none_left_eq_some, Option.some.injEq] at h
  obtain ⟨hne, hzero, hle, rfl⟩ := h
  exact ⟨(dec_decimalValue hdigits hne (by simpa using hzero)).symm, Nat.le_of_not_lt hle⟩

/-! ## Accepted rounds (R467) -/

/-- R467: a round that does not reject has read one record. -/
theorem record_of_parseLoop {fuel : Nat} {t : List Byte} {g : Table Word} {r : Table Word × Nat}
    (h : parseLoop fuel t g = some r) :
    ∃ (k : Nat) (c : Byte) (n : Nat) (tail : List Byte), fuel = k + 1 ∧ n ≤ 4294967295 ∧ t = record c n ++ tail := by
  unfold parseLoop at h
  split at h
  · cases h
  · cases h
  · next k c rest =>
    split at h
    · next v e tail hnumber hdrop =>
      obtain ⟨hbar, -⟩ := Option.ite_none_left_eq_some.1 h
      obtain rfl : e = barByte := not_not.1 hbar
      obtain ⟨hdec, hle⟩ := eq_dec_of_recordNumber (fun _ => List.mem_takeWhile_imp) hnumber
      refine ⟨k, c, v, tail, rfl, hle, ?_⟩
      rw [record_append, ← hdec, ← hdrop, List.takeWhile_append_dropWhile]
    · cases h

/-- R467, R468: the parser with the table `g` read so far accepts only records of symbols absent from `g`, ended by the
terminator record, and its result differs from `g` in these symbols alone. -/
theorem blobInOrder_of_parseLoop {f : Table Word} {len : Nat} (fuel : Nat) :
    ∀ (t : List Byte) (g : Table Word), parseLoop fuel t g = some (f, len) →
      len ≤ 4294967295 ∧ ∃ order : List Byte, order.Nodup ∧ (∀ x ∈ order, g.lookup x = 0 ∧ f.lookup x ≠ 0) ∧
        (∀ x, x ∉ order → f.lookup x = g.lookup x) ∧ t = blobInOrder order f len := by
  induction fuel with
  | zero => exact fun t g h => by cases h
  | succ fuel ih =>
    intro t g h
    obtain ⟨k, c, n, tail, hk, hn, rfl⟩ := record_of_parseLoop h
    rw [parseLoop_record fuel c hn] at h
    split at h
    · next htail =>
      obtain ⟨rfl, hr⟩ := Option.ite_none_right_eq_some.1 h
      cases hr
      exact ⟨hn, [], List.nodup_nil, by simp, by simp, by simp [blobInOrder, htail]⟩
    · obtain ⟨hentry, hrest⟩ := Option.ite_none_left_eq_some.1 h
      obtain ⟨hpos, hfresh⟩ := not_or.1 hentry
      obtain ⟨hlen, order, hnodup, hpresent, hkept, rfl⟩ := ih _ _ hrest
      have hcount : (BitVec.ofNat 32 n).toNat = n := by rw [BitVec.toNat_ofNat]; omega
      have hc : c ∉ order := fun hc => hpos <| by
        rw [← hcount, ← Table.lookup_update_same g c (BitVec.ofNat 32 n), (hpresent c hc).1]
        rfl
      have hfc : f.lookup c = BitVec.ofNat 32 n := by rw [hkept c hc, Table.lookup_update_same]
      refine ⟨hlen, c :: order, List.nodup_cons.2 ⟨hc, hnodup⟩, fun x hx => ?_, fun x hx => ?_, ?_⟩
      · obtain rfl | hx := List.mem_cons.1 hx
        · exact ⟨not_not.1 hfresh, fun h0 => hpos (by rw [← hcount, ← hfc, h0]; rfl)⟩
        · have hne : x ≠ c := fun e => hc (e ▸ hx)
          simpa [Table.lookup_update, hne] using hpresent x hx
      · obtain ⟨hne, hx⟩ := not_or.1 (mt List.mem_cons.2 hx)
        rw [hkept x hx, Table.lookup_update, if_neg hne]
      · rw [blobInOrder_cons, hfc, hcount]

/-- Settles O40: the parser reads every blob in order of records, and what it accepts is one. -/
theorem parseAcceptsExactlyBlobs : Obligations.ParseAcceptsExactlyBlobs := by
  refine fun t f len => ⟨fun h => ?_, fun ⟨hlen, order, hnodup, hmem, ht⟩ => ?_⟩
  · obtain ⟨hlen, order, hnodup, hpresent, hkept, rfl⟩ := blobInOrder_of_parseLoop _ _ _ h
    refine ⟨hlen, order, hnodup, fun x => ⟨fun hx => (hpresent x hx).2, fun hx => ?_⟩, rfl⟩
    by_contra hout
    exact hx ((hkept x hout).trans (Table.lookup_replicate 0 x))
  · rw [ht]
    exact parseBlob_blobInOrder f hlen hnodup hmem

end Sys2Proof.Machine
end

section
/-! PROOF. The loops of the Huffman streams on their inputs (R452, R455): the serializer after some of its bytes, and
the deserializer on codewords none of which begins another, on a leftover, and past its capacity. -/

namespace Sys2Proof.Machine

section
variable {code : Table (Option Codeword)} {cap : Nat}

/-! ## Serializer (R451, R452) -/

/-- R6, R452: a stream fits, as the statements write it. -/
theorem streamFits_iff {n : Nat} : streamTooLong n cap = false ↔ n ≤ 2 ^ 32 - 1 ∧ ceil8 n ≤ cap := by
  rw [streamTooLong_eq_false, show Config.maxStreamBits = 2 ^ 32 - 1 from rfl]

theorem encodeBits_nil {bits : Bits} : encodeBits code [] = some bits ↔ bits = [] := by simp [encodeBits, eq_comm]

/-- R452: after bytes whose codewords fit, the loop goes on with the stream they gave. -/
theorem encodeLoop_append {xs : List Byte} (rest : List Byte) {bits : Bits} :
    ∀ pre : Bits, encodeBits code xs = some bits → streamTooLong (pre ++ bits).length cap = false →
      encodeLoop code cap (xs ++ rest) pre = encodeLoop code cap rest (pre ++ bits) := by
  induction xs generalizing bits with
  | nil =>
    intro pre h _
    obtain rfl := encodeBits_nil.1 h
    simp
  | cons x xs ih =>
    intro pre h hfits
    obtain ⟨c, tail, hc, ht, rfl⟩ := encodeBits_cons.1 h
    rw [← List.append_assoc] at hfits ⊢
    have hpre : streamTooLong (pre ++ c).length cap = false := streamTooLong_mono (by simp) hfits
    simp only [List.cons_append, encodeLoop, hc, hpre, Bool.false_eq_true, if_false]
    exact ih _ ht hfits

/-- R451: the stream is defined when every byte has a codeword. -/
theorem exists_encodeBits {bytes : List Byte} (h : ∀ x ∈ bytes, ∃ c, code.lookup x = some c) :
    ∃ bits, encodeBits code bytes = some bits := by
  induction bytes with
  | nil => exact ⟨[], rfl⟩
  | cons x xs ih =>
    obtain ⟨c, hc⟩ := h x List.mem_cons_self
    obtain ⟨tail, ht⟩ := ih fun y hy => h y (List.mem_cons_of_mem x hy)
    exact ⟨c ++ tail, encodeBits_cons.2 ⟨c, tail, hc, ht, rfl⟩⟩

/-- R451: the stream of two byte strings is that of the one and then that of the other. -/
theorem encodeBits_append_iff {xs ys : List Byte} {bits : Bits} :
    encodeBits code (xs ++ ys) = some bits ↔
      ∃ a b, encodeBits code xs = some a ∧ encodeBits code ys = some b ∧ bits = a ++ b := by
  refine ⟨fun h => ?_, fun ⟨a, b, ha, hb, e⟩ => e ▸ encodeBits_append xs ys a b ha hb⟩
  induction xs generalizing bits with
  | nil => exact ⟨[], bits, rfl, h, rfl⟩
  | cons x xs ih =>
    obtain ⟨c, tail, hc, ht, rfl⟩ := encodeBits_cons.1 h
    obtain ⟨a, b, ha, hb, rfl⟩ := ih ht
    exact ⟨c ++ a, b, encodeBits_cons.2 ⟨c, a, hc, ha, rfl⟩, hb, by rw [List.append_assoc]⟩

/-- R451, R486: the stream is as long as the codewords of its bytes together. -/
theorem encodeBits_length {bytes : List Byte} {bits : Bits} (h : encodeBits code bytes = some bits) :
    bits.length = (bytes.map fun x => ((code.lookup x).getD []).length).sum := by
  induction bytes generalizing bits with
  | nil =>
    obtain rfl := encodeBits_nil.1 h
    rfl
  | cons x xs ih =>
    obtain ⟨c, tail, hc, ht, rfl⟩ := encodeBits_cons.1 h
    simp [hc, ih ht]

/-! ## Deserializer (R455, R460) -/

/-- R455: where no codeword begins another, the symbol of a codeword is the one it belongs to. -/
theorem symbolOf_of_lookup (hfree : prefixFree code) {x : Byte} {c : Codeword} (h : code.lookup x = some c) :
    symbolOf code c = some x := by
  cases hs : symbolOf code c with
  | none => exact (symbolOf_none hs x h).elim
  | some y => rw [hfree y x c c (symbolOf_some hs) h List.prefix_rfl]

/-- R455: bits that complete no codeword go to the buffer. -/
theorem decodeLoop_gather {b : Bits} (more : Bits) (out : List Byte) :
    ∀ buf : Bits, (∀ p, p <+: b → p ≠ [] → symbolOf code (buf ++ p) = none) →
      decodeLoop code cap (b ++ more) buf out = decodeLoop code cap more (buf ++ b) out := by
  induction b with
  | nil => intro buf _; simp
  | cons x xs ih =>
    intro buf h
    have hx : symbolOf code (buf ++ [x]) = none := h [x] (by simp) (by simp)
    rw [List.cons_append, decodeLoop, hx]
    have hrest := ih (buf ++ [x]) fun p hp _ => by
      simpa using h (x :: p) (List.cons_prefix_cons.2 ⟨rfl, hp⟩) (by simp)
    simpa using hrest

/-- R455: bits that no codeword begins go to the empty buffer. -/
theorem decodeLoop_no_codeword {b : Bits} (h : ∀ x c, code.lookup x = some c → ¬ c <+: b) (more : Bits)
    (out : List Byte) : decodeLoop code cap (b ++ more) [] out = decodeLoop code cap more b out := by
  refine decodeLoop_gather more out [] fun p hp _ => ?_
  rw [List.nil_append]
  by_contra hsome
  obtain ⟨x, hx⟩ := Option.ne_none_iff_exists'.1 hsome
  exact h x p (symbolOf_some hx) hp

/-- R460: the loop on one codeword, none beginning another: its symbol when there is room, OUTPUT_OVERFLOW otherwise. -/
theorem decodeLoop_codeword (hfree : prefixFree code) (hlegal : lengthsLegal code) {x : Byte} {c : Codeword}
    (h : code.lookup x = some c) (more : Bits) (out : List Byte) :
    decodeLoop code cap (c ++ more) [] out =
      if out.length + 1 > cap then .error .outputOverflow else decodeLoop code cap more [] (out ++ [x]) := by
  obtain ⟨init, last, rfl⟩ : ∃ init last, c = init ++ [last] :=
    ⟨_, _, (List.dropLast_append_getLast (List.ne_nil_of_length_pos (hlegal x c h).1)).symm⟩
  have hnone : ∀ y d, code.lookup y = some d → ¬ d <+: init := fun y d hy hd => by
    obtain rfl := hfree y x d _ hy h (hd.trans (List.prefix_append _ _))
    obtain rfl := Option.some.inj (hy.symm.trans h)
    simpa using hd.length_le
  rw [List.append_assoc, decodeLoop_no_codeword hnone, List.singleton_append, decodeLoop,
    symbolOf_of_lookup hfree h]

/-- R455, R460: the loop on the codewords of bytes for which there is room. -/
theorem decodeLoop_encodeBits (hfree : prefixFree code) (hlegal : lengthsLegal code) {xs : List Byte} {bits : Bits}
    (more : Bits) :
    ∀ out : List Byte, encodeBits code xs = some bits → (out ++ xs).length ≤ cap →
      decodeLoop code cap (bits ++ more) [] out = decodeLoop code cap more [] (out ++ xs) := by
  induction xs generalizing bits with
  | nil =>
    intro out h _
    obtain rfl := encodeBits_nil.1 h
    simp
  | cons x xs ih =>
    intro out h hroom
    obtain ⟨c, tail, hc, ht, rfl⟩ := encodeBits_cons.1 h
    have hone : ¬ out.length + 1 > cap := by
      simp only [List.length_append, List.length_cons] at hroom
      omega
    rw [List.append_assoc, decodeLoop_codeword hfree hlegal hc, if_neg hone, ih _ ht (by simpa using hroom)]
    simp

/-- R460: the codewords of bytes for which there is no room stop the loop with OUTPUT_OVERFLOW. -/
theorem decodeLoop_overflow (hfree : prefixFree code) (hlegal : lengthsLegal code) {xs : List Byte} {bits : Bits}
    (more : Bits) (h : encodeBits code xs = some bits) (hroom : xs.length = cap + 1) :
    decodeLoop code cap (bits ++ more) [] [] = .error .outputOverflow := by
  obtain ⟨init, last, rfl⟩ : ∃ init last, xs = init ++ [last] :=
    ⟨_, _, (List.dropLast_append_getLast (List.ne_nil_of_length_pos (by omega))).symm⟩
  obtain ⟨a, b, hinit, hlast, rfl⟩ := encodeBits_append_iff.1 h
  obtain ⟨c, tail, hc, -, rfl⟩ := encodeBits_cons.1 hlast
  simp only [List.length_append, List.length_singleton] at hroom
  have hfits : ([] ++ init).length ≤ cap := by rw [List.nil_append]; omega
  rw [List.append_assoc, decodeLoop_encodeBits hfree hlegal _ [] hinit hfits, List.append_assoc,
    decodeLoop_codeword hfree hlegal hc, List.nil_append, if_pos (by omega)]

/-- R460: a leftover that no codeword begins stays in the buffer, and stops the loop with CORRUPT_RESIDUAL. -/
theorem decodeLoop_residual {rest : Bits} (hne : rest ≠ []) (h : ∀ x c, code.lookup x = some c → ¬ c <+: rest)
    (out : List Byte) : decodeLoop code cap rest [] out = .error .corruptResidual := by
  have hgather := decodeLoop_no_codeword (cap := cap) h [] out
  rw [List.append_nil] at hgather
  rw [hgather, decodeLoop, if_neg hne]

end

end Sys2Proof.Machine
end

section
/-! PROOF. The commands HUF_ENCODE and HUF_DECODE (R452, R460): O36, O37, O38 and O39. -/

namespace Sys2Proof.Machine

section
variable {s : State}

/-- R605: a command whose pre-checks pass ends as its own rule says. -/
theorem next_runChecked {i : Instr} {body : State → State} {t : State} (hp : precheck i s = none) (h : body s = t) :
    (.next (runChecked i body s) : Host.Outcome State Fault Refusal) = .next t := by
  rw [runChecked_of_none hp, h]

/-- R613 (c): an error after the pre-checks of a command whose only results are DST_LEN and DST_BITS. -/
theorem failCommand_dst_eq {i : Instr} (e : ErrCode) (s : State) (h : clearResults i s = s.setDst 0 0) :
    ∃ m n, failCommand i e s = { s with mem := m, draws := n, dstLen := 0, dstBits := 0, errCode := e, error := true,
                                        done := false, engine := .idle } := by
  obtain ⟨m, n, hfail⟩ := failCommand_eq i e s
  exact ⟨m, n, by rw [hfail, h]; rfl⟩

/-! ## HUF_ENCODE (R452) -/

theorem hufEncodeBody_of_fits {bits : Bits} (h : encodeBits s.code (srcBytes s) = some bits)
    (hfits : streamTooLong bits.length s.dstCap.toNat = false) :
    hufEncodeBody s = ((storeStream bits s).setDst (ceil8 bits.length) bits.length).complete := by
  rw [hufEncodeBody, encodeLoop_of_fits _ [] bits h hfits]
  rfl

theorem exec_hufEncode_of_error {e : ErrCode} (hp : precheck .hufEncode s = none)
    (h : encodeLoop s.code s.dstCap.toNat (srcBytes s) [] = .error e) :
    ∃ m n, exec .hufEncode s = .next { s with mem := m, draws := n, dstLen := 0, dstBits := 0, errCode := e,
                                              error := true, done := false, engine := .idle } := by
  obtain ⟨m, n, hfail⟩ := failCommand_dst_eq (i := .hufEncode) e s rfl
  exact ⟨m, n, next_runChecked hp (by rw [hufEncodeBody, h]; exact hfail)⟩

/-! ## HUF_DECODE (R460), and the deserializer in HUF_DECOMPRESS (R482) -/

theorem decodeStage_of_ok {i : Instr} {n : Nat} {out : List Byte}
    (h : decodeLoop s.code s.dstCap.toNat (s.mem.readBits s.srcAddr.toNat n) [] [] = .ok out) :
    decodeStage i n s = ((s.store s.dstAddr out).setDst out.length 0).complete := by
  rw [decodeStage, h]

theorem decodeStage_of_error {i : Instr} {n : Nat} {e : ErrCode}
    (h : decodeLoop s.code s.dstCap.toNat (s.mem.readBits s.srcAddr.toNat n) [] [] = .error e) :
    decodeStage i n s = failCommand i e s := by
  rw [decodeStage, h]

/-- R455: the deserializer on exactly the codewords of a byte string that fits DST. -/
theorem decodeStage_of_encodeBits {i : Instr} {n : Nat} {out : List Byte} (hfree : prefixFree s.code)
    (hlegal : lengthsLegal s.code) (h : encodeBits s.code out = some (s.mem.readBits s.srcAddr.toNat n))
    (hcap : out.length ≤ s.dstCap.toNat) :
    decodeStage i n s = ((s.store s.dstAddr out).setDst out.length 0).complete := by
  refine decodeStage_of_ok ?_
  have hloop := decodeLoop_encodeBits hfree hlegal [] [] h hcap
  rw [List.append_nil] at hloop
  rw [hloop]
  simp [decodeLoop]

theorem exec_hufDecode_of_error {e : ErrCode} (hp : precheck .hufDecode s = none)
    (h : decodeLoop s.code s.dstCap.toNat (s.mem.readBits s.srcAddr.toNat s.srcLen.toNat) [] [] = .error e) :
    ∃ m n, exec .hufDecode s = .next { s with mem := m, draws := n, dstLen := 0, dstBits := 0, errCode := e,
                                              error := true, done := false, engine := .idle } := by
  obtain ⟨m, n, hfail⟩ := failCommand_dst_eq (i := .hufDecode) e s rfl
  exact ⟨m, n, next_runChecked hp ((decodeStage_of_error h).trans hfail)⟩

end

/-! ## The statements -/

/-- Settles O36: the loop answers the whole stream, which fits. -/
theorem hufEncodeWritesStream : Obligations.HufEncodeWritesStream := by
  intro s bits hp hbits hlen hcap
  refine next_runChecked hp ((hufEncodeBody_of_fits hbits (streamFits_iff.2 ⟨hlen, hcap⟩)).trans ?_)
  simp only [storeStream, State.store, State.setHbits, State.setDst, State.complete]

/-- Settles O37: the loop reaches the byte `b` with the stream of the bytes before it, and stops there. -/
theorem hufEncodeStopsAtFirstError : Obligations.HufEncodeStopsAtFirstError := by
  intro s done rest b bits hp hsrc hdone hlen hcap
  have hfits : streamTooLong ([] ++ bits).length s.dstCap.toNat = false := streamFits_iff.2 ⟨hlen, hcap⟩
  have hloop : encodeLoop s.code s.dstCap.toNat (srcBytes s) [] =
      encodeLoop s.code s.dstCap.toNat (b :: rest) bits := by
    rw [hsrc, encodeLoop_append _ [] hdone hfits, List.nil_append]
  refine ⟨fun hb => ?_, fun c hb hover => ?_⟩
  · exact exec_hufEncode_of_error hp (hloop.trans (by rw [encodeLoop, hb]))
  · have hlong : streamTooLong (bits ++ c).length s.dstCap.toNat = true :=
      Bool.of_not_eq_false (mt streamFits_iff.1 hover)
    exact exec_hufEncode_of_error hp (hloop.trans (by simp only [encodeLoop, hb, hlong, if_true]))

/-- Settles O38: the deserializer on the codewords of `out`. -/
theorem hufDecodeInvertsCode : Obligations.HufDecodeInvertsCode := fun _ _ hp hfree hlegal hbits hcap =>
  next_runChecked hp (decodeStage_of_encodeBits hfree hlegal hbits hcap)

/-- Settles O39: the loop decodes `out`, and then either nothing more can be completed or there was no room. -/
theorem hufDecodeErrors : Obligations.HufDecodeErrors := by
  intro s out bits rest hp hfree hlegal hread hbits
  refine ⟨fun hcap hne hrest => exec_hufDecode_of_error hp ?_, fun hover => exec_hufDecode_of_error hp ?_⟩
  · rw [hread, decodeLoop_encodeBits hfree hlegal rest [] hbits hcap]
    exact decodeLoop_residual hne hrest _
  · rw [hread]
    exact decodeLoop_overflow hfree hlegal rest hbits hover

end Sys2Proof.Machine
end

section
/-! PROOF. The commands HUF_META_EMIT and HUF_META_PARSE (R470, R475): O42 and O43. -/

namespace Sys2Proof.Machine

section
variable {s : State}

/-- R605: a command that reads no CONFIG and no table, with one region, needs that region in range, and nothing else. -/
theorem precheck_of_one_region {i : Instr} {r : Region} (hconfig : configOk i s = true) (hready : readyOk i s = true)
    (hr : regions i s = [r]) :
    precheck i s = if r.len = 0 ∨ r.addr + r.len ≤ s.memSize then none else some .busError := by
  simp only [precheck, hconfig, hready, rangesOk, hr, disjointOk, List.all_cons, List.all_nil, ← Region.inRange_iff]
  cases r.inRange s.memSize <;> rfl

/-- R202: META in range, as the statements write it. -/
theorem metaRegion_inRange_iff (s : State) (w : Bool) :
    ((metaRegion s w).len = 0 ∨ (metaRegion s w).addr + (metaRegion s w).len ≤ s.memSize) ↔
      (s.metaLen = 0 ∨ s.metaAddr.toNat + s.metaLen.toNat ≤ s.memTop.toNat + 1) := by
  simp [metaRegion, State.memSize, BitVec.toNat_eq]

theorem precheck_hufMetaEmit : precheck .hufMetaEmit s =
    if s.metaLen = 0 ∨ s.metaAddr.toNat + s.metaLen.toNat ≤ s.memTop.toNat + 1 then none else some .busError := by
  simp only [precheck_of_one_region (i := .hufMetaEmit) rfl rfl rfl, metaRegion_inRange_iff]

theorem precheck_hufMetaParse : precheck .hufMetaParse s =
    if s.metaLen = 0 ∨ s.metaAddr.toNat + s.metaLen.toNat ≤ s.memTop.toNat + 1 then none else some .busError := by
  simp only [precheck_of_one_region (i := .hufMetaParse) rfl rfl rfl, metaRegion_inRange_iff]

/-! ## HUF_META_EMIT (R470) -/

theorem hufMetaEmitBody_of_fits (h : (emitBlob s.freq s.hbits.toNat).length ≤ s.metaLen.toNat) :
    hufMetaEmitBody s = ((s.store s.metaAddr (emitBlob s.freq s.hbits.toNat)).setMetaOut
      (emitBlob s.freq s.hbits.toNat).length).complete := if_neg (Nat.not_lt.2 h)

theorem hufMetaEmitBody_of_overflow (h : s.metaLen.toNat < (emitBlob s.freq s.hbits.toNat).length) :
    hufMetaEmitBody s = failCommand .hufMetaEmit .outputOverflow s := if_pos h

/-! ## HUF_META_PARSE (R475) -/

theorem hufMetaParseBody_of_some {f : Table Word} {len : Nat} (h : parseBlob (metaBytes s) = some (f, len)) :
    hufMetaParseBody s = (installBlob f len s).complete := by
  rw [hufMetaParseBody, h]

/-- R475: a malformed blob, whose error scrambles no region. -/
theorem hufMetaParseBody_of_none (h : parseBlob (metaBytes s) = none) :
    hufMetaParseBody s = (installNothing s).raiseError .metadataMalformed := by
  rw [hufMetaParseBody, h]
  rfl

/-- R475: no symbol is present in the empty table. -/
theorem presentCount_empty : presentCount (Vector.replicate 256 0) = 0 := by
  simp [presentCount_eq]

end

/-! ## The statements -/

/-- Settles O42: the pre-check is META in range, and then the blob fits or not. -/
theorem hufMetaEmitWritesBlob : Obligations.HufMetaEmitWritesBlob := by
  refine ⟨decode_encode .hufMetaEmit, fun s => ⟨fun hin hfits => ?_, fun hin hover => ?_, fun hout => ?_⟩⟩
  · have hp : precheck .hufMetaEmit s = none := precheck_hufMetaEmit.trans (if_pos hin)
    refine next_runChecked hp ((hufMetaEmitBody_of_fits hfits).trans ?_)
    simp only [State.store, State.setMetaOut, State.complete]
  · have hp : precheck .hufMetaEmit s = none := precheck_hufMetaEmit.trans (if_pos hin)
    have hexec : exec .hufMetaEmit s = .next (failCommand .hufMetaEmit .outputOverflow s) :=
      next_runChecked hp (hufMetaEmitBody_of_overflow hover)
    have hread := failCommand_read .hufMetaEmit .outputOverflow s
    obtain ⟨m, n, hfail⟩ := failCommand_eq .hufMetaEmit .outputOverflow s
    rw [hfail] at hexec hread
    exact ⟨m, n, fun a ha => hread a fun r hr _ => List.mem_singleton.1 hr ▸ ha, hexec⟩
  · have hp : precheck .hufMetaEmit s = some .busError := precheck_hufMetaEmit.trans (if_neg hout)
    exact congrArg Host.Outcome.next (runChecked_of_some hp)

/-- Settles O43: the pre-check is META in range, and then the blob parses or not. -/
theorem hufMetaParseInstallsTable : Obligations.HufMetaParseInstallsTable := by
  refine ⟨decode_encode .hufMetaParse, fun s => ⟨fun hin f len hparse => ?_, fun hin hparse => ?_, fun hout => ?_⟩⟩
  · have hp : precheck .hufMetaParse s = none := precheck_hufMetaParse.trans (if_pos hin)
    exact ⟨_, next_runChecked hp (hufMetaParseBody_of_some hparse),
      nsym_toNat f, fun x => Table.lookup_replicate none x, rfl⟩
  · have hp : precheck .hufMetaParse s = none := precheck_hufMetaParse.trans (if_pos hin)
    refine ⟨_, next_runChecked hp (hufMetaParseBody_of_none hparse),
      fun x => Table.lookup_replicate 0 x, fun x => Table.lookup_replicate none x, ?_⟩
    simp only [installNothing, installBlob, State.setFreq, presentCount_empty]
    rfl
  · have hp : precheck .hufMetaParse s = some .busError := precheck_hufMetaParse.trans (if_neg hout)
    exact congrArg Host.Outcome.next (runChecked_of_some hp)

end Sys2Proof.Machine
end

section
/-! PROOF. The command HUF_COMPRESS (R480, R481, R486): its tables, its three ends, what a success is, and the same by
the five primitive commands: O44, O45, O46, O47 and O51. -/

namespace Sys2Proof.Machine

/-! ## The codewords and counts of a source (R481, R486) -/

/-- R401: the counts of a source of at most 2^32 - 1 bytes are exact. -/
theorem freqOf_lookup_toNat {bytes : List Byte} (h : bytes.length ≤ 2 ^ 32 - 1) (x : Byte) :
    ((freqOf bytes).lookup x).toNat = bytes.count x := by
  have hle : bytes.count x ≤ bytes.length := List.count_le_length
  rw [freqOf, Table.lookup_tabulate, BitVec.toNat_ofNat]
  omega

theorem mem_presentSymbols_freqOf {bytes : List Byte} (h : bytes.length ≤ 2 ^ 32 - 1) {x : Byte} :
    x ∈ presentSymbols (freqOf bytes) ↔ x ∈ bytes := by
  rw [mem_presentSymbols, ← List.count_pos_iff, ← freqOf_lookup_toNat h, Nat.pos_iff_ne_zero, ne_eq, ne_eq,
    BitVec.toNat_eq]
  rfl

/-- R481: every byte of a source has a codeword in the code of the source's counts. -/
theorem exists_encodeBits_freqOf {bytes : List Byte} (h : bytes.length ≤ 2 ^ 32 - 1) :
    ∃ bits, encodeBits (deriveCodes (buildTree (freqOf bytes))) bytes = some bits :=
  exists_encodeBits fun x hx =>
    ((codewordLengths _).2 x).2 (mem_presentSymbols.1 ((mem_presentSymbols_freqOf h).2 hx))

theorem srcBytes_length_le (s : State) : (srcBytes s).length ≤ 2 ^ 32 - 1 := by
  have := s.srcLen.isLt
  rw [srcBytes, Memory.readBytes_length]
  omega

/-- R402: the counts of the source bytes are the occurrences in memory. -/
theorem count_srcBytes (s : State) (x : Byte) :
    (srcBytes s).count x = occurrences s.mem s.srcAddr.toNat s.srcLen.toNat x := by
  rw [← freqOf_lookup_toNat (srcBytes_length_le s), freqOf_srcBytes]

/-- R486: a sum over the bytes of a source is one over its present symbols, each as often as it occurs. -/
theorem sum_map_eq_sum_presentSymbols (s : State) (g : Byte → Nat) :
    ((srcBytes s).map g).sum = ((presentSymbols (freqOf (srcBytes s))).map fun x =>
      g x * occurrences s.mem s.srcAddr.toNat s.srcLen.toNat x).sum := by
  have hsymbols : (srcBytes s).toFinset = (presentSymbols (freqOf (srcBytes s))).toFinset := by
    ext x
    rw [List.mem_toFinset, List.mem_toFinset, mem_presentSymbols_freqOf (srcBytes_length_le s)]
  rw [Finset.sum_list_map_count, hsymbols, List.sum_toFinset _ (presentSymbols_nodup _)]
  simp only [count_srcBytes, smul_eq_mul, Nat.mul_comm]

section
variable {s : State} {bits : Bits}

/-! ## Phases 1 to 3 (R480) -/

/-- R480: the state after phases 1 to 3, with the tables of SRC. -/
def compressTables (s : State) : State := codegenStage (buildStage (s.setFreq (freqOf (srcBytes s))))

/-- R480: the tables of SRC over the state of the command's start. -/
theorem compressTables_eq (s : State) : compressTables s =
    { s with freq := freqOf (srcBytes s), nsym := BitVec.ofNat 9 (presentCount (freqOf (srcBytes s))),
             tree := buildTree (freqOf (srcBytes s)), treeValid := true,
             code := deriveCodes (buildTree (freqOf (srcBytes s))), codeValid := true } := by
  simp only [compressTables, codegenStage, buildStage, State.setCode, State.setTree, State.clearCode, State.setFreq,
    State.invalidate]

@[simp] theorem compressTables_freq : (compressTables s).freq = freqOf (srcBytes s) := by rw [compressTables_eq]
@[simp] theorem compressTables_code :
    (compressTables s).code = deriveCodes (buildTree (freqOf (srcBytes s))) := by rw [compressTables_eq]
@[simp] theorem compressTables_dstCap : (compressTables s).dstCap = s.dstCap := by rw [compressTables_eq]
@[simp] theorem compressTables_metaAddr : (compressTables s).metaAddr = s.metaAddr := by rw [compressTables_eq]
@[simp] theorem compressTables_metaLen : (compressTables s).metaLen = s.metaLen := by rw [compressTables_eq]
@[simp] theorem storeStream_freq : (storeStream bits s).freq = s.freq := by simp [storeStream]
@[simp] theorem storeStream_metaAddr : (storeStream bits s).metaAddr = s.metaAddr := by simp [storeStream]
@[simp] theorem storeStream_metaLen : (storeStream bits s).metaLen = s.metaLen := by simp [storeStream]

/-! ## Phases 4 and 5 (R480) -/

/-- R480: the blob of phase 5. -/
abbrev compressBlob (s : State) (bits : Bits) : List Byte := emitBlob (freqOf (srcBytes s)) bits.length

/-- R480: the state of a success, with the stream in DST and the blob in META. -/
def compressed (s : State) (bits : Bits) : State :=
  ((((storeStream bits (compressTables s)).store s.metaAddr (compressBlob s bits)).setDst (ceil8 bits.length)
    bits.length).setMetaOut (compressBlob s bits).length).complete

/-- R480: a success over the state of the command's start. -/
theorem compressed_eq (s : State) (bits : Bits) : compressed s bits =
    { compressTables s with
      mem := (s.mem.writeBytes s.dstAddr.toNat (packBits bits)).writeBytes s.metaAddr.toNat (compressBlob s bits)
      dstLen := BitVec.ofNat 32 (ceil8 bits.length), dstBits := BitVec.ofNat 32 bits.length
      hbits := BitVec.ofNat 32 bits.length, metaOutLen := BitVec.ofNat 32 (compressBlob s bits).length
      done := true, error := false, errCode := .none, engine := .idle } := by
  simp only [compressed, storeStream, compressTables_eq, State.store, State.setHbits, State.setDst, State.setMetaOut,
    State.complete]

section
variable (hbits : encodeBits (deriveCodes (buildTree (freqOf (srcBytes s)))) (srcBytes s) = some bits)
include hbits

theorem hufCompressBody_of_stream_overflow (h : streamTooLong bits.length s.dstCap.toNat = true) :
    hufCompressBody s = failCommand .hufCompress .outputOverflow (compressTables s) := by
  rw [hufCompressBody, ← compressTables]
  simp only [compressStreamStage, compressTables_code, compressTables_dstCap, hbits, h, if_true]

theorem hufCompressBody_of_blob_overflow (h : streamTooLong bits.length s.dstCap.toNat = false)
    (hblob : s.metaLen.toNat < (compressBlob s bits).length) :
    hufCompressBody s = failCommand .hufCompress .outputOverflow (storeStream bits (compressTables s)) := by
  rw [hufCompressBody, ← compressTables]
  simp [compressStreamStage, compressBlobStage, hbits, h, hblob]

theorem hufCompressBody_of_fits (h : streamTooLong bits.length s.dstCap.toNat = false)
    (hblob : (compressBlob s bits).length ≤ s.metaLen.toNat) : hufCompressBody s = compressed s bits := by
  rw [hufCompressBody, ← compressTables]
  simp [compressStreamStage, compressBlobStage, compressed, hbits, h, Nat.not_lt.2 hblob]

end

/-- R613 (c): an error after the pre-checks of HUF_COMPRESS. -/
theorem failCommand_hufCompress_eq (e : ErrCode) (s : State) :
    ∃ m n, failCommand .hufCompress e s =
      { s with mem := m, draws := n, dstLen := 0, dstBits := 0, metaOutLen := 0, errCode := e, error := true,
               done := false, engine := .idle } := by
  obtain ⟨m, n, hfail⟩ := failCommand_eq .hufCompress e s
  exact ⟨m, n, hfail.trans rfl⟩

/-- R480, R481: how HUF_COMPRESS ends after its pre-checks. -/
theorem hufCompressBody_cases (s : State) :
    ∃ bits, encodeBits (deriveCodes (buildTree (freqOf (srcBytes s)))) (srcBytes s) = some bits ∧
      ((streamTooLong bits.length s.dstCap.toNat = false ∧ (compressBlob s bits).length ≤ s.metaLen.toNat ∧
          hufCompressBody s = compressed s bits) ∨
        ∃ u, hufCompressBody s = failCommand .hufCompress .outputOverflow u) := by
  obtain ⟨bits, hbits⟩ := exists_encodeBits_freqOf (srcBytes_length_le s)
  refine ⟨bits, hbits, ?_⟩
  cases hfits : streamTooLong bits.length s.dstCap.toNat with
  | true => exact .inr ⟨_, hufCompressBody_of_stream_overflow hbits hfits⟩
  | false =>
    obtain hblob | hblob := Nat.lt_or_ge s.metaLen.toNat (compressBlob s bits).length
    · exact .inr ⟨_, hufCompressBody_of_blob_overflow hbits hfits hblob⟩
    · exact .inl ⟨rfl, hblob, hufCompressBody_of_fits hbits hfits hblob⟩

/-- R480: what a HUF_COMPRESS that succeeds has done. -/
theorem exec_hufCompress_done {t : State} (h : exec .hufCompress s = .next t) (hd : t.done = true) :
    precheck .hufCompress s = none ∧
      ∃ bits, encodeBits (deriveCodes (buildTree (freqOf (srcBytes s)))) (srcBytes s) = some bits ∧
        streamTooLong bits.length s.dstCap.toNat = false ∧ (compressBlob s bits).length ≤ s.metaLen.toNat ∧
        t = compressed s bits := by
  cases h
  obtain ⟨hp, hbody⟩ := runChecked_of_done hd
  rw [hbody] at hd ⊢
  obtain ⟨bits, hbits, ⟨hfits, hblob, hend⟩ | ⟨u, hend⟩⟩ := hufCompressBody_cases s
  · exact ⟨hp, bits, hbits, hfits, hblob, hend⟩
  · exact (failCommand_not_done (hend ▸ hd)).elim

/-- R452: what a HUF_ENCODE that succeeds has done. -/
theorem exec_hufEncode_done {t : State} (h : exec .hufEncode s = .next t) (hd : t.done = true) :
    ∃ bits, encodeBits s.code (srcBytes s) = some bits ∧ streamTooLong bits.length s.dstCap.toNat = false ∧
      t = ((storeStream bits s).setDst (ceil8 bits.length) bits.length).complete := by
  cases h
  obtain ⟨-, hbody⟩ := runChecked_of_done hd
  rw [hbody] at hd ⊢
  cases hloop : encodeLoop s.code s.dstCap.toNat (srcBytes s) [] with
  | error e =>
    rw [hufEncodeBody, hloop] at hd
    exact (failCommand_not_done hd).elim
  | ok out =>
    obtain ⟨bits, hbits, hout⟩ := encodeBits_of_encodeLoop _ _ _ hloop
    obtain rfl : out = bits := hout
    have hfits := encodeLoop_ok_fits _ [] (streamTooLong_zero _) hloop
    exact ⟨out, hbits, hfits, hufEncodeBody_of_fits hbits hfits⟩

/-! ## The five primitive commands (R480) -/

/-- R605: fewer regions, in the same order, are disjoint if the others were. -/
theorem disjointOk_of_sublist {rs qs : List Region} (h : rs.Sublist qs) (hq : disjointOk qs = true) :
    disjointOk rs = true := by
  induction h with
  | slnil => rfl
  | cons r _ ih => exact ih (Bool.and_eq_true_iff.1 hq).2
  | cons_cons r hsub ih =>
    obtain ⟨hall, hrest⟩ := Bool.and_eq_true_iff.1 hq
    rw [List.all_eq_true] at hall
    exact Bool.and_eq_true_iff.2 ⟨List.all_eq_true.2 fun q hq => hall q (hsub.subset hq), ih hrest⟩

/-- R605: the pre-checks of a command whose regions are among those of another that passed them. -/
theorem precheck_none_of_sublist {i j : Instr} {t : State} (h : precheck i s = none) (hconfig : configOk j t = true)
    (hready : readyOk j t = true) (hmem : t.memSize = s.memSize) (hsub : (regions j t).Sublist (regions i s)) :
    precheck j t = none := by
  obtain ⟨-, -, hranges, hdisjoint⟩ := precheck_none_iff.1 h
  rw [rangesOk, List.all_eq_true] at hranges
  refine precheck_none_iff.2 ⟨hconfig, hready, ?_, disjointOk_of_sublist hsub hdisjoint⟩
  rw [rangesOk, hmem, List.all_eq_true]
  exact fun r hr => hranges r (hsub.subset hr)

/-- R480: HUF_FREQ, HUF_BUILD and HUF_CODEGEN leave the tables of phases 1 to 3. -/
theorem hufCodegenBody_eq (s : State) :
    hufCodegenBody (hufBuildBody (hufFreqBody s)) = (compressTables s).complete := by
  simp only [hufCodegenBody, hufBuildBody, hufFreqBody, compressTables, codegenStage, buildStage, State.setCode,
    State.setTree, State.clearCode, State.setFreq, State.invalidate, State.complete]

/-- R480: HUF_ENCODE, on these tables. -/
def encodedTables (s : State) (bits : Bits) : State :=
  ((storeStream bits (compressTables s).complete).setDst (ceil8 bits.length) bits.length).complete

theorem srcBytes_compressTables_complete (s : State) : srcBytes (compressTables s).complete = srcBytes s := by
  rw [compressTables_eq]
  rfl

theorem exec_hufEncode_compressTables (hp : precheck .hufCompress s = none)
    (hbits : encodeBits (deriveCodes (buildTree (freqOf (srcBytes s)))) (srcBytes s) = some bits)
    (hfits : streamTooLong bits.length s.dstCap.toNat = false) :
    exec .hufEncode (compressTables s).complete = .next (encodedTables s bits) := by
  have hpre : precheck .hufEncode (compressTables s).complete = none :=
    precheck_none_of_sublist hp rfl rfl rfl (List.prefix_append [srcRegion s, dstRegion s] _).sublist
  refine next_runChecked hpre (hufEncodeBody_of_fits ?_ (by simpa using hfits))
  rw [srcBytes_compressTables_complete, State.complete_code, compressTables_code, hbits]

/-- R480: HUF_META_EMIT, after HUF_ENCODE, which left the length of its stream in HBITS. -/
theorem exec_hufMetaEmit_encodedTables (hp : precheck .hufCompress s = none)
    (hfits : streamTooLong bits.length s.dstCap.toNat = false)
    (hblob : (compressBlob s bits).length ≤ s.metaLen.toNat) :
    exec .hufMetaEmit (encodedTables s bits) = .next (compressed s bits) := by
  have hpre : precheck .hufMetaEmit (encodedTables s bits) = none :=
    precheck_none_of_sublist hp rfl rfl rfl (List.suffix_append [srcRegion s, dstRegion s] [metaRegion s true]).sublist
  have hlen : (BitVec.ofNat 32 bits.length).toNat = bits.length := by
    have := (streamFits_iff.1 hfits).1
    rw [BitVec.toNat_ofNat]
    omega
  have hmade : emitBlob (encodedTables s bits).freq (encodedTables s bits).hbits.toNat = compressBlob s bits := by
    simp [encodedTables, storeStream, hlen]
  have hroom : (encodedTables s bits).metaLen = s.metaLen := by simp [encodedTables]
  refine next_runChecked hpre ((hufMetaEmitBody_of_fits (by rwa [hmade, hroom])).trans ?_)
  rw [hmade]
  simp only [encodedTables, compressed_eq, storeStream, compressTables_eq, State.store, State.setHbits, State.setDst,
    State.setMetaOut, State.complete]

end

/-! ## The statements -/

/-- Settles O46: the source bytes are the present symbols, which have codewords; so only the pre-checks and the two
overflows can end HUF_COMPRESS with an error. -/
theorem compressFindsEverySymbol : Obligations.CompressFindsEverySymbol := by
  refine ⟨fun bytes h => exists_encodeBits_freqOf h, fun s t h => ?_⟩
  cases h
  obtain ⟨e, he, hend⟩ | ⟨-, hend⟩ := runChecked_cases .hufCompress hufCompressBody s <;> rw [hend]
  · rw [State.raiseError_errCode]
    rcases precheck_some he with rfl | rfl | rfl | rfl <;> decide
  · obtain ⟨bits, -, ⟨-, -, hbody⟩ | ⟨u, hbody⟩⟩ := hufCompressBody_cases s <;> rw [hbody]
    · simp [compressed_eq]
    · rw [failCommand, State.raiseError_errCode]
      decide

/-- Settles O44: the stream and the blob fit. -/
theorem hufCompressWritesBoth : Obligations.HufCompressWritesBoth := by
  intro s bits hp f blob hbits hlen hcap hblob
  refine ⟨compressed s bits, next_runChecked hp (hufCompressBody_of_fits hbits (streamFits_iff.2 ⟨hlen, hcap⟩) hblob),
    nsym_toNat f, ?_⟩
  simp only [compressed_eq, compressTables_eq]
  rfl

/-- Settles O45: the stream does not fit, or it does and the blob does not. -/
theorem hufCompressOverflows : Obligations.HufCompressOverflows := by
  intro s bits hp f fits hbits hover
  cases hfits : streamTooLong bits.length s.dstCap.toNat with
  | true =>
    have hnot : ¬ fits := fun h => by simp [streamFits_iff.2 h] at hfits
    obtain ⟨m, n, hfail⟩ := failCommand_hufCompress_eq .outputOverflow (compressTables s)
    refine ⟨_, next_runChecked hp ((hufCompressBody_of_stream_overflow hbits hfits).trans hfail),
      fun h => (hnot h).elim, fun _ => by rw [compressTables_eq], ?_⟩
    simp only [compressTables_eq]
    rfl
  | false =>
    have hlen : fits := streamFits_iff.1 hfits
    have hblob := hover.resolve_left (not_not.2 hlen)
    obtain ⟨m, n, hfail⟩ := failCommand_hufCompress_eq .outputOverflow (storeStream bits (compressTables s))
    refine ⟨_, next_runChecked hp ((hufCompressBody_of_blob_overflow hbits hfits hblob).trans hfail),
      fun _ => ?_, fun h => (h hlen).elim, ?_⟩
    · rw [storeStream, State.setHbits_hbits, BitVec.toNat_ofNat]
      exact Nat.mod_eq_of_lt (Nat.lt_succ_of_le hlen.1)
    · simp only [storeStream, compressTables_eq, State.store, State.setHbits]
      rfl

/-- Settles O47: each primitive command passes its pre-checks, since its regions are among those of HUF_COMPRESS, and
does the phase of its number. -/
theorem compressIsTheSequence : Obligations.CompressIsTheSequence := by
  intro s t h hd
  obtain ⟨hp, bits, hbits, hfits, hblob, rfl⟩ := exec_hufCompress_done h hd
  have hpfreq : precheck .hufFreq s = none :=
    precheck_none_of_sublist hp rfl rfl rfl (List.prefix_append [srcRegion s] _).sublist
  have hfreq : exec .hufFreq s = .next (hufFreqBody s) := next_runChecked hpfreq rfl
  have hbuild : exec .hufBuild (hufFreqBody s) = .next (hufBuildBody (hufFreqBody s)) :=
    next_runChecked precheck_hufBuild rfl
  have hcodegen : exec .hufCodegen (hufBuildBody (hufFreqBody s)) = .next (compressTables s).complete :=
    next_runChecked (precheck_hufCodegen.trans (if_pos rfl)) (hufCodegenBody_eq s)
  rw [hfreq, andThen_next, hbuild, andThen_next, hcodegen, andThen_next, exec_hufEncode_compressTables hp hbits hfits,
    andThen_next, exec_hufMetaEmit_encodedTables hp hfits hblob]

/-- R486: the length of a source's stream in the code of its counts. -/
theorem encodeBits_srcBytes_length {s : State} {code : Table (Option Codeword)} {bits : Bits}
    (h : encodeBits code (srcBytes s) = some bits) :
    bits.length = ((presentSymbols (freqOf (srcBytes s))).map fun x =>
      ((code.lookup x).getD []).length * occurrences s.mem s.srcAddr.toNat s.srcLen.toNat x).sum := by
  rw [encodeBits_length h, sum_map_eq_sum_presentSymbols]

/-- Settles O51: the length of the stream, which DST_BITS shows, is a sum over the source bytes. -/
theorem bitLengthIsWeightedSum : Obligations.BitLengthIsWeightedSum := by
  rintro i s t (rfl | ⟨rfl, -⟩) h hd
  · obtain ⟨-, bits, hbits, hfits, -, rfl⟩ := exec_hufCompress_done h hd
    have hcode : (compressed s bits).code = deriveCodes (buildTree (freqOf (srcBytes s))) := by
      rw [compressed_eq, compressTables_code]
    have hlen := (streamFits_iff.1 hfits).1
    rw [hcode, ← encodeBits_srcBytes_length hbits, show (compressed s bits).dstBits = BitVec.ofNat 32 bits.length by
      rw [compressed_eq], BitVec.toNat_ofNat]
    omega
  · obtain ⟨bits, hbits, hfits, rfl⟩ := exec_hufEncode_done h hd
    have hlen := (streamFits_iff.1 hfits).1
    simp only [storeStream, State.complete_code, State.setDst_code, State.setHbits_code, State.store_code,
      State.complete_dstBits, State.setDst_dstBits, BitVec.toNat_ofNat, ← encodeBits_srcBytes_length hbits]
    omega

end Sys2Proof.Machine
end

section
/-! PROOF. The command HUF_DECOMPRESS (R482) and the Huffman round trip (R485): O48, O49 and O50. -/

namespace Sys2Proof.Machine

section
variable {s : State} {f : Table Word} {len : Nat}

/-! ## The phases (R482) -/

/-- R482: the state after phase 3, with the tables of a blob. -/
def blobTables (f : Table Word) (len : Nat) (s : State) : State := codegenStage (buildStage (installBlob f len s))

/-- R482: the tables of a blob over the state of the command's start. -/
theorem blobTables_eq (f : Table Word) (len : Nat) (s : State) : blobTables f len s =
    { s with freq := f, nsym := BitVec.ofNat 9 (presentCount f), hbits := BitVec.ofNat 32 len, tree := buildTree f,
             treeValid := true, code := deriveCodes (buildTree f), codeValid := true } := by
  simp only [blobTables, codegenStage, buildStage, installBlob, State.setCode, State.setTree, State.clearCode,
    State.setFreq, State.setHbits, State.invalidate]

@[simp] theorem blobTables_code : (blobTables f len s).code = deriveCodes (buildTree f) := by rw [blobTables_eq]
@[simp] theorem blobTables_mem : (blobTables f len s).mem = s.mem := by rw [blobTables_eq]
@[simp] theorem blobTables_srcAddr : (blobTables f len s).srcAddr = s.srcAddr := by rw [blobTables_eq]
@[simp] theorem blobTables_dstCap : (blobTables f len s).dstCap = s.dstCap := by rw [blobTables_eq]

theorem hufDecompressBody_of_malformed (h : parseBlob (metaBytes s) = none) :
    hufDecompressBody s = failCommand .hufDecompress .metadataMalformed (installNothing s) := by
  rw [hufDecompressBody, h]

theorem hufDecompressBody_of_truncated (h : parseBlob (metaBytes s) = some (f, len)) (hlen : 8 * s.srcLen.toNat < len) :
    hufDecompressBody s = failCommand .hufDecompress .streamTruncated (installBlob f len s) := by
  have hsrc : (installBlob f len s).srcLen = s.srcLen := by simp [installBlob]
  rw [hufDecompressBody, h]
  simp only [decompressStage, hsrc, gt_iff_lt, hlen, if_true]

theorem hufDecompressBody_of_whole (h : parseBlob (metaBytes s) = some (f, len)) (hlen : len ≤ 8 * s.srcLen.toNat) :
    hufDecompressBody s = decodeStage .hufDecompress len (blobTables f len s) := by
  have hsrc : (installBlob f len s).srcLen = s.srcLen := by simp [installBlob]
  rw [hufDecompressBody, h]
  simp only [decompressStage, hsrc, gt_iff_lt, Nat.not_lt.2 hlen, if_false, blobTables]

/-- R482: the state of a success, with the byte string in DST. -/
def decompressed (f : Table Word) (len : Nat) (out : List Byte) (s : State) : State :=
  (((blobTables f len s).store s.dstAddr out).setDst out.length 0).complete

/-- R482: a success over the state of the command's start. -/
theorem decompressed_eq (f : Table Word) (len : Nat) (out : List Byte) (s : State) : decompressed f len out s =
    { blobTables f len s with
      mem := s.mem.writeBytes s.dstAddr.toNat out, dstLen := BitVec.ofNat 32 out.length, dstBits := 0, done := true
      error := false, errCode := .none, engine := .idle } := by
  simp only [decompressed, blobTables_eq, State.store, State.setDst, State.complete]
  rfl

/-- R482: HUF_DECOMPRESS of the codewords of a byte string that fits DST, in the code of the blob. -/
theorem hufDecompressBody_of_encodeBits {out : List Byte} (h : parseBlob (metaBytes s) = some (f, len))
    (hlen : len ≤ 8 * s.srcLen.toNat)
    (hout : encodeBits (deriveCodes (buildTree f)) out = some (s.mem.readBits s.srcAddr.toNat len))
    (hcap : out.length ≤ s.dstCap.toNat) : hufDecompressBody s = decompressed f len out s := by
  have hdst : (blobTables f len s).dstAddr = s.dstAddr := by rw [blobTables_eq]
  rw [hufDecompressBody_of_whole h hlen, decompressed, ← hdst]
  refine decodeStage_of_encodeBits ?_ ?_ ?_ ?_
  · rw [blobTables_code]
    exact deriveCodes_prefixFree f
  · rw [blobTables_code]
    exact deriveCodes_lengthsLegal f
  · rw [blobTables_code, blobTables_mem, blobTables_srcAddr, hout]
  · rwa [blobTables_dstCap]

/-! ## What HUF_COMPRESS leaves in memory (R485) -/

/-- R605: the write regions of a HUF_COMPRESS that passed its pre-checks share no byte. -/
theorem disjoint_of_precheck_hufCompress (h : precheck .hufCompress s = none) :
    s.dstCap.toNat = 0 ∨ s.metaLen.toNat = 0 ∨ s.dstAddr.toNat + s.dstCap.toNat ≤ s.metaAddr.toNat ∨
      s.metaAddr.toNat + s.metaLen.toNat ≤ s.dstAddr.toNat := by
  obtain ⟨-, -, -, hdisjoint⟩ := precheck_none_iff.1 h
  have hpair : disjointOk [dstRegion s, metaRegion s true] = true :=
    disjointOk_of_sublist (List.sublist_cons_self _ _) hdisjoint
  have hshare : (dstRegion s).overlaps (metaRegion s true) = false := by simpa [disjointOk, metaRegion] using hpair
  by_contra hno
  refine Bool.eq_false_iff.1 hshare (Region.overlaps_iff.2 ⟨max s.dstAddr.toNat s.metaAddr.toNat, ?_⟩)
  simp only [dstRegion, metaRegion]
  omega

variable {bits : Bits}

theorem compressed_mem (s : State) (bits : Bits) : (compressed s bits).mem =
    (s.mem.writeBytes s.dstAddr.toNat (packBits bits)).writeBytes s.metaAddr.toNat (compressBlob s bits) := by
  rw [compressed_eq]

/-- R485: the packed stream stands in DST. -/
theorem compressed_dst (hwf : s.mem.wf = true) (hp : precheck .hufCompress s = none)
    (hfits : ceil8 bits.length ≤ s.dstCap.toNat) (hblob : (compressBlob s bits).length ≤ s.metaLen.toNat) :
    (compressed s bits).mem.readBytes s.dstAddr.toNat (ceil8 bits.length) = packBits bits := by
  have hdisjoint := disjoint_of_precheck_hufCompress hp
  have hpos : 0 < (compressBlob s bits).length := by
    rw [compressBlob, emitBlob_eq_blobInOrder]
    exact List.length_pos_iff.2 (blobInOrder_ne_nil _ _ _)
  have hpacked := Memory.readBytes_writeBytes_same s.dstAddr.toNat (packBits bits) hwf
  rw [packBits_length] at hpacked
  have hframe := Memory.readBytes_writeBytes_disjoint (s.mem.writeBytes s.dstAddr.toNat (packBits bits))
    s.metaAddr.toNat (compressBlob s bits) s.dstAddr.toNat (ceil8 bits.length) (by omega)
  rw [compressed_mem, hframe, hpacked]

/-- R485: the blob stands in META. -/
theorem compressed_meta (hwf : s.mem.wf = true) :
    (compressed s bits).mem.readBytes s.metaAddr.toNat (compressBlob s bits).length = compressBlob s bits := by
  rw [compressed_mem]
  exact Memory.readBytes_writeBytes_same _ _ (Memory.wf_writeBytes _ _ hwf)

/-- R485: the length registers of a success. -/
theorem compressed_lengths (hfits : ceil8 bits.length ≤ s.dstCap.toNat)
    (hblob : (compressBlob s bits).length ≤ s.metaLen.toNat) :
    (compressed s bits).dstLen.toNat = ceil8 bits.length ∧
      (compressed s bits).metaOutLen.toNat = (compressBlob s bits).length := by
  have hdst := s.dstCap.isLt
  have hmeta := s.metaLen.isLt
  simp only [compressed_eq, BitVec.toNat_ofNat]
  omega

/-- R211: a packed stream read from memory with its length in bits. -/
theorem readBits_of_packBits {m : Memory} {a : Nat} (h : m.readBytes a (ceil8 bits.length) = packBits bits) :
    m.readBits a bits.length = bits := by
  rw [Memory.readBits, h, unpackBytes_packBits, List.take_left]

/-- R466, R467: the blob of a success parses to the table and length it stands for. -/
theorem parseBlob_compressBlob (hfits : bits.length ≤ 2 ^ 32 - 1) :
    parseBlob (compressBlob s bits) = some (freqOf (srcBytes s), bits.length) := emittedBlobsParseBack.1 _ _ hfits

end

/-! ## The statements -/

/-- Settles O48: the tables of the blob have the code the stream was made with. -/
theorem hufDecompressWritesBytes : Obligations.HufDecompressWritesBytes := by
  intro s f len out hp hparse hlen hout hcap
  refine ⟨decompressed f len out s, next_runChecked hp (hufDecompressBody_of_encodeBits hparse hlen hout hcap),
    nsym_toNat f, ?_⟩
  simp only [decompressed_eq, blobTables_eq]

/-- Settles O49: the blob is malformed, or its length is too long for SRC, or the deserializer's loop fails. -/
theorem hufDecompressErrors : Obligations.HufDecompressErrors := by
  refine fun s hp => ⟨fun hparse => ?_, fun f len hparse hlen => ?_, fun f len e hparse hlen hloop => ?_⟩
  · obtain ⟨m, n, hfail⟩ := failCommand_dst_eq (i := .hufDecompress) .metadataMalformed (installNothing s) rfl
    refine ⟨_, next_runChecked hp ((hufDecompressBody_of_malformed hparse).trans hfail),
      fun x => Table.lookup_replicate 0 x, fun x => Table.lookup_replicate none x, ?_⟩
    simp only [installNothing, installBlob, State.setFreq, presentCount_empty, State.invalidate, State.clearCode,
      State.setHbits]
    rfl
  · obtain ⟨m, n, hfail⟩ := failCommand_dst_eq (i := .hufDecompress) .streamTruncated (installBlob f len s) rfl
    refine ⟨_, next_runChecked hp ((hufDecompressBody_of_truncated hparse hlen).trans hfail), nsym_toNat f,
      fun x => Table.lookup_replicate none x, ?_⟩
    simp only [installBlob, State.setFreq, State.invalidate, State.clearCode, State.setHbits]
  · obtain ⟨m, n, hfail⟩ := failCommand_dst_eq (i := .hufDecompress) e (blobTables f len s) rfl
    have hstage := decodeStage_of_error (i := .hufDecompress) (s := blobTables f len s) (n := len)
      (by simpa using hloop)
    have hbody := (hufDecompressBody_of_whole hparse hlen).trans (hstage.trans hfail)
    refine ⟨_, next_runChecked hp hbody, nsym_toNat f, ?_⟩
    simp only [blobTables_eq]

/-- Settles O50: DST holds the packed codewords of the source and META the blob of its counts, from which
HUF_DECOMPRESS derives the same code. -/
theorem huffmanRoundTrip : Obligations.HuffmanRoundTrip := by
  intro s t u hws hwu h hd hsrc hmeta hcap hpu
  obtain ⟨hp, bits, hbits, hfits, hblob, rfl⟩ := exec_hufCompress_done h hd
  obtain ⟨hlong, hdst⟩ := streamFits_iff.1 hfits
  obtain ⟨hdstLen, hmetaLen⟩ := compressed_lengths hdst hblob
  have hregs : (compressed s bits).dstAddr = s.dstAddr ∧ (compressed s bits).metaAddr = s.metaAddr := by
    rw [compressed_eq, compressTables_eq]
    exact ⟨rfl, rfl⟩
  rw [hregs.1, hdstLen, compressed_dst hws hp hdst hblob] at hsrc
  rw [hregs.2, hmetaLen, compressed_meta hws] at hmeta
  have hlen : u.srcLen.toNat = ceil8 bits.length := by
    have := congrArg List.length hsrc
    rwa [srcBytes, Memory.readBytes_length, packBits_length] at this
  have hread : u.mem.readBits u.srcAddr.toNat bits.length = bits :=
    readBits_of_packBits (by rwa [srcBytes, hlen] at hsrc)
  have hout : (srcBytes s).length = s.srcLen.toNat := by rw [srcBytes, Memory.readBytes_length]
  have hbody : hufDecompressBody u = decompressed (freqOf (srcBytes s)) bits.length (srcBytes s) u :=
    hufDecompressBody_of_encodeBits (hmeta ▸ parseBlob_compressBlob hlong) (hlen ▸ le_ceil8 _) (by rw [hread, hbits])
      (hout ▸ hcap)
  refine ⟨_, next_runChecked hpu hbody, rfl, ?_, ?_⟩
  · simp [decompressed_eq, hout]
  · rw [decompressed_eq, ← hout]
    exact Memory.readBytes_writeBytes_same _ _ hwu

end Sys2Proof.Machine
end

section
/-! PROOF. The LZW decoder code by code (R530, R532): its loop on one more code, and O58. -/

namespace Sys2Proof.Machine

/-! ## One more code -/

section
variable {width cap k : Nat} {d : Dict} {prev cur out : List Byte}

/-- R530: a fragment that fits is appended, and an entry is added while there is room. -/
theorem lzwDecodeLoop_of_fits (hk : fragmentOf d prev k = .ok cur) (hfits : (out ++ cur).length ≤ cap)
    (rest : List Nat) : lzwDecodeLoop width cap (k :: rest) d prev out =
      lzwDecodeLoop width cap rest (insertFragment (2 ^ width) d (prev ++ cur.take 1)) cur (out ++ cur) := by
  simp only [lzwDecodeLoop, hk, putBytes_of_fits cur out hfits]

theorem lzwDecodeLoop_of_overflow (hk : fragmentOf d prev k = .ok cur) (hout : out.length ≤ cap)
    (hover : cap < (out ++ cur).length) (rest : List Nat) :
    lzwDecodeLoop width cap (k :: rest) d prev out = .error .outputOverflow := by
  simp only [lzwDecodeLoop, hk, putBytes_of_overflow cur out hout hover]

theorem lzwDecodeLoop_of_corrupt (hk : d.length < k) (rest : List Nat) :
    lzwDecodeLoop width cap (k :: rest) d prev out = .error .corruptLzwCode := by
  obtain ⟨cur, hget, -⟩ | ⟨heq, -⟩ | ⟨-, hfrag⟩ := fragmentOf_cases d prev k
  · have := (List.getElem?_eq_some_iff.1 hget).1
    omega
  · omega
  · simp only [lzwDecodeLoop, hfrag]

/-- R530: one later code gives a fragment that fits, or an error whatever codes follow. -/
theorem lzwDecodeLoop_cons_cases (width k : Nat) (d : Dict) (prev : List Byte) (hout : out.length ≤ cap) :
    (∃ cur d', (out ++ cur).length ≤ cap ∧ ∀ rest,
        lzwDecodeLoop width cap (k :: rest) d prev out = lzwDecodeLoop width cap rest d' cur (out ++ cur)) ∨
      ∃ e, ∀ rest, lzwDecodeLoop width cap (k :: rest) d prev out = .error e := by
  cases hk : fragmentOf d prev k with
  | error e => exact .inr ⟨e, fun rest => by simp only [lzwDecodeLoop, hk]⟩
  | ok cur =>
    obtain hover | hfits := Nat.lt_or_ge cap (out ++ cur).length
    · exact .inr ⟨_, lzwDecodeLoop_of_overflow hk hout hover⟩
    · exact .inl ⟨cur, _, hfits, lzwDecodeLoop_of_fits hk hfits⟩

end

/-! ## A code sequence and what follows it -/

section
variable {width cap : Nat}

/-- R530: decoding some codes leaves the loop somewhere with an output that fits, or is an error whatever follows. -/
theorem lzwDecodeLoop_append_cases (codes : List Nat) :
    ∀ (d : Dict) (prev : List Byte) {out : List Byte}, out.length ≤ cap →
      (∃ d' prev' out', out'.length ≤ cap ∧ ∀ rest,
          lzwDecodeLoop width cap (codes ++ rest) d prev out = lzwDecodeLoop width cap rest d' prev' out') ∨
        ∃ e, ∀ rest, lzwDecodeLoop width cap (codes ++ rest) d prev out = .error e := by
  induction codes with
  | nil => exact fun d prev out hout => .inl ⟨d, prev, out, hout, fun _ => rfl⟩
  | cons k codes ih =>
    intro d prev out hout
    obtain ⟨cur, d', hfits, hstep⟩ | ⟨e, herr⟩ := lzwDecodeLoop_cons_cases width k d prev hout
    · simpa only [List.cons_append, hstep] using ih d' cur hfits
    · exact .inr ⟨e, fun rest => herr _⟩

/-- R532: a first code of 256 or more. -/
theorem lzwDecodeCodes_of_corrupt {k : Nat} (hk : 256 ≤ k) (rest : List Nat) :
    lzwDecodeCodes width cap (k :: rest) = .error .corruptLzwCode := if_pos hk

theorem seedDict_getElem? {k : Nat} (hk : k < 256) : seedDict[k]? = some [BitVec.ofNat 8 k] := by
  have hlt : k < seedDict.length := by rwa [seedDict_length]
  rw [List.getElem?_eq_getElem hlt, seedDict_getElem k hlt]

theorem lzwDecodeCodes_of_overflow {k : Nat} (hk : k < 256) (hcap : cap = 0) (rest : List Nat) :
    lzwDecodeCodes width cap (k :: rest) = .error .outputOverflow := by
  simp only [lzwDecodeCodes, ge_iff_le, Nat.not_le.2 hk, if_false, seedDict_getElem? hk,
    putBytes_of_overflow (cap := cap) [BitVec.ofNat 8 k] [] (Nat.zero_le _) (by simp [hcap])]

/-- R530: a first code below 256 gives its byte. -/
theorem lzwDecodeCodes_of_fits {k : Nat} (hk : k < 256) (hcap : 1 ≤ cap) (rest : List Nat) :
    lzwDecodeCodes width cap (k :: rest) =
      lzwDecodeLoop width cap rest seedDict [BitVec.ofNat 8 k] [BitVec.ofNat 8 k] := by
  simp only [lzwDecodeCodes, ge_iff_le, Nat.not_le.2 hk, if_false, seedDict_getElem? hk,
    putBytes_of_fits (cap := cap) [BitVec.ofNat 8 k] [] hcap, List.nil_append]

/-- R530: a first code gives its byte, which fits, or an error whatever codes follow. -/
theorem lzwDecodeCodes_cons_cases (width cap k : Nat) :
    (k < 256 ∧ 1 ≤ cap ∧ ∀ rest, lzwDecodeCodes width cap (k :: rest) =
        lzwDecodeLoop width cap rest seedDict [BitVec.ofNat 8 k] [BitVec.ofNat 8 k]) ∨
      ∃ e, ∀ rest, lzwDecodeCodes width cap (k :: rest) = .error e := by
  obtain hk | hk := Nat.lt_or_ge k 256
  · obtain hcap | hcap := Nat.eq_zero_or_pos cap
    · exact .inr ⟨_, lzwDecodeCodes_of_overflow hk hcap⟩
    · exact .inl ⟨hk, hcap, lzwDecodeCodes_of_fits hk hcap⟩
  · exact .inr ⟨_, lzwDecodeCodes_of_corrupt hk⟩

/-- R530: decoding at least one code from the seed leaves the loop somewhere, or is an error whatever follows. -/
theorem lzwDecodeCodes_append_cases {codes : List Nat} (hne : codes ≠ []) :
    (∃ d prev out, out.length ≤ cap ∧ ∀ rest,
        lzwDecodeCodes width cap (codes ++ rest) = lzwDecodeLoop width cap rest d prev out) ∨
      ∃ e, ∀ rest, lzwDecodeCodes width cap (codes ++ rest) = .error e := by
  obtain ⟨k, codes, rfl⟩ := List.exists_cons_of_ne_nil hne
  obtain ⟨-, hcap, hstart⟩ | ⟨e, herr⟩ := lzwDecodeCodes_cons_cases width cap k
  · simpa only [List.cons_append, hstart] using
      lzwDecodeLoop_append_cases codes seedDict [BitVec.ofNat 8 k] (out := [BitVec.ofNat 8 k]) hcap
  · exact .inr ⟨e, fun rest => herr _⟩

/-- R530: after the codes `pre` and `j` the loop goes on with the fragment that `j` added as its previous one. -/
theorem lzwDecodeCodes_resume {pre : List Nat} {j : Nat} {out₀ out : List Byte} {d₀ d : Dict}
    (hpre : lzwDecodeCodes width cap pre = .ok (out₀, d₀))
    (hj : lzwDecodeCodes width cap (pre ++ [j]) = .ok (out, d)) :
    out.length ≤ cap ∧ ∀ rest, lzwDecodeCodes width cap (pre ++ j :: rest) =
      lzwDecodeLoop width cap rest d (out.drop out₀.length) out := by
  by_cases hne : pre = []
  · subst hne
    obtain ⟨-, hcap, hstart⟩ | ⟨e, herr⟩ := lzwDecodeCodes_cons_cases width cap j
    · cases hpre
      cases (hstart []).symm.trans hj
      exact ⟨hcap, hstart⟩
    · cases (herr []).symm.trans hj
  · obtain ⟨d', prev', out', hout, hrun⟩ | ⟨e, herr⟩ :=
      lzwDecodeCodes_append_cases (width := width) (cap := cap) hne
    · have hend := hrun []
      rw [List.append_nil, hpre] at hend
      cases hend
      obtain ⟨cur, d'', hfits, hstep⟩ | ⟨e, herr⟩ := lzwDecodeLoop_cons_cases width j d₀ prev' hout
      · cases ((hrun [j]).trans (hstep [])).symm.trans hj
        exact ⟨hfits, fun rest => by rw [hrun, hstep, List.drop_left]⟩
      · cases ((hrun [j]).trans (herr [])).symm.trans hj
    · cases (herr [j]).symm.trans hj

end

/-! ## The statement -/

/-- Settles O58: the clauses for the first code, and the loop's step for a later one. -/
theorem lzwDecodeCodeByCode : Obligations.LzwDecodeCodeByCode := by
  intro width cap k
  refine ⟨rfl, fun hk => lzwDecodeCodes_of_corrupt hk [], fun hk hcap => lzwDecodeCodes_of_fits hk hcap [],
    fun hk hcap => lzwDecodeCodes_of_overflow hk hcap [], fun codes e he => ?_,
    fun pre j out₀ out d₀ d hpre hj => ?_⟩
  · have hne : codes ≠ [] := by
      rintro rfl
      cases he
    obtain ⟨d, prev, out, -, hrun⟩ | ⟨e', herr⟩ := lzwDecodeCodes_append_cases (width := width) (cap := cap) hne
    · cases he.symm.trans (List.append_nil codes ▸ hrun [])
    · rw [herr [k], ← he, ← herr [], List.append_nil]
  · obtain ⟨hout, hrun⟩ := lzwDecodeCodes_resume hpre hj
    simp only [hrun [k]]
    refine ⟨fun hk => lzwDecodeLoop_of_corrupt hk [], fun cur hget => ?_, fun hk => ?_⟩
    · have hfrag : fragmentOf d (out.drop out₀.length) k = .ok cur := by rw [fragmentOf, hget]
      exact ⟨fun h => lzwDecodeLoop_of_fits hfrag h [], fun h => lzwDecodeLoop_of_overflow hfrag hout h []⟩
    · have hfrag : fragmentOf d (out.drop out₀.length) k =
          .ok (out.drop out₀.length ++ (out.drop out₀.length).take 1) := by simp [fragmentOf, hk]
      exact ⟨fun h => lzwDecodeLoop_of_fits hfrag h [], fun h => lzwDecodeLoop_of_overflow hfrag hout h []⟩

end Sys2Proof.Machine
end

section
/-! PROOF. The LZW encoder's loop (R520): one step of it, and what it leaves when it succeeds. -/

namespace Sys2Proof.Machine

section
variable {width cap : Nat} {c : Byte} {rest : List Byte} {d : Dict} {w : List Byte} {bits : Bits} {ovf : Bool}
  {r : Bits × Dict}

/-- R520: the code of fragment `w`, as it stands in the stream. -/
abbrev codeBits (width : Nat) (d : Dict) (w : List Byte) : Bits := natToBits width (d.idxOf w)

theorem emitCode_of_fits (h : streamTooLong (bits ++ codeBits width d w).length cap = false) :
    emitCode width cap d w bits = .ok (bits ++ codeBits width d w) := by
  simp only [emitCode, h, Bool.false_eq_true, if_false]

theorem emitCode_of_overflow (h : streamTooLong (bits ++ codeBits width d w).length cap = true) :
    emitCode width cap d w bits = .error .outputOverflow := by
  simp only [emitCode, h, if_true]

/-! ## One step, as equations -/

theorem lzwEncodeLoop_cons_of_mem (h : w ++ [c] ∈ d) :
    lzwEncodeLoop width cap (c :: rest) d w bits ovf = lzwEncodeLoop width cap rest d (w ++ [c]) bits ovf := if_pos h

theorem lzwEncodeLoop_cons_of_fits (h : w ++ [c] ∉ d)
    (hfits : streamTooLong (bits ++ codeBits width d w).length cap = false) :
    lzwEncodeLoop width cap (c :: rest) d w bits ovf =
      lzwEncodeLoop width cap rest (insertFragment (2 ^ width) d (w ++ [c])) [c] (bits ++ codeBits width d w)
        (ovf || !(d.length < 2 ^ width)) := by
  simp only [lzwEncodeLoop, h, if_false, emitCode_of_fits hfits]

theorem lzwEncodeLoop_nil_of_fits (h : w ≠ [])
    (hfits : streamTooLong (bits ++ codeBits width d w).length cap = false) :
    lzwEncodeLoop width cap [] d w bits ovf = { ovf := ovf, result := .ok (bits ++ codeBits width d w, d) } := by
  simp only [lzwEncodeLoop, h, if_false, emitCode_of_fits hfits]

/-! ## A loop that succeeds emitted a code that fits -/

theorem fits_of_lzwEncodeLoop_cons (h : w ++ [c] ∉ d)
    (hok : (lzwEncodeLoop width cap (c :: rest) d w bits ovf).result = .ok r) :
    streamTooLong (bits ++ codeBits width d w).length cap = false := by
  by_contra hlong
  simp only [lzwEncodeLoop, h, if_false, emitCode_of_overflow (Bool.of_not_eq_false hlong)] at hok
  cases hok

theorem fits_of_lzwEncodeLoop_nil (h : w ≠ [])
    (hok : (lzwEncodeLoop width cap [] d w bits ovf).result = .ok r) :
    streamTooLong (bits ++ codeBits width d w).length cap = false := by
  by_contra hlong
  simp only [lzwEncodeLoop, h, if_false, emitCode_of_overflow (Bool.of_not_eq_false hlong)] at hok
  cases hok

end

/-- R520: a loop that succeeds only lengthens the stream, and runs alike with any other DST its stream fits. -/
theorem lzwEncodeLoop_of_other_cap {width cap cap' : Nat} (bytes : List Byte) :
    ∀ (d : Dict) (w : List Byte) (bits : Bits) (ovf : Bool) (bits' : Bits) (d' : Dict),
      (lzwEncodeLoop width cap bytes d w bits ovf).result = .ok (bits', d') →
      bits.length ≤ bits'.length ∧ (streamTooLong bits'.length cap' = false →
        lzwEncodeLoop width cap' bytes d w bits ovf = lzwEncodeLoop width cap bytes d w bits ovf) := by
  induction bytes with
  | nil =>
    intro d w bits ovf bits' d' h
    by_cases hw : w = []
    · subst hw
      cases h
      exact ⟨le_rfl, fun _ => rfl⟩
    · have hemit := fits_of_lzwEncodeLoop_nil hw h
      rw [lzwEncodeLoop_nil_of_fits hw hemit] at h ⊢
      cases h
      exact ⟨by simp, lzwEncodeLoop_nil_of_fits hw⟩
  | cons c rest ih =>
    intro d w bits ovf bits' d' h
    by_cases hin : w ++ [c] ∈ d
    · simp only [lzwEncodeLoop_cons_of_mem hin] at h ⊢
      exact ih _ _ _ _ _ _ h
    · have hemit := fits_of_lzwEncodeLoop_cons hin h
      rw [lzwEncodeLoop_cons_of_fits hin hemit] at h ⊢
      obtain ⟨hlen, hsame⟩ := ih _ _ _ _ _ _ h
      refine ⟨le_trans (by simp) hlen, fun hfits => ?_⟩
      rw [lzwEncodeLoop_cons_of_fits hin (streamTooLong_mono hlen hfits), hsame hfits]

/-- R520: a stream that fits another DST too is the same there. -/
theorem lzwEncode_of_other_cap {width cap cap' : Nat} {bytes : List Byte} {bits : Bits} {d : Dict}
    (h : (lzwEncodeLoop width cap bytes seedDict [] [] false).result = .ok (bits, d))
    (hfits : streamTooLong bits.length cap' = false) :
    (lzwEncodeLoop width cap' bytes seedDict [] [] false).result = .ok (bits, d) := by
  rw [(lzwEncodeLoop_of_other_cap bytes _ _ _ _ _ _ h).2 hfits, h]

end Sys2Proof.Machine
end

section
/-! PROOF. The greedy parse (R520): the encoder's loop makes it, fragment by fragment, and O53. -/

namespace Sys2Proof.Machine

/-! ## The parse as a relation -/

/-- R520: the fragments `fs`, cut greedily from dictionary `d` on, have the codes `codes` and leave dictionary `d'`.
Each fragment is in the dictionary of its moment; its extension by the next fragment's first byte is not, and is
inserted. -/
inductive GreedyParse (width : Nat) : Dict → List (List Byte) → List Nat → Dict → Prop where
  /-- No byte, no fragment. -/
  | nil (d : Dict) : GreedyParse width d [] [] d
  /-- The last fragment is not extended. -/
  | last {d : Dict} {w : List Byte} (hne : w ≠ []) (hmem : w ∈ d) : GreedyParse width d [w] [d.idxOf w] d
  /-- A fragment `w`, then the fragment `v`. -/
  | more {d d' : Dict} {w v : List Byte} {fs : List (List Byte)} {codes : List Nat} (hne : w ≠ []) (hmem : w ∈ d)
      (hnew : w ++ v.take 1 ∉ d)
      (hrest : GreedyParse width (insertFragment (2 ^ width) d (w ++ v.take 1)) (v :: fs) codes d') :
      GreedyParse width d (w :: v :: fs) (d.idxOf w :: codes) d'

/-- R501: the dictionary at fragment `j` of the parse `ws` that starts with dictionary `d`. -/
def dictFrom (width : Nat) (d : Dict) (ws : List (List Byte)) (j : Nat) : Dict :=
  d ++ (List.range (min j (2 ^ width - d.length))).map fun i => ws.getD i [] ++ (ws.getD (i + 1) []).take 1

theorem dictAfter_eq_dictFrom (width : Nat) (ws : List (List Byte)) (j : Nat) :
    dictAfter width ws j = dictFrom width seedDict ws j := by rw [dictAfter, dictFrom, seedDict_length]

@[simp] theorem dictFrom_zero (width : Nat) (d : Dict) (ws : List (List Byte)) : dictFrom width d ws 0 = d := by
  simp [dictFrom]

/-- R501: the first insertion of a parse. -/
@[simp] theorem dictFrom_succ (width : Nat) (d : Dict) (w v : List Byte) (fs : List (List Byte)) (j : Nat) :
    dictFrom width d (w :: v :: fs) (j + 1) =
      dictFrom width (insertFragment (2 ^ width) d (w ++ v.take 1)) (v :: fs) j := by
  unfold insertFragment
  split
  · next hroom =>
    have hmin : min (j + 1) (2 ^ width - d.length) = min j (2 ^ width - (d.length + 1)) + 1 := by omega
    simp [dictFrom, hmin, List.range_succ_eq_map, Function.comp_def]
  · next hfull =>
    have hroom : 2 ^ width - d.length = 0 := by omega
    simp [dictFrom, hroom]

/-- R501: an insertion takes up room, until none is left. -/
theorem room_insertFragment (cap : Nat) (d : Dict) (f : List Byte) :
    cap - (insertFragment cap d f).length = cap - d.length - 1 := by
  unfold insertFragment
  split
  · rw [List.length_append, List.length_singleton]
    omega
  · omega

theorem mem_insertFragment_iff {cap : Nat} {d : Dict} {f g : List Byte} :
    g ∈ insertFragment cap d f ↔ g ∈ d ∨ d.length < cap ∧ g = f := by
  unfold insertFragment
  split <;> simp [*]

/-- R502: inserting a new fragment keeps the entries distinct. -/
theorem nodup_insertFragment {cap : Nat} {d : Dict} {f : List Byte} (hd : d.Nodup) (hf : f ∉ d) :
    (insertFragment cap d f).Nodup := by
  unfold insertFragment
  split
  · exact List.concat_eq_append ▸ hd.concat hf
  · exact hd

namespace GreedyParse

section
variable {width : Nat} {d d' : Dict} {fs : List (List Byte)} {codes : List Nat}

theorem ne_nil (h : GreedyParse width d fs codes d') : ∀ w ∈ fs, w ≠ [] := by
  induction h with
  | nil => simp
  | last hne => simpa
  | more hne _ _ _ ih => exact List.forall_mem_cons.2 ⟨hne, ih⟩

theorem codes_length (h : GreedyParse width d fs codes d') : codes.length = fs.length := by
  induction h with
  | nil => rfl
  | last => rfl
  | more _ _ _ _ ih => rw [List.length_cons, ih]; rfl

theorem mem_dictFrom (h : GreedyParse width d fs codes d') (j : Nat) (hj : j < fs.length) :
    fs.getD j [] ∈ dictFrom width d fs j := by
  induction h generalizing j with
  | nil => simp at hj
  | last _ hmem =>
    obtain rfl : j = 0 := by simpa using hj
    simpa
  | more _ hmem _ _ ih =>
    cases j with
    | zero => simpa
    | succ j => simpa using ih j (by simpa using hj)

theorem extension_notMem_dictFrom (h : GreedyParse width d fs codes d') (j : Nat) (hj : j + 1 < fs.length) :
    fs.getD j [] ++ (fs.getD (j + 1) []).take 1 ∉ dictFrom width d fs j := by
  induction h generalizing j with
  | nil => simp at hj
  | last => simp at hj
  | more _ _ hnew _ ih =>
    cases j with
    | zero => simpa using hnew
    | succ j => simpa using ih j (by simpa using hj)

theorem codes_eq (h : GreedyParse width d fs codes d') :
    codes = (List.range fs.length).map fun j => (dictFrom width d fs j).idxOf (fs.getD j []) := by
  induction h with
  | nil => rfl
  | last => simp
  | more _ _ _ _ ih =>
    rw [List.length_cons, List.range_succ_eq_map, List.map_cons, List.map_map, ih]
    simp [Function.comp_def]

theorem dict_eq (h : GreedyParse width d fs codes d') : d' = dictFrom width d fs (fs.length - 1) := by
  induction h with
  | nil => simp
  | last => simp
  | more _ _ _ _ ih => simpa using ih

theorem nodup (h : GreedyParse width d fs codes d') (hd : d.Nodup) : d'.Nodup := by
  induction h with
  | nil => exact hd
  | last => exact hd
  | more _ _ hnew _ ih => exact ih (nodup_insertFragment hd hnew)

/-- R510: every code fits in `width` bits. -/
theorem codes_lt (h : GreedyParse width d fs codes d') (hd : dictSizeLegal width d) :
    ∀ k ∈ codes, k < 2 ^ width := by
  induction h with
  | nil => simp
  | last _ hmem => simpa using (List.idxOf_lt_length_of_mem hmem).trans_le hd.2
  | more _ hmem _ _ ih =>
    exact List.forall_mem_cons.2
      ⟨(List.idxOf_lt_length_of_mem hmem).trans_le hd.2, ih (dictSizeLegal_insertFragment _ hd)⟩

end

end GreedyParse

/-- R520, R522: the loop with match buffer `w` cuts `w` and the bytes still to read greedily; its first fragment begins
with `w`, and the notice is set by a refused insertion. -/
theorem lzwEncodeLoop_greedyParse {width cap : Nat} (bytes : List Byte) :
    ∀ (d : Dict) (w : List Byte) (bits : Bits) (ovf : Bool) (bits' : Bits) (d' : Dict),
      (∀ c, [c] ∈ d) → w ≠ [] → w ∈ d →
      (lzwEncodeLoop width cap bytes d w bits ovf).result = .ok (bits', d') →
      ∃ x fs codes, GreedyParse width d ((w ++ x) :: fs) codes d' ∧ x ++ fs.flatten = bytes ∧
        bits' = bits ++ codes.flatMap (natToBits width) ∧
        (lzwEncodeLoop width cap bytes d w bits ovf).ovf = (ovf || decide (2 ^ width - d.length < fs.length)) := by
  induction bytes with
  | nil =>
    intro d w bits ovf bits' d' _ hne hmem h
    have hemit := fits_of_lzwEncodeLoop_nil hne h
    rw [lzwEncodeLoop_nil_of_fits hne hemit] at h ⊢
    cases h
    exact ⟨[], [], [d.idxOf w], (List.append_nil w).symm ▸ .last hne hmem, rfl, by simp, by simp⟩
  | cons c rest ih =>
    intro d w bits ovf bits' d' hseed hne hmem h
    by_cases hin : w ++ [c] ∈ d
    · rw [lzwEncodeLoop_cons_of_mem hin] at h ⊢
      obtain ⟨x, fs, codes, hparse, hbytes, hbits, hovf⟩ := ih _ _ _ _ _ _ hseed (by simp) hin h
      exact ⟨c :: x, fs, codes, by simpa using hparse, by rw [← hbytes]; rfl, hbits, hovf⟩
    · have hemit := fits_of_lzwEncodeLoop_cons hin h
      rw [lzwEncodeLoop_cons_of_fits hin hemit] at h ⊢
      have hseed' (b : Byte) : [b] ∈ insertFragment (2 ^ width) d (w ++ [c]) :=
        mem_insertFragment_iff.2 (.inl (hseed b))
      obtain ⟨x, fs, codes, hparse, hbytes, hbits, hovf⟩ := ih _ _ _ _ _ _ hseed' (by simp) (hseed' c) h
      have hroom := room_insertFragment (2 ^ width) d (w ++ [c])
      refine ⟨[], ([c] ++ x) :: fs, d.idxOf w :: codes, ?_, by simp [← hbytes], by simp [hbits], ?_⟩
      · rw [List.append_nil]
        exact .more hne hmem hin hparse
      · rw [hovf, Bool.or_assoc, hroom, List.length_cons]
        congr 1
        rw [Bool.eq_iff_iff]
        simp only [Bool.or_eq_true, Bool.not_eq_true', decide_eq_true_eq, decide_eq_false_iff_not]
        omega

theorem singleton_mem_seedDict (c : Byte) : [c] ∈ seedDict := List.mem_map.2 ⟨c, mem_allSymbols c, rfl⟩

theorem seedDict_nodup : seedDict.Nodup := allSymbols_nodup.map List.singleton_injective

/-- R520: the first byte is matched. -/
theorem lzwEncodeLoop_first (width cap : Nat) (c : Byte) (rest : List Byte) :
    lzwEncodeLoop width cap (c :: rest) seedDict [] [] false = lzwEncodeLoop width cap rest seedDict [c] [] false :=
  lzwEncodeLoop_cons_of_mem (singleton_mem_seedDict c)

/-- R520, R522: the code stream of a byte string is that of its greedy parse from the seed. -/
theorem lzwEncode_greedyParse {width cap : Nat} {bytes : List Byte} {bits : Bits} {d : Dict}
    (h : (lzwEncodeLoop width cap bytes seedDict [] [] false).result = .ok (bits, d)) :
    ∃ fs codes, GreedyParse width seedDict fs codes d ∧ fs.flatten = bytes ∧
      bits = codes.flatMap (natToBits width) ∧
      (lzwEncodeLoop width cap bytes seedDict [] [] false).ovf = decide (2 ^ width - 256 < fs.length - 1) := by
  cases bytes with
  | nil =>
    cases h
    exact ⟨[], [], .nil _, rfl, rfl, by simp [lzwEncodeLoop]⟩
  | cons c rest =>
    rw [lzwEncodeLoop_first] at h ⊢
    obtain ⟨x, fs, codes, hparse, hbytes, hbits, hovf⟩ := lzwEncodeLoop_greedyParse rest _ _ _ _ _ _
      singleton_mem_seedDict (List.cons_ne_nil _ _) (singleton_mem_seedDict c) h
    exact ⟨_, codes, hparse, by simp [← hbytes], hbits, by simpa using hovf⟩

/-! ## The statement -/

/-- Settles O53: the fragments of the loop's greedy parse. -/
theorem lzwEncodeIsGreedy : Obligations.LzwEncodeIsGreedy := by
  intro width cap bytes bits d hlow hhigh run hrun
  obtain ⟨ws, codes, hparse, hbytes, hbits, hovf⟩ := lzwEncode_greedyParse hrun
  have hroom : 256 ≤ 2 ^ width := (dictSizeLegal_seed hlow).1.trans (dictSizeLegal_seed hlow).2
  simp only [dictAfter_eq_dictFrom]
  refine ⟨ws, ⟨hbytes, hparse.ne_nil⟩, hparse.mem_dictFrom, hparse.extension_notMem_dictFrom, ?_, ?_, ?_,
    hparse.dict_eq, ?_, hparse.nodup seedDict_nodup, hovf⟩
  · rw [hbits, hparse.codes_eq, List.flatMap_map]
  · rw [hbits, List.length_flatMap]
    simp [hparse.codes_length]
  · refine fun hne => ⟨?_, ?_⟩
    · refine List.length_pos_iff.2 fun hws => hne ?_
      rw [← hbytes, hws, List.flatten_nil]
    · have hones := List.length_le_sum_of_one_le (ws.map List.length)
        (List.forall_mem_map.2 fun w hw => List.length_pos_iff.2 (hparse.ne_nil w hw))
      rwa [List.length_map, ← List.length_flatten, hbytes] at hones
  · simp [hparse.dict_eq, dictFrom]

end Sys2Proof.Machine
end

section
/-! PROOF. Code streams (R510, R530, R531): the codes of a bit string and the padding after them. -/

namespace Sys2Proof.Machine

section
variable {width : Nat}

@[simp] theorem splitCodes_length (m : Nat) (b : Bits) : (splitCodes width m b).length = m := by
  induction m generalizing b with
  | zero => rfl
  | succ m ih => rw [splitCodes, List.length_cons, ih]

/-- R530: code `j` is the number of bits `j * width` to `j * width + width - 1`. -/
theorem splitCodes_getD (m j : Nat) (b : Bits) (hj : j < m) :
    (splitCodes width m b).getD j 0 = bitsToNat ((b.drop (j * width)).take width) := by
  induction m generalizing j b with
  | zero => omega
  | succ m ih =>
    cases j with
    | zero => simp [splitCodes]
    | succ j =>
      rw [splitCodes, List.getD_cons_succ, ih j _ (by omega), List.drop_drop]
      congr 3
      ring

/-- R530: only the first `m * width` bits matter to the first `m` codes. -/
theorem splitCodes_append (m : Nat) (b pad : Bits) (h : b.length = m * width) :
    splitCodes width m (b ++ pad) = splitCodes width m b := by
  induction m generalizing b with
  | zero => rfl
  | succ m ih =>
    have hwidth : width ≤ b.length := by rw [h, Nat.succ_mul]; omega
    rw [splitCodes, splitCodes, List.take_append_of_le_length hwidth, List.drop_append_of_le_length hwidth, ih]
    rw [List.length_drop, h, Nat.succ_mul, Nat.add_sub_cancel]

/-- R510, R530: a code of whole bits, most significant bit first. -/
theorem splitCodes_bit {m j i : Nat} {b : Bits} (hm : m * width ≤ b.length) (hj : j < m) (hi : i < width) :
    (splitCodes width m b).getD j 0 < 2 ^ width ∧
      b[j * width + i]? = some (((splitCodes width m b).getD j 0).testBit (width - 1 - i)) := by
  have hend : j * width + width ≤ b.length := by
    rw [← Nat.succ_mul]
    exact (Nat.mul_le_mul_right width hj).trans hm
  have hlen : ((b.drop (j * width)).take width).length = width := by
    rw [List.length_take, List.length_drop]
    omega
  have hpos : width - 1 - (width - 1 - i) = i := by omega
  rw [splitCodes_getD m j b hj]
  refine ⟨(bitsToNat_lt _).trans_eq (by rw [hlen]), ?_⟩
  rw [testBit_bitsToNat _ _ (by rw [hlen]; omega), List.getElem?_eq_getElem (by omega)]
  simp [hlen, hpos]

theorem flatMap_natToBits_length (codes : List Nat) :
    (codes.flatMap (natToBits width)).length = codes.length * width := by
  simp [List.length_flatMap]

/-- R510: a code stream splits into its codes. -/
theorem splitCodes_flatMap_natToBits (codes : List Nat) (h : ∀ k ∈ codes, k < 2 ^ width) :
    splitCodes width codes.length (codes.flatMap (natToBits width)) = codes := by
  induction codes with
  | nil => rfl
  | cons k codes ih =>
    obtain ⟨hk, hcodes⟩ := List.forall_mem_cons.1 h
    have hlen : (natToBits width k).length = width := natToBits_length width k
    rw [List.flatMap_cons, List.length_cons, splitCodes, List.take_left' hlen, List.drop_left' hlen,
      bitsToNat_natToBits width k hk, ih hcodes]

/-- R531: which leftover bits are accepted. -/
theorem leftoverOk_iff (b : Bits) : leftoverOk width b = true ↔
    b.length % width ≤ 7 ∧ ∀ j, b.length / width * width ≤ j → b[j]? ≠ some true := by
  have hlen : b.length - b.length / width * width = b.length % width := by
    rw [Nat.mod_eq_sub_div_mul]
  simp only [leftoverOk, Bool.and_eq_true, decide_eq_true_eq, List.length_drop, hlen, List.all_eq_true, beq_iff_eq]
  refine and_congr_right fun _ => ⟨fun h j hj hb => ?_, fun h x hx => ?_⟩
  · have hmem : true ∈ b.drop (b.length / width * width) :=
      List.mem_iff_getElem?.2 ⟨j - b.length / width * width, by rw [List.getElem?_drop, Nat.add_sub_cancel' hj, hb]⟩
    cases h true hmem
  · obtain ⟨i, hi⟩ := List.mem_iff_getElem?.1 hx
    rw [List.getElem?_drop] at hi
    exact Bool.eq_false_iff.2 fun hx => h _ (Nat.le_add_right _ i) (hx ▸ hi)

/-- R531: accepted padding is ignored. -/
theorem lzwDecodeBits_append_zeros (cap m n : Nat) {b : Bits} (hwidth : 8 ≤ width) (hb : b.length = m * width)
    (hn : n ≤ 7) : lzwDecodeBits width cap (b ++ List.replicate n false) =
      lzwDecodeCodes width cap (splitCodes width m b) := by
  have hlen : (b ++ List.replicate n false).length = width * m + n := by simp [hb, Nat.mul_comm]
  have hcodes : (width * m + n) / width = m := by
    rw [Nat.mul_add_div (by omega), Nat.div_eq_of_lt (by omega), Nat.add_zero]
  have hok : leftoverOk width (b ++ List.replicate n false) = true := by
    refine (leftoverOk_iff _).2 ⟨?_, fun j hj => ?_⟩
    · rw [hlen, Nat.mul_add_mod, Nat.mod_eq_of_lt (by omega)]
      exact hn
    · rw [hlen, hcodes, ← hb] at hj
      rw [List.getElem?_append_right hj, List.getElem?_replicate]
      split <;> simp
  rw [lzwDecodeBits, if_pos hok, hlen, hcodes, splitCodes_append m b _ hb]

end

end Sys2Proof.Machine
end

section
/-! PROOF. The LZW decoder on the codes of a greedy parse (R504): its dictionary is one insertion behind the
encoder's, and O59. -/

namespace Sys2Proof.Machine

theorem insertFragment_of_room {cap : Nat} {d : Dict} (f : List Byte) (h : d.length < cap) :
    insertFragment cap d f = d ++ [f] := if_pos h

theorem idxOf_insertFragment_of_mem {cap : Nat} {d : Dict} {f g : List Byte} (h : g ∈ d) :
    (insertFragment cap d f).idxOf g = d.idxOf g := by
  unfold insertFragment
  split
  · exact List.idxOf_append_of_mem h
  · rfl

/-- R532: the decoder, one insertion behind, finds the encoder's next fragment `v` after the fragment `w`: it knows the
entry, or the entry is the one still missing, which is then `w` with its own first byte. -/
theorem fragmentOf_idxOf_insertFragment {cap : Nat} {d : Dict} {w v : List Byte} (hne : w ≠ [])
    (hmem : v ∈ insertFragment cap d (w ++ v.take 1)) :
    fragmentOf d w ((insertFragment cap d (w ++ v.take 1)).idxOf v) = .ok v := by
  by_cases hin : v ∈ d
  · rw [idxOf_insertFragment_of_mem hin, fragmentOf, List.getElem?_idxOf hin]
  · obtain ⟨hroom, hv⟩ := (mem_insertFragment_iff.1 hmem).resolve_left hin
    have htake : v.take 1 = w.take 1 := by
      conv_lhs => rw [hv]
      exact List.take_append_of_le_length (List.length_pos_iff.2 hne)
    have hidx : (insertFragment cap d (w ++ v.take 1)).idxOf v = d.length := by
      rw [← hv, insertFragment_of_room v hroom, List.idxOf_append_of_notMem hin, List.idxOf_cons_self, Nat.add_zero]
    rw [hidx, fragmentOf, List.getElem?_eq_none le_rfl, if_pos rfl, ← htake, ← hv]

namespace GreedyParse

section
variable {width cap : Nat} {d d' : Dict} {fs : List (List Byte)} {codes : List Nat}

/-- R520: the first fragment of a parse is in the dictionary, and its code is the first. -/
theorem head {w : List Byte} (h : GreedyParse width d (w :: fs) codes d') :
    w ∈ d ∧ codes = d.idxOf w :: codes.tail := by
  cases h with
  | last _ hmem => exact ⟨hmem, rfl⟩
  | more _ hmem => exact ⟨hmem, rfl⟩

/-- R504: the decoder's loop after the first fragment of a parse, with the dictionary the encoder matched it in, writes
the other fragments and ends with the encoder's dictionary. -/
theorem lzwDecodeLoop_tail (h : GreedyParse width d fs codes d') :
    ∀ out : List Byte, (out ++ fs.tail.flatten).length ≤ cap →
      lzwDecodeLoop width cap codes.tail d (fs.headD []) out = .ok (out ++ fs.tail.flatten, d') := by
  induction h with
  | nil => exact fun out _ => by simp [lzwDecodeLoop]
  | last => exact fun out _ => by simp [lzwDecodeLoop]
  | @more d d' w v fs codes hne _ _ hrest ih =>
    intro out hcap
    obtain ⟨hv, hcodes⟩ := hrest.head
    simp only [List.tail_cons, List.flatten_cons, ← List.append_assoc] at hcap ⊢
    have hfits : (out ++ v).length ≤ cap := le_trans (by simp) hcap
    rw [hcodes, List.headD_cons, lzwDecodeLoop_of_fits (fragmentOf_idxOf_insertFragment hne hv) hfits]
    exact ih _ hcap

/-- R504: the decoder on the codes of a parse from the seed. -/
theorem lzwDecodeCodes_eq (h : GreedyParse width seedDict fs codes d') (hcap : fs.flatten.length ≤ cap) :
    lzwDecodeCodes width cap codes = .ok (fs.flatten, d') := by
  cases fs with
  | nil =>
    cases h
    rfl
  | cons w fs =>
    obtain ⟨hw, hcodes⟩ := h.head
    obtain ⟨c, -, rfl⟩ := List.mem_map.1 hw
    have hlt : seedDict.idxOf [c] < 256 := by simpa using List.idxOf_lt_length_of_mem hw
    have hget := (seedDict_getElem? hlt).symm.trans (List.getElem?_idxOf hw)
    rw [hcodes, lzwDecodeCodes_of_fits hlt (le_trans (by simp) hcap), Option.some.inj hget]
    exact h.lzwDecodeLoop_tail [c] hcap

end

end GreedyParse

/-- R504, R531: the decoder on an encoder's stream, with accepted padding after it. -/
theorem lzwDecodeBits_encoded {width cap cap' n : Nat} {bytes : List Byte} {bits : Bits} {d : Dict}
    (hwidth : 8 ≤ width) (h : (lzwEncodeLoop width cap bytes seedDict [] [] false).result = .ok (bits, d))
    (hcap : bytes.length ≤ cap') (hn : n ≤ 7) :
    lzwDecodeBits width cap' (bits ++ List.replicate n false) = .ok (bytes, d) := by
  obtain ⟨fs, codes, hparse, rfl, rfl, -⟩ := lzwEncode_greedyParse h
  have hlt := hparse.codes_lt (dictSizeLegal_seed hwidth)
  rw [lzwDecodeBits_append_zeros cap' codes.length n hwidth (flatMap_natToBits_length codes) hn,
    splitCodes_flatMap_natToBits codes hlt]
  exact hparse.lzwDecodeCodes_eq hcap

/-! ## The statement -/

/-- Settles O59: the packed bytes are the stream and at most 7 zero bits. -/
theorem lzwDecoderMirrorsEncoder : Obligations.LzwDecoderMirrorsEncoder := by
  intro width cap cap' bytes bits d hlow _ h hcap
  refine ⟨?_, ?_⟩
  · simpa using lzwDecodeBits_encoded (n := 0) hlow h hcap (Nat.zero_le _)
  · rw [unpackBytes_packBits]
    exact lzwDecodeBits_encoded hlow h hcap (by simp only [ceil8]; omega)

end Sys2Proof.Machine
end

section
/-! PROOF. LZW_ENCODE at width 8 (R520): the dictionary stays the seed, and O55. -/

namespace Sys2Proof.Machine

theorem idxOf_singleton_seedDict (c : Byte) : seedDict.idxOf [c] = c.toNat := by
  have hget := List.getElem?_idxOf (singleton_mem_seedDict c)
  have hlt : seedDict.idxOf [c] < 256 := by simpa using List.idxOf_lt_length_of_mem (singleton_mem_seedDict c)
  rw [seedDict_getElem? hlt, Option.some.injEq, List.singleton_inj] at hget
  have hnat := congrArg BitVec.toNat hget
  rwa [BitVec.toNat_ofNat, Nat.mod_eq_of_lt hlt] at hnat

theorem pair_notMem_seedDict (b c : Byte) : [b] ++ [c] ∉ seedDict := by simp [seedDict]

theorem insertFragment_seedDict_width_eight (f : List Byte) : insertFragment (2 ^ 8) seedDict f = seedDict :=
  if_neg (by simp)

@[simp] theorem ceil8_eight_mul (n : Nat) : ceil8 (8 * n) = n := by simp only [ceil8]; omega

theorem packByte_natToBits (v : Byte) : packByte (natToBits 8 v.toNat) = v := by
  rw [packByte, padTo_of_length (natToBits_length 8 _), bitsToNat_natToBits 8 _ v.isLt, BitVec.ofNat_toNat,
    BitVec.setWidth_eq]

/-- R210, R211: packing inverts unpacking. -/
theorem packBits_unpackBytes (bytes : List Byte) : packBits (unpackBytes bytes) = bytes := by
  rw [packBits, unpackBytes_length, ceil8_eight_mul]
  induction bytes with
  | nil => rfl
  | cons v bytes ih =>
    have hlen : (natToBits 8 v.toNat).length = 8 := natToBits_length 8 _
    rw [unpackBytes_cons, List.length_cons, packBytes, List.take_left' hlen, List.drop_left' hlen,
      packByte_natToBits, ih]

/-- R520: at width 8 every byte is a fragment, and no entry is inserted. -/
theorem lzwEncodeLoop_width_eight {cap : Nat} (rest : List Byte) :
    ∀ (c : Byte) (bits : Bits) (ovf : Bool), streamTooLong (bits ++ unpackBytes (c :: rest)).length cap = false →
      lzwEncodeLoop 8 cap rest seedDict [c] bits ovf =
        { ovf := ovf || decide (rest ≠ []), result := .ok (bits ++ unpackBytes (c :: rest), seedDict) } := by
  induction rest with
  | nil =>
    intro c bits ovf hfits
    have hcode : codeBits 8 seedDict [c] = unpackBytes [c] := by
      simp [codeBits, idxOf_singleton_seedDict, unpackBytes_cons]
    rw [← hcode] at hfits ⊢
    simp [lzwEncodeLoop_nil_of_fits (List.cons_ne_nil c []) hfits]
  | cons b rest ih =>
    intro c bits ovf hfits
    have hcode : unpackBytes (c :: b :: rest) = codeBits 8 seedDict [c] ++ unpackBytes (b :: rest) := by
      rw [unpackBytes_cons, codeBits, idxOf_singleton_seedDict]
    rw [hcode, ← List.append_assoc] at hfits ⊢
    have hemit : streamTooLong (bits ++ codeBits 8 seedDict [c]).length cap = false :=
      streamTooLong_mono (by simp) hfits
    rw [lzwEncodeLoop_cons_of_fits (pair_notMem_seedDict c b) hemit, insertFragment_seedDict_width_eight,
      ih _ _ _ hfits]
    simp

/-! ## The statement -/

/-- Settles O55: the codes are the bytes. -/
theorem lzwWidthEightCopies : Obligations.LzwWidthEightCopies := by
  intro cap bytes hcap hlen
  have hfits : streamTooLong (unpackBytes bytes).length cap = false := by
    rw [unpackBytes_length]
    exact streamFits_iff.2 ⟨by omega, (ceil8_eight_mul _).trans_le hcap⟩
  cases bytes with
  | nil => exact ⟨[], rfl, rfl, rfl⟩
  | cons c rest =>
    simp only [lzwEncodeLoop_first, lzwEncodeLoop_width_eight rest c [] false hfits]
    refine ⟨_, rfl, packBits_unpackBytes _, ?_⟩
    cases rest <;> simp

end Sys2Proof.Machine
end

section
/-! PROOF. The commands LZW_ENCODE and LZW_DECODE (R520, R530, R531) and the LZW round trip (R535): O52, O54, O56, O57
and O60. -/

namespace Sys2Proof.Machine

/-! ## LZW_ENCODE (R520) -/

section
variable {s : State} {bits : Bits} {d : Dict}

/-- R613 (c): an error after the pre-checks of an LZW command. -/
theorem failCommand_lzw_eq {i : Instr} (e : ErrCode) (s : State)
    (h : clearResults i s = (s.setDst 0 0).setDictSize 0) :
    ∃ m n, failCommand i e s = { s with mem := m, draws := n, dstLen := 0, dstBits := 0, dictSize := 0, errCode := e,
                                        error := true, done := false, engine := .idle } := by
  obtain ⟨m, n, hfail⟩ := failCommand_eq i e s
  exact ⟨m, n, by rw [hfail, h]; rfl⟩

/-- The loop of LZW_ENCODE on the state's operands (R520). -/
abbrev encodeRun (s : State) : LzwEncoded :=
  lzwEncodeLoop s.codeWidth.toNat s.dstCap.toNat (srcBytes s) seedDict [] [] false

/-- R520: the state of a success. -/
def lzwEncoded (s : State) (bits : Bits) (d : Dict) : State :=
  { s with mem := s.mem.writeBytes s.dstAddr.toNat (packBits bits), dstLen := BitVec.ofNat 32 (ceil8 bits.length),
           dstBits := BitVec.ofNat 32 bits.length, dictSize := BitVec.ofNat 17 d.length,
           dictOvf := s.dictOvf || (encodeRun s).ovf, done := true, error := false, errCode := .none, engine := .idle }

theorem lzwEncodeBody_of_ok (h : (encodeRun s).result = .ok (bits, d)) :
    lzwEncodeBody s = lzwEncoded s bits d := by
  simp only [lzwEncodeBody, h]
  rfl

theorem lzwEncodeBody_of_error {e : ErrCode} (h : (encodeRun s).result = .error e) :
    lzwEncodeBody s = failCommand .lzwEncode e (s.noteOverflow (encodeRun s).ovf) := by
  simp only [lzwEncodeBody, h]

/-- R520: what a success has for its result registers to show. -/
theorem lzwEncode_ok_legal {width cap : Nat} {bytes : List Byte} (hwidth : 8 ≤ width)
    (h : (lzwEncodeLoop width cap bytes seedDict [] [] false).result = .ok (bits, d)) :
    dictSizeLegal width d ∧ streamTooLong bits.length cap = false := by
  obtain ⟨bits', d', hrun, hd, hfits⟩ | hrun := lzwEncodeLoop_cases (cap := cap) bytes seedDict [] [] false
    (dictSizeLegal_seed hwidth) (streamTooLong_zero _)
  · cases h.symm.trans hrun
    exact ⟨hd, hfits⟩
  · cases h.symm.trans hrun

/-- R520: the encoder's loop raises no other error. -/
theorem lzwEncode_error_overflow {width cap : Nat} {bytes : List Byte} {e : ErrCode} (hwidth : 8 ≤ width)
    (h : (lzwEncodeLoop width cap bytes seedDict [] [] false).result = .error e) : e = .outputOverflow := by
  obtain ⟨bits', d', hrun, -⟩ | hrun := lzwEncodeLoop_cases (cap := cap) bytes seedDict [] [] false
    (dictSizeLegal_seed hwidth) (streamTooLong_zero _)
  · cases h.symm.trans hrun
  · exact Except.error.inj (h.symm.trans hrun)

/-- R112, R113: the lengths of a stream that fits. -/
theorem lzwEncoded_lengths (hfits : streamTooLong bits.length s.dstCap.toNat = false) :
    (lzwEncoded s bits d).dstLen.toNat = ceil8 bits.length ∧ (lzwEncoded s bits d).dstBits.toNat = bits.length := by
  obtain ⟨hbits, hbytes⟩ := streamFits_iff.1 hfits
  have hcap := s.dstCap.isLt
  simp only [lzwEncoded, BitVec.toNat_ofNat]
  omega

/-- R119: DICT_SIZE holds the size of a legal dictionary. -/
theorem dictSize_toNat {width : Nat} (hwidth : width ≤ Config.codeWidthMax) (hd : dictSizeLegal width d) :
    (BitVec.ofNat 17 d.length).toNat = d.length := by
  have := (dictSizeLegal_bounds hwidth hd).2
  rw [BitVec.toNat_ofNat]
  omega

/-- R520: what an LZW_ENCODE that succeeds has done. -/
theorem exec_lzwEncode_done {t : State} (h : exec .lzwEncode s = .next t) (hd : t.done = true) :
    precheck .lzwEncode s = none ∧ ∃ bits d, (encodeRun s).result = .ok (bits, d) ∧ t = lzwEncoded s bits d := by
  cases h
  obtain ⟨hp, hbody⟩ := runChecked_of_done hd
  rw [hbody] at hd ⊢
  cases hrun : (encodeRun s).result with
  | error e => exact (failCommand_not_done (lzwEncodeBody_of_error hrun ▸ hd)).elim
  | ok r => exact ⟨hp, r.1, r.2, rfl, lzwEncodeBody_of_ok hrun⟩

/-! ## LZW_DECODE (R530) -/

/-- R530: the decoding of LZW_DECODE on the state's operands. -/
abbrev decodeRun (s : State) : Except ErrCode (List Byte × Dict) :=
  lzwDecodeBits s.codeWidth.toNat s.dstCap.toNat (s.mem.readBits s.srcAddr.toNat s.srcLen.toNat)

/-- R530: the state of a success. -/
def lzwDecoded (s : State) (out : List Byte) (d : Dict) : State :=
  { s with mem := s.mem.writeBytes s.dstAddr.toNat out, dstLen := BitVec.ofNat 32 out.length, dstBits := 0,
           dictSize := BitVec.ofNat 17 d.length, done := true, error := false, errCode := .none, engine := .idle }

theorem exec_lzwDecode_of_ok {out : List Byte} (hp : precheck .lzwDecode s = none) (h : decodeRun s = .ok (out, d)) :
    exec .lzwDecode s = .next (lzwDecoded s out d) := by
  refine next_runChecked hp ?_
  simp only [lzwDecodeBody, h]
  rfl

theorem exec_lzwDecode_of_error {e : ErrCode} (hp : precheck .lzwDecode s = none) (h : decodeRun s = .error e) :
    ∃ m n, exec .lzwDecode s = .next { s with mem := m, draws := n, dstLen := 0, dstBits := 0, dictSize := 0,
                                              errCode := e, error := true, done := false, engine := .idle } := by
  obtain ⟨m, n, hfail⟩ := failCommand_lzw_eq (i := .lzwDecode) e s rfl
  exact ⟨m, n, next_runChecked hp (by simp only [lzwDecodeBody, h, hfail])⟩

/-- R530: what a success has for its result registers to show. -/
theorem decodeRun_ok {out : List Byte} (hp : precheck .lzwDecode s = none) (h : decodeRun s = .ok (out, d)) :
    out.length ≤ s.dstCap.toNat ∧ dictSizeLegal s.codeWidth.toNat d := by
  have hends := lzwDecodeBits_ends s.dstCap.toNat (s.mem.readBits s.srcAddr.toNat s.srcLen.toNat)
    (codeWidth_of_precheck (.inr rfl) hp).1
  simp only [h] at hends
  exact hends

end

/-! ## The statements -/

/-- Settles O52: the loop answers a stream that fits. -/
theorem lzwEncodeWritesCodes : Obligations.LzwEncodeWritesCodes := by
  intro s bits d hp run hrun
  obtain ⟨hlow, hhigh⟩ := codeWidth_of_precheck (.inl rfl) hp
  obtain ⟨hd, hfits⟩ := lzwEncode_ok_legal hlow hrun
  obtain ⟨hlen, hbits⟩ := lzwEncoded_lengths (d := d) hfits
  exact ⟨lzwEncoded s bits d, next_runChecked hp (lzwEncodeBody_of_ok hrun), dictSize_toNat hhigh hd,
    hlen, hbits, rfl⟩

/-- Settles O54: a stream that fits DST is the one a DST of 2^32 bytes gets, and the other way round. -/
theorem lzwEncodeOverflow : Obligations.LzwEncodeOverflow := by
  intro s hp run free
  have hlow := (codeWidth_of_precheck (.inl rfl) hp).1
  have free_of_run {bits : Bits} {d : Dict} (h : run.result = .ok (bits, d)) : free.result = .ok (bits, d) := by
    obtain ⟨hlong, hbytes⟩ := streamFits_iff.1 (lzwEncode_ok_legal hlow h).2
    exact lzwEncode_of_other_cap h (streamFits_iff.2 ⟨hlong, hbytes.trans s.dstCap.isLt.le⟩)
  refine ⟨fun e he => ?_, fun bits d hfree => ?_, fun e he => ?_⟩
  · obtain rfl := lzwEncode_error_overflow hlow he
    obtain ⟨m, n, hfail⟩ := failCommand_lzw_eq (i := .lzwEncode) .outputOverflow (s.noteOverflow run.ovf) rfl
    exact ⟨m, n, next_runChecked hp ((lzwEncodeBody_of_error he).trans hfail)⟩
  · have hlong := (streamFits_iff.1 (lzwEncode_ok_legal hlow hfree).2).1
    refine ⟨hlong, fun ⟨e, he⟩ => ?_, fun hover => ?_⟩
    · by_contra hbytes
      cases he.symm.trans (lzwEncode_of_other_cap hfree (streamFits_iff.2 ⟨hlong, Nat.not_lt.1 hbytes⟩))
    · cases hrun : run.result with
      | error e => exact ⟨e, rfl⟩
      | ok r =>
        cases (free_of_run hrun).symm.trans hfree
        exact absurd (streamFits_iff.1 (lzwEncode_ok_legal hlow hrun).2).2 (Nat.not_le.2 hover)
  · cases hrun : run.result with
    | error e' => exact ⟨e', rfl⟩
    | ok r => cases (free_of_run hrun).symm.trans he

/-- Settles O56: the decoding ends with bytes that fit, or with an error. -/
theorem lzwDecodeWritesBytes : Obligations.LzwDecodeWritesBytes := by
  intro s hp run
  refine ⟨fun out d hrun => ?_, fun e he => exec_lzwDecode_of_error hp he⟩
  obtain ⟨hlen, hd⟩ := decodeRun_ok hp hrun
  have hout : (BitVec.ofNat 32 out.length).toNat = out.length := by
    have := s.dstCap.isLt
    rw [BitVec.toNat_ofNat]
    omega
  exact ⟨_, exec_lzwDecode_of_ok hp hrun, hout, dictSize_toNat (codeWidth_of_precheck (.inr rfl) hp).2 hd, rfl⟩

/-- Settles O57: the leftover bits are those after the last whole code, and the codes are cut from the bits before. -/
theorem lzwDecodeLength : Obligations.LzwDecodeLength := by
  intro s hp width b m bad
  have hlen : b.length = s.srcLen.toNat := readBits_length _ _ _
  have hlow : 8 ≤ width := (codeWidth_of_precheck (.inr rfl) hp).1
  have hwhole : m * width ≤ b.length := hlen ▸ Nat.div_mul_le_self _ _
  have hbad : leftoverOk width b = true ↔ ¬ bad := by
    rw [leftoverOk_iff, hlen, not_or, Nat.not_lt, not_exists]
    simp only [not_and, ne_eq, m]
  refine ⟨fun h => ?_, fun h => ?_⟩
  · refine exec_lzwDecode_of_error hp (if_neg ?_)
    rw [hbad]
    exact not_not_intro h
  · have hcodes : lzwDecodeBits width s.dstCap.toNat b =
        lzwDecodeCodes width s.dstCap.toNat (splitCodes width m b) := by
      rw [lzwDecodeBits, if_pos (hbad.2 h), hlen]
    have htake := lzwDecodeBits_append_zeros s.dstCap.toNat m 0 hlow (List.length_take_of_le hwhole) (Nat.zero_le 7)
    have hsplit := splitCodes_append m (b.take (m * width)) (b.drop (m * width)) (List.length_take_of_le hwhole)
    rw [List.take_append_drop] at hsplit
    rw [List.replicate_zero, List.append_nil, ← hsplit, ← hcodes] at htake
    exact ⟨htake.symm, splitCodes width m b, splitCodes_length m b, hcodes, fun j i hj hi =>
      splitCodes_bit hwhole hj hi⟩

/-- Settles O60: the bits read are the encoder's stream, with the padding of its last byte when SRC_LEN = 8n. -/
theorem lzwRoundTrip : Obligations.LzwRoundTrip := by
  intro s t u hws hwu h hdone hwidth hsrc hlen hcap hpu
  obtain ⟨hp, bits, d, hrun, rfl⟩ := exec_lzwEncode_done h hdone
  obtain ⟨hlow, hhigh⟩ := codeWidth_of_precheck (.inl rfl) hp
  obtain ⟨-, hfits⟩ := lzwEncode_ok_legal hlow hrun
  obtain ⟨hdstLen, hdstBits⟩ := lzwEncoded_lengths (d := d) hfits
  have hstored := Memory.readBytes_writeBytes_same s.dstAddr.toNat (packBits bits) hws
  rw [packBits_length] at hstored
  rw [hdstLen] at hsrc hlen
  have hbytes : u.mem.readBytes u.srcAddr.toNat (ceil8 bits.length) = packBits bits := hsrc.trans hstored
  have hout : (srcBytes s).length = s.srcLen.toNat := by rw [srcBytes, Memory.readBytes_length]
  obtain ⟨hexact, hpadded⟩ := lzwDecoderMirrorsEncoder _ _ u.dstCap.toNat _ _ _ hlow hhigh
    hrun (hout.trans_le hcap)
  have hdecode : decodeRun u = .ok (srcBytes s, d) := by
    rw [decodeRun, hwidth]
    obtain hlen | hlen := hlen
    · rwa [hlen, hdstBits, readBits_of_packBits hbytes]
    · rwa [hlen, Memory.readBits, ceil8_eight_mul, hbytes, List.take_of_length_le (by simp)]
  refine ⟨_, exec_lzwDecode_of_ok hpu hdecode, rfl, ?_, rfl, ?_⟩
  · simp [lzwDecoded, hout]
  · rw [← hout]
    exact Memory.readBytes_writeBytes_same _ _ hwu

end Sys2Proof.Machine
end

section
/-! PROOF. The pre-checks in their order (R605), as the statements write each of them: O7. -/

namespace Sys2Proof.Machine

/-! ## A command's own rule, behind the pre-checks -/

/-- What each command does after its pre-checks (R402 to R530). -/
def ownRule : Instr → State → State
  | .hufFreq => hufFreqBody
  | .hufBuild => hufBuildBody
  | .hufCodegen => hufCodegenBody
  | .hufEncode => hufEncodeBody
  | .hufDecode => hufDecodeBody
  | .hufMetaEmit => hufMetaEmitBody
  | .hufMetaParse => hufMetaParseBody
  | .hufCompress => hufCompressBody
  | .hufDecompress => hufDecompressBody
  | .lzwEncode => lzwEncodeBody
  | .lzwDecode => lzwDecodeBody

theorem exec_eq_runChecked (i : Instr) (s : State) : exec i s = .next (runChecked i (ownRule i) s) := by
  cases i <;> rfl

section
variable {i : Instr} {s : State}

/-- R605: the first check that fails raises its error, and nothing else changes. -/
theorem exec_of_precheck_some {e : ErrCode} (h : precheck i s = some e) : exec i s = .next (s.raiseError e) := by
  rw [exec_eq_runChecked, runChecked_of_some h]

theorem exec_of_precheck_none (h : precheck i s = none) : exec i s = .next (ownRule i s) := by
  rw [exec_eq_runChecked, runChecked_of_none h]

/-! ## When each check fails -/

/-- R605 check 2. -/
theorem configOk_eq_false_iff : configOk i s = false ↔ (i = .lzwEncode ∨ i = .lzwDecode) ∧
    ¬ (Config.codeWidthMin ≤ s.codeWidth.toNat ∧ s.codeWidth.toNat ≤ Config.codeWidthMax) := by
  cases i <;> simp [configOk]

/-- R605 check 3. -/
theorem readyOk_eq_false_iff : readyOk i s = false ↔
    (i = .hufCodegen ∧ s.treeValid = false) ∨ ((i = .hufEncode ∨ i = .hufDecode) ∧ s.codeValid = false) := by
  cases i <;> simp [readyOk]

/-- R605 check 4. -/
theorem rangesOk_eq_false_iff : rangesOk i s = false ↔
    ∃ r ∈ regions i s, r.len ≠ 0 ∧ r.addr + r.len > s.memTop.toNat + 1 := by
  simp [rangesOk, Region.inRange_iff, State.memSize]

end

section
variable {r q : Region} {rs : List Region}

theorem Region.overlaps_comm : r.overlaps q = q.overlaps r := by
  rw [Bool.eq_iff_iff, Region.overlaps_iff, Region.overlaps_iff]
  exact exists_congr fun _ => and_comm

/-- Neither of two regions is written in a byte of the other. -/
def Region.Separate (r q : Region) : Prop := r.isWrite = true ∨ q.isWrite = true → r.overlaps q = false

theorem Region.Separate.symm (h : r.Separate q) : q.Separate r := fun hw =>
  Region.overlaps_comm.trans (h hw.symm)

theorem disjointOk_iff_pairwise : disjointOk rs = true ↔ rs.Pairwise Region.Separate := by
  induction rs with
  | nil => simp [disjointOk]
  | cons r rest ih => simp [disjointOk, ih, Region.Separate, imp_iff_not_or]

/-- R605 check 5, by positions in the list: no written region overlaps one at another position, on either side. -/
theorem disjointOk_iff_getElem? : disjointOk rs = true ↔ ∀ (j k : Nat) (r q : Region), j ≠ k → rs[j]? = some r →
    rs[k]? = some q → r.isWrite = true → r.overlaps q = false := by
  rw [disjointOk_iff_pairwise, List.pairwise_iff_getElem]
  constructor
  · intro hsep j k r q hjk hr hq hw
    obtain ⟨hj, rfl⟩ := List.getElem?_eq_some_iff.1 hr
    obtain ⟨hk, rfl⟩ := List.getElem?_eq_some_iff.1 hq
    obtain hlt | hlt := Nat.lt_or_gt_of_ne hjk
    · exact hsep j k hj hk hlt (.inl hw)
    · exact (hsep k j hk hj hlt).symm (.inl hw)
  · intro hsep j k hj hk hlt hw
    have hr := List.getElem?_eq_getElem hj
    have hq := List.getElem?_eq_getElem hk
    obtain hw | hw := hw
    · exact hsep j k _ _ hlt.ne hr hq hw
    · exact Region.overlaps_comm.trans (hsep k j _ _ hlt.ne' hq hr hw)

/-- R605 check 5 fails: a region is written in a byte of another. -/
theorem disjointOk_eq_false_iff : disjointOk rs = false ↔
    ∃ (j k : Nat) (r q : Region) (a : Nat), j ≠ k ∧ rs[j]? = some r ∧ rs[k]? = some q ∧ r.isWrite = true ∧
      r.addr ≤ a ∧ a < r.addr + r.len ∧ q.addr ≤ a ∧ a < q.addr + q.len := by
  rw [← Bool.not_eq_true, disjointOk_iff_getElem?]
  simp only [← Bool.not_eq_true, Region.overlaps_iff, not_forall, not_not, exists_prop, and_assoc, exists_and_left]

end

/-- Settles O7: the regions are the table's rows, an illegal word is one that decodes to no command, and the other checks
fail exactly as the four lemmas above say. -/
theorem prechecksInOrder : Obligations.PrechecksInOrder := by
  refine ⟨fun s => ⟨rfl, rfl, rfl, rfl, rfl, rfl, rfl, rfl, rfl, rfl, rfl⟩, fun s hw => ?_, ?_⟩
  · obtain ⟨e, he⟩ := decode_eq_error_iff.2 hw
    exact runCommand_of_error he
  · intro i s badConfig notReady outOfRange overlap raises
    have hconfig : configOk i s = false ↔ badConfig := configOk_eq_false_iff
    have hready : readyOk i s = false ↔ notReady := readyOk_eq_false_iff
    have hranges : rangesOk i s = false ↔ outOfRange := rangesOk_eq_false_iff
    have hdisjoint : disjointOk (regions i s) = false ↔ overlap := disjointOk_eq_false_iff
    refine ⟨fun h₂ => exec_of_precheck_some ?_, fun h₂ h₃ => exec_of_precheck_some ?_,
      fun h₂ h₃ h₄ => exec_of_precheck_some ?_, fun h₂ h₃ h₄ h₅ => exec_of_precheck_some ?_, fun h₂ h₃ h₄ h₅ => ?_⟩
    · simp [precheck, hconfig, h₂]
    · simp [precheck, hconfig, hready, h₂, h₃]
    · simp [precheck, hconfig, hready, hranges, h₂, h₃, h₄]
    · simp [precheck, hconfig, hready, hranges, hdisjoint, h₂, h₃, h₄, h₅]
    · simp [precheck, hconfig, hready, hranges, hdisjoint, h₂, h₃, h₄, h₅]

end Sys2Proof.Machine
end

section
/-! PROOF. The results after an error (R613 (c)): a command that ends with an error after its pre-checks ends by
`failCommand`, which zeroes the result registers the command writes: O10. -/

namespace Sys2Proof.Machine

/-- R610, R611, R613: a command's end is a success, or the end `failCommand` gives from some state. -/
def SucceedsOrFails (i : Instr) (t : State) : Prop := t.error = false ∨ ∃ e u, t = failCommand i e u

theorem failCommand_fails {i : Instr} {e : ErrCode} {u : State} : SucceedsOrFails i (failCommand i e u) :=
  .inr ⟨e, u, rfl⟩

theorem complete_succeeds {i : Instr} {s : State} : SucceedsOrFails i s.complete := .inl rfl

section
variable (s : State)

theorem hufEncodeBody_succeedsOrFails : SucceedsOrFails .hufEncode (hufEncodeBody s) := by
  unfold hufEncodeBody
  split
  · exact failCommand_fails
  · exact complete_succeeds

theorem decodeStage_succeedsOrFails (i : Instr) (n : Nat) : SucceedsOrFails i (decodeStage i n s) := by
  unfold decodeStage
  split
  · exact failCommand_fails
  · exact complete_succeeds

theorem hufMetaEmitBody_succeedsOrFails : SucceedsOrFails .hufMetaEmit (hufMetaEmitBody s) := by
  simp only [hufMetaEmitBody]
  split
  · exact failCommand_fails
  · exact complete_succeeds

theorem hufMetaParseBody_succeedsOrFails : SucceedsOrFails .hufMetaParse (hufMetaParseBody s) := by
  unfold hufMetaParseBody
  split
  · exact failCommand_fails
  · exact complete_succeeds

theorem hufCompressBody_succeedsOrFails : SucceedsOrFails .hufCompress (hufCompressBody s) := by
  obtain ⟨bits, -, ⟨-, -, hend⟩ | ⟨u, hend⟩⟩ := hufCompressBody_cases s <;> rw [hend]
  · exact complete_succeeds
  · exact failCommand_fails

theorem hufDecompressBody_succeedsOrFails : SucceedsOrFails .hufDecompress (hufDecompressBody s) := by
  simp only [hufDecompressBody, decompressStage]
  split
  · exact failCommand_fails
  · split
    · exact failCommand_fails
    · exact decodeStage_succeedsOrFails _ _ _

theorem lzwEncodeBody_succeedsOrFails : SucceedsOrFails .lzwEncode (lzwEncodeBody s) := by
  simp only [lzwEncodeBody]
  split
  · exact failCommand_fails
  · exact complete_succeeds

theorem lzwDecodeBody_succeedsOrFails : SucceedsOrFails .lzwDecode (lzwDecodeBody s) := by
  unfold lzwDecodeBody
  split
  · exact failCommand_fails
  · exact complete_succeeds

/-- The three table commands always succeed after their pre-checks. -/
theorem ownRule_succeedsOrFails (i : Instr) : SucceedsOrFails i (ownRule i s) := by
  cases i with
  | hufFreq | hufBuild | hufCodegen => exact complete_succeeds
  | hufEncode => exact hufEncodeBody_succeedsOrFails s
  | hufDecode => exact decodeStage_succeedsOrFails s _ _
  | hufMetaEmit => exact hufMetaEmitBody_succeedsOrFails s
  | hufMetaParse => exact hufMetaParseBody_succeedsOrFails s
  | hufCompress => exact hufCompressBody_succeedsOrFails s
  | hufDecompress => exact hufDecompressBody_succeedsOrFails s
  | lzwEncode => exact lzwEncodeBody_succeedsOrFails s
  | lzwDecode => exact lzwDecodeBody_succeedsOrFails s

end

/-- R613: an error after the pre-checks is one `failCommand` raises. -/
theorem exec_error_of_precheck_none {i : Instr} {s t : State} (hp : precheck i s = none) (h : exec i s = .next t)
    (herr : t.error = true) : ∃ e u, t = failCommand i e u := by
  cases (exec_of_precheck_none hp).symm.trans h
  exact (ownRule_succeedsOrFails s i).resolve_left (by simp [herr])

/-- Settles O10: `failCommand` leaves the results as `clearResults` does, which zeroes those the command writes. -/
theorem failureZeroesResults : Obligations.FailureZeroesResults := by
  intro i s t hp h herr
  obtain ⟨e, u, rfl⟩ := exec_error_of_precheck_none hp h herr
  obtain ⟨m, n, hfail⟩ := failCommand_eq i e u
  rw [hfail]
  refine ⟨fun hi => ?_, fun hi => ?_, fun hi => ?_⟩ <;> fin_cases hi <;> simp [clearResults]

end Sys2Proof.Machine
end

section
/-! PROOF. How a command ends (R612), and reset (R700, R702): the reset state register by register, and what a reset does
to a core in any state. O6, O11, O13, O14. -/

namespace Sys2Proof.Machine

/-- Settles O6: every command answers with a next state, and `exec_completes` says how it ends there. -/
theorem everyCommandCompletes : Obligations.EveryCommandCompletes := by
  intro i s
  have hnext := exec_eq_runChecked i s
  have hends := exec_completes hnext
  exact ⟨_, hnext, hends.engine, hends.outcome⟩

/-! ## The reset state (R700) -/

/-- R700: the reset state is a reset core over data memory nothing has written. -/
theorem resetWith_inv (m : Word) : (State.resetWith m).Inv :=
  State.Inv.coreReset (s := State.resetWith m) ⟨rfl, rfl⟩

/-- Settles O11: the reset state is one that `coreReset` gives. -/
theorem resetMeetsInvariant : Obligations.ResetMeetsInvariant := ⟨resetWith_inv, resetWith_inv _⟩

/-- R150, R120: the codeword selected at reset is absent. -/
theorem resetWith_selectedCode (m : Word) : (State.resetWith m).selectedCode = [] := by
  have habsent : (State.resetWith m).code.lookup (State.resetWith m).codeSel = none := Table.lookup_replicate none _
  simp [State.selectedCode, habsent]

/-- R122: every readout word of an absent codeword is zero. -/
theorem codeBitsWord_of_selectedCode_nil {s : State} (h : s.selectedCode = []) (j : Nat) : s.codeBitsWord j = 0 := by
  simp only [State.codeBitsWord, h, List.drop_nil]
  decide

/-- Settles O13: the registers by the definition of the reset state, the code readout and the tables by their entries,
which are all alike. -/
theorem resetStateIsTheTable : Obligations.ResetStateIsTheTable := by
  intro m s
  have hsel : s.selectedCode = [] := resetWith_selectedCode m
  refine ⟨⟨rfl, rfl, rfl, rfl, rfl, rfl, rfl⟩, ⟨rfl, rfl, rfl, rfl, rfl, rfl, rfl, rfl, rfl, rfl, rfl, rfl, rfl⟩,
    ⟨?_, fun j _ => codeBitsWord_of_selectedCode_nil hsel j⟩, Table.lookup_replicate 0, ⟨rfl, rfl⟩,
    Table.lookup_replicate none⟩
  simp [State.codeLenWord, hsel]

/-! ## A reset of any state (R702) -/

theorem abandon_of_running {s : State} {i : Instr} (h : s.running = some i) : s.abandon = scrambleCutOff i s := by
  simp only [State.abandon, h]

theorem abandon_of_not_running {s : State} (h : s.running = none) : s.abandon = s := by
  simp only [State.abandon, h]

/-- R700: an idle core has no command to abandon. -/
theorem abandon_of_idle {s : State} (h : s.engine = .idle) : s.abandon = s :=
  abandon_of_not_running (by simp [State.running, State.busy, h])

section
variable (s : State)

/-- U2: abandoning a command changes only data memory and the counter of free values. -/
theorem abandon_eq : ∃ m n, s.abandon = { s with mem := m, draws := n } := by
  obtain heq | ⟨i, heq⟩ := abandon_cases s
  · exact ⟨s.mem, s.draws, heq⟩
  · obtain ⟨m, n, hcut⟩ := scrambleCutOff_eq i s
    exact ⟨m, n, heq.trans hcut⟩

/-- U2: abandoning a command keeps every byte outside its write regions. -/
theorem abandon_read (a : Nat) (h : ∀ i, s.running = some i → ¬ inWriteRegion i s a) :
    s.abandon.mem.read a = s.mem.read a := by
  cases hr : s.running with
  | none => rw [abandon_of_not_running hr]
  | some i =>
    rw [abandon_of_running hr]
    exact scrambleCutOff_read i s a fun r hmem hw hin => h i hr ⟨r, hmem, hw, hin⟩

theorem applyReset_mem : s.applyReset.mem = s.abandon.mem := rfl

/-- R700: whatever the core was doing, a reset leaves its reset state. -/
theorem applyReset_eq : s.applyReset = { State.resetWith s.memTop with
    mem := s.applyReset.mem, inputs := s.inputs, recorded := s.recorded, draws := s.applyReset.draws } := by
  obtain ⟨m, n, heq⟩ := abandon_eq s
  simp only [State.applyReset, heq, State.coreReset]

/-- R700: the platform's reset, its next action. -/
theorem hostTurn_hardReset (early : Bool) :
    hostTurn { s with inputs := { early := early, action := .hardReset } :: s.inputs } = .next s.applyReset := rfl

end

/-- Settles O14: a CTRL write with bit 1 set is `applyReset`, which abandons the running command and then puts the core's
own state at its reset values over the data memory that leaves. -/
theorem resetTakesCoreToResetState : Obligations.ResetTakesCoreToResetState := by
  intro s v hv t
  have ht : t = s.applyReset := (hostWrite_ctrl_offset s v).trans (writeCtrl_of_reset s hv)
  have hmem : t.mem = s.abandon.mem := (congrArg State.mem ht).trans (applyReset_mem s)
  refine ⟨ht, ht ▸ applyReset_eq s, fun hi => ?_, fun a ha => ?_, hostTurn_hardReset s⟩
  · rw [hmem, abandon_of_idle hi]
  · rw [hmem]
    exact abandon_read s a fun i hr => ha i (running_eq_some_iff.1 hr).1 (running_eq_some_iff.1 hr).2

end Sys2Proof.Machine
end
